-- ==== Sys2Proof/Word.lean ====
section
/-! DEFINITION. The engine's two data widths and its 16-byte key (spec/00_scope.md R8, R10, R11, R12; spec/10_state.md R24). -/

namespace Sys2Proof

/-- A word: 32 bits, unsigned; `+`, `-` wrap modulo 2^32 and `>>>` is logical (R10, R11). -/
abbrev Word := BitVec 32

/-- A byte: 8 bits, unsigned; `+`, `-` wrap modulo 256 (R10, R12). -/
abbrev Byte := BitVec 8

/-- The key register's contents: `K[0]` to `K[15]` (R24). -/
abbrev Key := Vector Byte 16

end Sys2Proof
end

