-- ==== Sys2Proof/Machine/Bits.lean ====
section
/-! DEFINITION. Byte order and byte rotations: the little-endian word of spec/20_memory.md R50 and the circular
rotations of spec/00_scope.md R13. -/

namespace Sys2Proof.Machine

/-- The word formed from four bytes, the byte at the lowest index the least significant (R50, R51). -/
def leWord (b0 b1 b2 b3 : Byte) : Word := b3 ++ b2 ++ b1 ++ b0

/-- Byte `k` of a word, `v[8k+7:8k]` (R50). -/
def leByte (v : Word) (k : Nat) : Byte := v.extractLsb' (8 * k) 8

/-- The four bytes of a word in the order they are stored (R50). -/
def leBytes (v : Word) : List Byte := [leByte v 0, leByte v 1, leByte v 2, leByte v 3]

/-- 8-bit circular left rotation by `0 <= r <= 7`; rotation by 0 is the identity (R13, R245): the shift by 8 of that
case gives 0. -/
def rotl8 (b : Byte) (r : Nat) : Byte := (b <<< r) ||| (b >>> (8 - r))

/-- 8-bit circular right rotation by `0 <= r <= 7`; rotation by 0 is the identity (R13, R245). -/
def rotr8 (b : Byte) (r : Nat) : Byte := (b >>> r) ||| (b <<< (8 - r))

end Sys2Proof.Machine
end

