-- ==== Sys2Proof/Syntax.lean ====
section
/-! DEFINITION. The twelve commands of spec/30_encoding.md R83, one constructor per row of spec/opcode_table.json. No
command has an operand field (R84): lengths and operands are implicit. -/

namespace Sys2Proof

/-- A command of the engine (R83). -/
inductive Instr
  /-- PACK, R100 -/
  | pack
  /-- UNPACK, R103 -/
  | unpack
  /-- PACK.L, R101 -/
  | packL
  /-- UNPACK.L, R104 -/
  | unpackL
  /-- XXENC, R124 -/
  | xxenc
  /-- XXDEC, R126 -/
  | xxdec
  /-- BSENC, R144 -/
  | bsenc
  /-- BSDEC, R146 -/
  | bsdec
  /-- CHENC, R163 -/
  | chenc
  /-- CHDEC, R164 -/
  | chdec
  /-- KEYLD.PAD, R180 -/
  | keyldPad
  /-- KEYLD.RAW, R182 -/
  | keyldRaw
  deriving DecidableEq, Repr

/-- All the commands, in the order of R83. -/
def Instr.all : List Instr :=
  [.pack, .unpack, .packL, .unpackL, .xxenc, .xxdec, .bsenc, .bsdec, .chenc, .chdec, .keyldPad, .keyldRaw]

end Sys2Proof
end

