-- ==== Sys2Proof/Decode.lean ====
section
/-! DEFINITION. The command decoder and encoder. The decoder reads the fields of format C (spec/30_encoding.md R81); the
encoder writes the twelve words of the opcode map (R83). The two are taken from different tables of the spec. -/

namespace Sys2Proof

/-- Why a word or a byte string is no command. -/
inductive DecodeError
  /-- The 32-bit word is not one of the twelve commands (R82, R85). Raised by `decode`; the engine then takes the
  IllegalCommand fault (R201), so this is no stop of the machine. -/
  | illegalCommand (w : Word)
  /-- Fewer than four bytes: no command word (R80). Raised by `decodeBytes` only; the machine is always given a whole
  word. Safe. -/
  | truncated
  deriving DecidableEq, Repr

/-- Field FAM, bits 7:4 (R81). -/
def fieldFam (w : Word) : BitVec 4 := w.extractLsb' 4 4

/-- Field MOD, bit 1 (R81). -/
def fieldMod (w : Word) : Bool := w.getLsbD 1

/-- Field DIR, bit 0 (R81). -/
def fieldDir (w : Word) : Bool := w.getLsbD 0

/-- Fields ZERO, bits 31:8, and ZERO2, bits 3:2, must be 0 (R81). -/
def zeroFieldsClear (w : Word) : Bool := w.extractLsb' 8 24 == 0#24 && w.extractLsb' 2 2 == 0#2

/-- The command of a family, modifier and direction (R81); `none` for the combinations R85 lists as illegal. -/
def decodeFields (fam : BitVec 4) (md dir : Bool) : Option Instr :=
  match fam.toNat, md, dir with
  | 1, false, false => some .pack
  | 1, false, true => some .unpack
  | 1, true, false => some .packL
  | 1, true, true => some .unpackL
  | 2, false, false => some .xxenc
  | 2, false, true => some .xxdec
  | 3, false, false => some .bsenc
  | 3, false, true => some .bsdec
  | 4, false, false => some .chenc
  | 4, false, true => some .chdec
  | 5, false, false => some .keyldPad
  | 5, true, false => some .keyldRaw
  | _, _, _ => none

/-- Decoding of a command word: total, and a function of the word alone (R82). -/
def decode (w : Word) : Except DecodeError Instr :=
  if zeroFieldsClear w then
    match decodeFields (fieldFam w) (fieldMod w) (fieldDir w) with
    | some i => .ok i
    | none => .error (.illegalCommand w)
  else .error (.illegalCommand w)

/-- Decoding of a byte string: the first four bytes are the command word, little-endian (R50; DEDUCED, log 16), and
the rest is handed back. -/
def decodeBytes : List Byte → Except DecodeError (Instr × List Byte)
  | b0 :: b1 :: b2 :: b3 :: rest =>
    match decode (Machine.leWord b0 b1 b2 b3) with
    | .ok i => .ok (i, rest)
    | .error e => .error e
  | _ => .error .truncated

/-- The command word of an instruction, as the opcode map lists it (R83). -/
def encode : Instr → Word
  | .pack => 0x00000010
  | .unpack => 0x00000011
  | .packL => 0x00000012
  | .unpackL => 0x00000013
  | .xxenc => 0x00000020
  | .xxdec => 0x00000021
  | .bsenc => 0x00000030
  | .bsdec => 0x00000031
  | .chenc => 0x00000040
  | .chdec => 0x00000041
  | .keyldPad => 0x00000050
  | .keyldRaw => 0x00000052

/-- The bytes of an instruction's command word, in storing order (R50). -/
def encodeBytes (i : Instr) : List Byte := Machine.leBytes (encode i)

/-- The word an opcode-table row's bits give, every bit from `nbits` up being 0. -/
def tableWord (nbits w : Nat) : Word := BitVec.ofNat 32 (w % 2 ^ nbits)

/-- The instruction the decoder reads from an opcode-table row's bits. -/
def decodeTableWord (nbits w : Nat) : Option Instr :=
  match decodeBytes (Machine.leBytes (tableWord nbits w)) with
  | .ok (i, _) => some i
  | .error _ => none

end Sys2Proof
end

