-- ==== Sys2Proof/Config.lean ====
section
/-! DEFINITION. What an implementation fixes (the parameters of spec/00_scope.md R9) and the free values (what the spec
leaves open: contents of unwritten buffer elements, 93 U6; the hidden working state after a command, 93 U10). -/

namespace Sys2Proof

/-- The parameters the spec leaves open (R9, 92 D3, D4). `WCAP` is fixed by formula. -/
structure Params where
  /-- `BCAP`, bytes in the byte buffer. -/
  bcap : Nat
  /-- `KCAP`, bytes in the key staging buffer. -/
  kcap : Nat
  /-- `NLANES`, super-blocks processed at once; no effect on any result (R167). -/
  nlanes : Nat
  deriving DecidableEq, Repr

/-- `WCAP = BCAP/4 + 1` (R9). -/
def Params.wcap (p : Params) : Nat := p.bcap / 4 + 1

/-- The suggested capacities of R9. DESIGN CHOICE: only the state after reset is built with them, and one lane is
taken where R9 suggests nothing (log 5). -/
def Params.suggested : Params := ⟨4096, 32, 1⟩

/-- The hidden working registers of spec/10_state.md R32 (the document's CipherState). R32 gives `sum`, `e` and
`prevOut` a width and the other indices and counts none. -/
structure Hidden where
  /-- `V[0..15]`, the working file CHENC and CHDEC load one window or sub-block into. -/
  v : Vector Word 16
  /-- the accumulator -/
  sum : Word
  /-- the key selector, 2 bits -/
  e : BitVec 2
  /-- the word index -/
  p : Nat
  /-- the sweep counter -/
  rnd : Nat
  /-- the previous-output byte -/
  prevOut : Byte
  /-- the block offset -/
  off : Nat
  /-- the remaining tail length -/
  tail : Nat
  /-- the sub-block word count -/
  sub : Nat
  deriving DecidableEq, Repr, Inhabited

/-- DESIGN CHOICE: the hidden registers right after reset; R32 leaves them unspecified and unobservable (log 4). -/
def Hidden.zero : Hidden := ⟨Vector.replicate 16 0, 0, 0, 0, 0, 0, 0, 0, 0⟩

/-- Free value: what byte `i` of `B` holds after reset number `epoch` until it is written (R22, 93 U6; log 3). -/
opaque Config.unwrittenB (epoch i : Nat) : Byte

/-- Free value: what word `j` of `W` holds after reset number `epoch` until it is written (R20, 93 U6; log 3). -/
opaque Config.unwrittenW (epoch j : Nat) : Word

/-- Free value: what byte `i` of `KIN` holds after reset number `epoch` until it is written (R26, 93 U6; log 3). -/
opaque Config.unwrittenKin (epoch i : Nat) : Byte

/-- Free value: what successful command number `n` leaves in the hidden registers (R32, R34, 93 U10; log 4). -/
opaque Config.hiddenAfter (n : Nat) : Hidden

end Sys2Proof
end

