-- ==== Sys2Proof/Machine/State.lean ====
section
/-! DEFINITION. The state of the machine (spec/10_state.md), the engine's fault causes (spec/60_exceptions.md R200), the
host's actions (spec/70_reset_and_hazards.md R235; spec/30_encoding.md R87) and the state after reset (R35). -/

namespace Sys2Proof.Machine

/-- The five fault causes of R200. A command that meets one COMPLETES, in a next state with the cause's code in
`STATUS.ERR` (R204): these are not stops of the machine. -/
inductive EngineFault
  /-- code 1, R205 -/
  | invalidKeyLength
  /-- code 2, R206 -/
  | corruptLengthHeader
  /-- code 3, R202 -/
  | allocationFailure
  /-- code 4, R203 -/
  | keyTooShort
  /-- code 5, R201 -/
  | illegalCommand
  deriving DecidableEq, Repr

/-- Why the machine stops with a fault. No command ever raises one. -/
inductive Fault
  /-- The host accesses an offset of the window that R60 does not list: "A model gives a host access to a reserved
  offset no meaning" (R61, 93 U8). Raised by a script's read or write line. Safe (log 6). -/
  | reservedOffset (offset : BitVec 18)
  deriving DecidableEq, Repr

/-- Why the machine gives no meaning to what it is asked to do. -/
inductive Refusal
  /-- An instruction without a meaning; raised by no arm of `exec`, every instruction having one. Safe. -/
  | notModelled (mnemonic : String)
  /-- The host uses a width or alignment R55 does not list: "a model gives it no meaning" (R55, 93 U9). Raised by a
  script's read or write line. Safe (log 7). -/
  | unlistedAccess (offset : BitVec 18)
  /-- The host accesses anything but `STATUS` while `BUSY = 1`, a `CMD` write among them: "a model gives it no
  meaning" (R66, R30, 93 U5, U12). Raised by a script's read or write line, in no state a run from reset reaches.
  Safe (log 8). -/
  | accessWhileBusy
  /-- After a `CMD` write, and before it has read `DONE = 1`, the host accesses anything but `STATUS`: "must not" (R240),
  and such a script "has no meaning in the model" (R236, 93 U5). Raised by a script's read or write line. Safe
  (log 19). -/
  | accessBeforeDone
  /-- A `BERR` line branches to a label that is not in the script, so R87 names no place to continue at. Raised by a
  script's BERR line. Safe (log 12). -/
  | undefinedLabel (label : Nat)
  deriving DecidableEq, Repr

/-- The width of a host access (R55). -/
inductive Width
  /-- 8 bits -/
  | byte
  /-- 16 bits: listed for nothing (R55) -/
  | half
  /-- 32 bits -/
  | word
  deriving DecidableEq, Repr

/-- One line of a host script: the four kinds of action of R235 (a `CMD` write is a write to offset 0) and the
host's own control of R87. Offsets are those of the 256 KiB window (R60). -/
inductive HostLine
  /-- a write to the window; a write narrower than 32 bits carries the low bits of `value` (log 10) -/
  | write (width : Width) (offset : BitVec 18) (value : Word)
  /-- a read of the window -/
  | read (width : Width) (offset : BitVec 18)
  /-- the reset input (R230) -/
  | reset
  /-- `BERR label`: read `STATUS`; if `ERR != 0` continue at the label (R87) -/
  | berr (label : Nat)
  /-- `label:`, a place in the script (R87) -/
  | label (name : Nat)
  /-- `END`: the script stops (R87) -/
  | stop
  deriving DecidableEq, Repr

/-- A buffer: (index, element) pairs with strictly rising indices; an index that is not listed has never been written
since the last reset and holds no listed value (93 U6; `Memory.wf`, log 3). -/
abbrev Memory (n : Nat) := List (Nat × BitVec n)

/-- The machine's state: every piece of state of spec/10_state.md, then the model's own fields. -/
structure State where
  /-- `BCAP`, `KCAP`, `NLANES`, which `BCAPR`, `WCAPR`, `KCAPR` show (R9, R31) -/
  params : Params
  /-- `W` (R20) -/
  w : Memory 32
  /-- `WCNT` (R21) -/
  wcnt : Word
  /-- `B` (R22) -/
  b : List Host.Cell
  /-- `BLEN` (R23) -/
  blen : Word
  /-- `K` (R24) -/
  k : Key
  /-- `KEYV`, also `STATUS[2]` (R25) -/
  keyv : Bool
  /-- `KIN` (R26) -/
  kin : List Host.Cell
  /-- `KLEN` (R26) -/
  klen : Word
  /-- `STATUS[0]`, BUSY (R28) -/
  busy : Bool
  /-- `STATUS[1]`, DONE (R28) -/
  done : Bool
  /-- `STATUS[11:8]`, ERR (R28) -/
  err : BitVec 4
  /-- the hidden working state (R32) -/
  hidden : Hidden
  /-- the model's own: how many resets have happened, selecting the unwritten buffers' free values (log 3) -/
  epoch : Nat
  /-- the model's own: how many commands have succeeded, selecting the hidden state's free value (log 4) -/
  finished : Nat
  /-- the model's own: the host's script, the machine's input (log 1) -/
  script : List HostLine
  /-- the model's own: the script line the host performs next (log 1) -/
  pos : Nat
  /-- the model's own: what the host's most recent read returned (log 2) -/
  readData : Word
  /-- the model's own: the host has written `CMD` and has not read `DONE = 1` since (R240, log 19) -/
  awaiting : Bool
  deriving DecidableEq, Repr

/-- The engine's state when reset is released, for given parameters and a given number of resets before it (R35,
R230); the script is empty. -/
def State.afterReset (p : Params) (epoch : Nat) : State where
  params := p
  w := []
  wcnt := 0
  b := []
  blen := 0
  k := Vector.replicate 16 0
  keyv := false
  kin := []
  klen := 0
  busy := false
  done := false
  err := 0
  hidden := Hidden.zero
  epoch := epoch
  finished := 0
  script := []
  pos := 0
  readData := 0
  awaiting := false

/-- The machine right after reset (R35), with the suggested parameters (log 5) and no host script (log 1). -/
def State.reset : State := State.afterReset Params.suggested 0

end Sys2Proof.Machine
end

