-- ==== Sys2Proof/Machine/Flags.lean ====
section
/-! DEFINITION. The status register (spec/10_state.md R28) and the fault codes (spec/60_exceptions.md R200). These are
the engine's only flags: no arithmetic result sets any (R28). -/

namespace Sys2Proof.Machine

/-- The code of a fault cause (R200); 0 is success and 6 to 15 are unused. -/
def EngineFault.code : EngineFault → BitVec 4
  | .invalidKeyLength => 1
  | .corruptLengthHeader => 2
  | .allocationFailure => 3
  | .keyTooShort => 4
  | .illegalCommand => 5

/-- The `STATUS` register from its fields: bits 31:12 and 7:3 read as 0, ERR is bits 11:8, KEYV bit 2, DONE bit 1,
BUSY bit 0 (R28). -/
def statusWord (busy done keyv : Bool) (err : BitVec 4) : Word :=
  0#20 ++ err ++ 0#5 ++ BitVec.ofBool keyv ++ BitVec.ofBool done ++ BitVec.ofBool busy

/-- `STATUS` as the host reads it (R28). -/
def State.status (s : State) : Word := statusWord s.busy s.done s.keyv s.err

end Sys2Proof.Machine
end

