-- ==== Sys2Proof/Machine/Ops.lean ====
section
/-! DEFINITION. The operations over buffers, and the life of a command: acceptance, success, and taking a fault
(spec/10_state.md R29; spec/60_exceptions.md R204). -/

namespace Sys2Proof.Machine

/-- The listed element at an index; `none` where nothing has been written since the last reset (log 3). -/
def Memory.get? {n : Nat} : Memory n → Nat → Option (BitVec n)
  | [], _ => none
  | (a, v) :: m, i => if i = a then some v else Memory.get? m i

/-- Write one element, keeping the indices strictly rising. -/
def Memory.put {n : Nat} : Memory n → Nat → BitVec n → Memory n
  | [], i, v => [(i, v)]
  | (a, u) :: m, i, v =>
    if i < a then (i, v) :: (a, u) :: m
    else if i = a then (i, v) :: m
    else (a, u) :: Memory.put m i v

/-- Write consecutive elements from index `i` up, in order. -/
def Memory.putRange {n : Nat} : Memory n → Nat → List (BitVec n) → Memory n
  | m, _, [] => m
  | m, i, v :: vs => Memory.putRange (Memory.put m i v) (i + 1) vs

/-- Indices strictly rising from `lo`, all below `cap`. -/
def Memory.wfFrom {n : Nat} : Nat → Nat → Memory n → Bool
  | _, _, [] => true
  | lo, cap, (a, _) :: m => decide (lo ≤ a) && decide (a < cap) && Memory.wfFrom (a + 1) cap m

/-- The canonical form of a buffer of `cap` elements: indices strictly rising and below the capacity. What an
unlisted index reads as is no value at all, so no entry can repeat it. -/
def Memory.wf {n : Nat} (cap : Nat) (m : Memory n) : Bool := Memory.wfFrom 0 cap m

/-- The host moves on to its next script line. -/
def State.advance (s : State) : State := { s with pos := s.pos + 1 }

/-- The host reads `STATUS`: it has the word (log 2), and a word that shows `DONE = 1` ends its wait (R240, log 19). -/
def State.readStatus (s : State) : State := { s with readData := s.status, awaiting := s.awaiting && !s.done }

/-- The host has written `CMD` and waits to read `DONE = 1` (R240, log 19). -/
def State.await (s : State) : State := { s with awaiting := true }

/-- Acceptance of a command: `BUSY <- 1`, `DONE <- 0`, `ERR <- 0` (R29). -/
def State.accept (s : State) : State := { s with busy := true, done := false, err := 0 }

/-- Completion of a command: `BUSY <- 0`, `DONE <- 1`, `ERR <- code` (R29). -/
def State.complete (code : BitVec 4) (s : State) : State := { s with busy := false, done := true, err := code }

/-- A command may leave anything in the hidden registers (R32, R34): their next free value (log 4). -/
def State.spendHidden (s : State) : State :=
  { s with hidden := Config.hiddenAfter s.finished, finished := s.finished + 1 }

/-- A command completes successfully, in state `s` but for `STATUS` (code 0, R200) and the hidden registers (R32). -/
def succeed (s : State) : Host.Outcome State Fault Refusal := .next (s.spendHidden.complete 0)

/-- Taking a fault, the engine's one form of exception (R204): ERR gets the code, DONE 1, BUSY 0, and nothing else
changes. No state is saved, no mode changes and control goes nowhere; there is no return from a fault either: the
engine is idle again and accepts the next command (R204, R209). -/
def raise (f : EngineFault) (s : State) : Host.Outcome State Fault Refusal := .next (s.complete f.code)

/-- Load the key register: `K <- key`, `KEYV <- 1` (R180, R182). No other operation writes either (R24, R25). -/
def State.loadKey (key : Key) (s : State) : State := { s with k := key, keyv := true }

/-- Put words at the front of `W`; words further on keep their value (R102). -/
def State.putWords (ws : List Word) (s : State) : State := { s with w := Memory.putRange s.w 0 ws }

/-- Put bytes at the front of `B`; bytes further on keep their value (R108). -/
def State.putBytes (bs : List Byte) (s : State) : State := { s with b := Memory.putRange s.b 0 bs }

/-- Set `WCNT`. -/
def State.setWcnt (n : Nat) (s : State) : State := { s with wcnt := BitVec.ofNat 32 n }

/-- Set `BLEN`. -/
def State.setBlen (n : Nat) (s : State) : State := { s with blen := BitVec.ofNat 32 n }

/-- Reset (R230, R231): every register at its reset value, every buffer element unspecified anew. The parameters are
the hardware's and stay; the host's script, its position and the last value it read are the host's and stay (log 11). No
command is left to wait for (log 19). -/
def State.resetEngine (s : State) : State :=
  { State.afterReset s.params (s.epoch + 1) with
    finished := s.finished, script := s.script, pos := s.pos, readData := s.readData }

end Sys2Proof.Machine
end

