-- ==== Sys2Proof/Machine/Operands.lean ====
section
/-! DEFINITION. How commands reach their operands. All operands are implicit (spec/30_encoding.md R84): a buffer from
index 0, with the length in `BLEN`, `WCNT` or `KLEN`; the key as bytes and as words (spec/10_state.md R24); and, inside
CHENC and CHDEC, a region at a computed byte offset (spec/43_chunked_engine.md R161). -/

namespace Sys2Proof.Machine

/-- `B[i]` (R22). -/
def State.readB (s : State) (i : Nat) : Byte := (Memory.get? s.b i).getD (Config.unwrittenB s.epoch i)

/-- `W[j]` (R20). -/
def State.readW (s : State) (j : Nat) : Word := (Memory.get? s.w j).getD (Config.unwrittenW s.epoch j)

/-- `KIN[i]` (R26). -/
def State.readKin (s : State) (i : Nat) : Byte := (Memory.get? s.kin i).getD (Config.unwrittenKin s.epoch i)

/-- `K[i mod 16]`, the byte view of a key (R24). -/
def Key.byte (k : Key) (i : Nat) : Byte := k[i % 16]'(Nat.mod_lt i (by decide))

/-- `KW[j]`, the word view: the little-endian word at byte index `4j` (R24, R52). -/
def Key.word (k : Key) (j : BitVec 2) : Word :=
  leWord (Key.byte k (4 * j.toNat)) (Key.byte k (4 * j.toNat + 1)) (Key.byte k (4 * j.toNat + 2))
    (Key.byte k (4 * j.toNat + 3))

/-- `KW[j]` of the key register (R24). -/
def State.kw (s : State) (j : BitVec 2) : Word := Key.word s.k j

/-- `BCAPR` (R31). -/
def State.bcapr (s : State) : Word := BitVec.ofNat 32 s.params.bcap

/-- `WCAPR` (R31). -/
def State.wcapr (s : State) : Word := BitVec.ofNat 32 s.params.wcap

/-- `KCAPR` (R31). -/
def State.kcapr (s : State) : Word := BitVec.ofNat 32 s.params.kcap

/-- The byte operand `B[0..BLEN-1]` (R84). -/
def State.bytes (s : State) : List Byte := (List.range s.blen.toNat).map s.readB

/-- The word operand `W[0..WCNT-1]` (R84). -/
def State.words (s : State) : List Word := (List.range s.wcnt.toNat).map s.readW

/-- The capacity check `BLEN <= BCAP` (R202). -/
def State.blenFits (s : State) : Bool := decide (s.blen.toNat ≤ s.params.bcap)

/-- The capacity check `WCNT <= WCAP` (R202). -/
def State.wcntFits (s : State) : Bool := decide (s.wcnt.toNat ≤ s.params.wcap)

/-- The capacity check `KLEN <= KCAP` (R185, R202). -/
def State.klenFits (s : State) : Bool := decide (s.klen.toNat ≤ s.params.kcap)

/-- The admission of a cipher command (R123, R145, R162): first the capacity check, then the key-valid check, both
before any write (R208, R248). -/
def cipherAdmission (fits : State → Bool) (body : State → State) (s : State) : Host.Outcome State Fault Refusal :=
  if fits s = false then raise .allocationFailure s
  else if s.keyv = false then raise .keyTooShort s
  else succeed (body s)

/-- The words of a byte string, `ceil(len/4)` of them, the missing high bytes of the last one 0 (R100). -/
def packWords (bs : List Byte) : List Word :=
  (List.range ((bs.length + 3) / 4)).map fun j =>
    leWord (bs.getD (4 * j) 0) (bs.getD (4 * j + 1) 0) (bs.getD (4 * j + 2) 0) (bs.getD (4 * j + 3) 0)

/-- The bytes of a word string, four a word (R103). -/
def unpackWords (ws : List Word) : List Byte := ws.flatMap leBytes

/-- Apply a transformation in place to the `len` bytes at offset `off` (R161). -/
def onRegion (off len : Nat) (f : List Byte → List Byte) (bs : List Byte) : List Byte :=
  bs.take off ++ f ((bs.drop off).take len) ++ bs.drop (off + len)

/-- The partition of a buffer of `len` bytes (R160). -/
structure Partition where
  fullBlocks : Nat
  tail0 : Nat
  subWords : Nat
  subLen : Nat
  tailLen : Nat
  deriving DecidableEq, Repr

/-- The quantities of R160. -/
def partition (len : Nat) : Partition :=
  let tail0 := len % 64
  let subWords := tail0 / 4
  let subLen := if 1 < subWords then 4 * subWords else 0
  ⟨len / 64, tail0, subWords, subLen, tail0 - subLen⟩

end Sys2Proof.Machine
end

