-- ==== Sys2Proof/Machine/ByteStream.lean ====
section
/-! DEFINITION. ByteStreamCipher: the commands BSENC, BSDEC (spec/42_bytestream.md). -/

namespace Sys2Proof.Machine

/-- The additive key byte of position `i`, `K[i mod 16] >> 2` (R140, R144). -/
def addKey (key : Key) (i : Nat) : Byte := Key.byte key i >>> 2

/-- The rotated key byte of position `i` in a span of length `len`: `rotl8(K[15 - (i mod 16)], (prevOut + L - i) mod 7)`,
the sum on integers with no 8-bit wrap (R140, R141). -/
def rotKey (key : Key) (len i : Nat) (prevOut : Byte) : Byte :=
  rotl8 (Key.byte key (15 - i % 16)) ((prevOut.toNat + len - i) % 7)

/-- The output-rotation amount, `(255 - prevOut) mod 7` (R142). -/
def outRotation (prevOut : Byte) : Nat := (255 - prevOut.toNat) % 7

/-- One position of encryption, steps 1 to 3 (R144). -/
def encByte (key : Key) (len i : Nat) (prevOut b : Byte) : Byte :=
  rotr8 ((b + addKey key i) ^^^ rotKey key len i prevOut) (outRotation prevOut)

/-- One position of decryption, the inverses of steps 3, 2, 1 (R146). -/
def decByte (key : Key) (len i : Nat) (prevOut c : Byte) : Byte :=
  (rotl8 c (outRotation prevOut) ^^^ rotKey key len i prevOut) - addKey key i

/-- Encryption from position `i` on; `prevOut` becomes the ciphertext byte just written (R143, R144). -/
def encFrom (key : Key) (len : Nat) : Nat → Byte → List Byte → List Byte
  | _, _, [] => []
  | i, prevOut, b :: bs =>
    encByte key len i prevOut b :: encFrom key len (i + 1) (encByte key len i prevOut b) bs

/-- Decryption from position `i` on; `prevOut` becomes the ciphertext byte captured before it is replaced (R143,
R146). -/
def decFrom (key : Key) (len : Nat) : Nat → Byte → List Byte → List Byte
  | _, _, [] => []
  | i, prevOut, c :: cs => decByte key len i prevOut c :: decFrom key len (i + 1) c cs

/-- Encryption of a span; the chain starts at 0 (R143, R144). -/
def encSpan (key : Key) (bs : List Byte) : List Byte := encFrom key bs.length 0 0 bs

/-- Decryption of a span; the chain starts at 0 (R143, R146). -/
def decSpan (key : Key) (bs : List Byte) : List Byte := decFrom key bs.length 0 0 bs

/-- BSENC (R144, R145): the span is `B[0..BLEN-1]`. -/
def execBsenc (s : State) : Host.Outcome State Fault Refusal :=
  cipherAdmission State.blenFits (fun t => t.putBytes (encSpan t.k t.bytes)) s

/-- BSDEC (R145, R146). -/
def execBsdec (s : State) : Host.Outcome State Fault Refusal :=
  cipherAdmission State.blenFits (fun t => t.putBytes (decSpan t.k t.bytes)) s

end Sys2Proof.Machine
end

