-- ==== Sys2Proof/Machine/XXTeaCore.lean ====
section
/-! DEFINITION. XXTeaCore: the mixing function MX and the commands XXENC, XXDEC (spec/41_xxtea_core.md). -/

namespace Sys2Proof.Machine

/-- DELTA, the step of the accumulator (R8). -/
def delta : Word := 0x9E3779B9

/-- The mixing function (R120). The key index is the exclusive or of two 2-bit numbers, so it is in range. -/
def mx (kw : BitVec 2 → Word) (z y sum : Word) (p : Nat) (e : BitVec 2) : Word :=
  let t1 := (z >>> 5) ^^^ (y <<< 2)
  let t2 := (y >>> 3) ^^^ (z <<< 4)
  let t3 := sum ^^^ y
  let t4 := kw (BitVec.ofNat 2 p ^^^ e) ^^^ z
  (t1 + t2) ^^^ (t3 + t4)

/-- `rounds(n) = 6 + floor(52/n)` (R121). -/
def rounds (n : Nat) : Nat := 6 + 52 / n

/-- The selector `e = (sum >> 2) & 3` (R124, R126). -/
def selector (sum : Word) : BitVec 2 := sum.extractLsb' 2 2

/-- MX at word `p` of a block, from the words the block holds at this moment: `z` is the circular predecessor, `y` the
circular successor (R122). -/
def mxAt (kw : BitVec 2 → Word) (sum : Word) (ws : List Word) (p : Nat) : Word :=
  let n := ws.length
  mx kw (ws.getD ((p + n - 1) % n) 0) (ws.getD ((p + 1) % n) 0) sum p (selector sum)

/-- One update of encryption, `W[p] <- W[p] + MX` (R124). -/
def encWord (kw : BitVec 2 → Word) (sum : Word) (ws : List Word) (p : Nat) : List Word :=
  ws.set p (ws.getD p 0 + mxAt kw sum ws p)

/-- One update of decryption, `W[p] <- W[p] - MX` (R126). -/
def decWord (kw : BitVec 2 → Word) (sum : Word) (ws : List Word) (p : Nat) : List Word :=
  ws.set p (ws.getD p 0 - mxAt kw sum ws p)

/-- One forward sweep, `p = 0, 1, ..., n-1` (R124). -/
def encSweep (kw : BitVec 2 → Word) (sum : Word) (ws : List Word) : List Word :=
  (List.range ws.length).foldl (encWord kw sum) ws

/-- One backward sweep, `p = n-1, ..., 1, 0` (R126). -/
def decSweep (kw : BitVec 2 → Word) (sum : Word) (ws : List Word) : List Word :=
  (List.range ws.length).reverse.foldl (decWord kw sum) ws

/-- The given number of forward sweeps; `sum` is stepped before each (R125). -/
def encSweeps (kw : BitVec 2 → Word) : Nat → Word → List Word → List Word
  | 0, _, ws => ws
  | r + 1, sum, ws => encSweeps kw r (sum + delta) (encSweep kw (sum + delta) ws)

/-- The given number of backward sweeps; `sum` is stepped after each (R125). -/
def decSweeps (kw : BitVec 2 → Word) : Nat → Word → List Word → List Word
  | 0, _, ws => ws
  | r + 1, sum, ws => decSweeps kw r (sum - delta) (decSweep kw sum ws)

/-- `encryptWords` on a block of at least two words (R124). -/
def encryptWords (kw : BitVec 2 → Word) (ws : List Word) : List Word :=
  encSweeps kw (rounds ws.length) 0 ws

/-- `decryptWords` on a block of at least two words (R126): `sum` starts at `rounds(n) * DELTA`. -/
def decryptWords (kw : BitVec 2 → Word) (ws : List Word) : List Word :=
  decSweeps kw (rounds ws.length) (BitVec.ofNat 32 (rounds ws.length) * delta) ws

/-- A block command on `W[0..WCNT-1]` in place; fewer than two words are a defined no-op (R123). -/
def State.permuteWords (perm : (BitVec 2 → Word) → List Word → List Word) (s : State) : State :=
  if s.wcnt.toNat < 2 then s else s.putWords (perm s.kw s.words)

/-- XXENC (R123, R124). -/
def execXxenc (s : State) : Host.Outcome State Fault Refusal :=
  cipherAdmission State.wcntFits (State.permuteWords encryptWords) s

/-- XXDEC (R123, R126). -/
def execXxdec (s : State) : Host.Outcome State Fault Refusal :=
  cipherAdmission State.wcntFits (State.permuteWords decryptWords) s

end Sys2Proof.Machine
end

