-- ==== Sys2Proof/Machine/Chunked.lean ====
section
/-! DEFINITION. ChunkedCipherEngine: the commands CHENC, CHDEC (spec/43_chunked_engine.md). The stages run in ascending
address order, which R167 allows and makes unobservable (log 15). -/

namespace Sys2Proof.Machine

/-- A word stage over `n` words at byte offset `off`: load little-endian, permute, store (R161). -/
def wordStage (perm : List Word → List Word) (off n : Nat) (bs : List Byte) : List Byte :=
  onRegion off (4 * n) (fun region => unpackWords (perm (packWords region))) bs

/-- Step 2 of R163: the permutation with `n = 16` on each 64-byte window. -/
def windowStages (perm : List Word → List Word) (fullBlocks : Nat) (bs : List Byte) : List Byte :=
  (List.range fullBlocks).foldl (fun acc k => wordStage perm (64 * k) 16 acc) bs

/-- Step 4 of R163: the permutation on the word sub-block, when it has more than one word. -/
def subBlockStage (perm : List Word → List Word) (p : Partition) (bs : List Byte) : List Byte :=
  if 1 < p.subWords then wordStage perm (64 * p.fullBlocks) p.subWords bs else bs

/-- Step 5 of R163: the byte cipher on the byte tail, when there is one. -/
def tailStage (span : List Byte → List Byte) (p : Partition) (bs : List Byte) : List Byte :=
  if p.tailLen ≠ 0 then onRegion (64 * p.fullBlocks + p.subLen) p.tailLen span bs else bs

/-- `transform`: the stages of R163, R164 on a whole buffer, with one direction's permutation and byte cipher. -/
def transform (perm : List Word → List Word) (span : List Byte → List Byte) (bs : List Byte) : List Byte :=
  let p := partition bs.length
  tailStage span p (subBlockStage perm p (windowStages perm p.fullBlocks bs))

/-- CHENC (R162, R163). -/
def execChenc (s : State) : Host.Outcome State Fault Refusal :=
  cipherAdmission State.blenFits
    (fun t => t.putBytes (transform (encryptWords t.kw) (encSpan t.k) t.bytes)) s

/-- CHDEC (R162, R164). -/
def execChdec (s : State) : Host.Outcome State Fault Refusal :=
  cipherAdmission State.blenFits
    (fun t => t.putBytes (transform (decryptWords t.kw) (decSpan t.k) t.bytes)) s

end Sys2Proof.Machine
end

