-- ==== Sys2Proof/Machine/KeyNormalizer.lean ====
section
/-! DEFINITION. KeyNormalizer: the commands KEYLD.PAD, KEYLD.RAW (spec/44_keyload.md), the only way `K` and `KEYV`
change. -/

namespace Sys2Proof.Machine

/-- The end of the Padded input: the least index below `min(KLEN, 16)` whose staged byte is 0, or `min(KLEN, 16)` if
there is none (R181). -/
def padEnd (s : State) : Nat :=
  let m := min s.klen.toNat 16
  ((List.range m).find? fun i => s.readKin i == 0).getD m

/-- The key of the Padded policy: the staged bytes up to the end, then zeros (R180). -/
def padKey (s : State) : Key := Vector.ofFn fun i => if i.val < padEnd s then s.readKin i.val else 0

/-- The key of the Raw policy: the first 16 staged bytes as they stand (R182, R183). -/
def rawKey (s : State) : Key := Vector.ofFn fun i => s.readKin i.val

/-- KEYLD.PAD (R180, R185). -/
def execKeyldPad (s : State) : Host.Outcome State Fault Refusal :=
  if s.klenFits = false then raise .allocationFailure s
  else succeed (s.loadKey (padKey s))

/-- KEYLD.RAW (R182, R185): capacity, then the modulus, then the length (R208). -/
def execKeyldRaw (s : State) : Host.Outcome State Fault Refusal :=
  if s.klenFits = false then raise .allocationFailure s
  else if s.klen.toNat % 8 ≠ 0 then raise .invalidKeyLength s
  else if s.klen.toNat < 16 then raise .keyTooShort s
  else succeed (s.loadKey (rawKey s))

end Sys2Proof.Machine
end

