-- ==== Sys2Proof/Machine/WordCodec.lean ====
section
/-! DEFINITION. WordCodec: PACK, PACK.L, UNPACK, UNPACK.L (spec/40_wordcodec.md). None of them reads the key (R107). -/

namespace Sys2Proof.Machine

/-- Write a packed word string and its count (R100, R101). -/
def State.storeWords (ws : List Word) (s : State) : State := (s.putWords ws).setWcnt ws.length

/-- Write an unpacked byte string and its length (R103, R104). -/
def State.storeBytes (bs : List Byte) (s : State) : State := (s.putBytes bs).setBlen bs.length

/-- PACK (R100). -/
def execPack (s : State) : Host.Outcome State Fault Refusal :=
  if s.blenFits = false then raise .allocationFailure s
  else succeed (s.storeWords (packWords s.bytes))

/-- PACK.L (R101): as PACK, then one word holding the byte length. -/
def execPackL (s : State) : Host.Outcome State Fault Refusal :=
  if s.blenFits = false then raise .allocationFailure s
  else succeed (s.storeWords (packWords s.bytes ++ [s.blen]))

/-- UNPACK (R103). -/
def execUnpack (s : State) : Host.Outcome State Fault Refusal :=
  if s.wcntFits = false then raise .allocationFailure s
  else if s.params.bcap < 4 * s.wcnt.toNat then raise .allocationFailure s
  else succeed (s.storeBytes (unpackWords s.words))

/-- The header bound of UNPACK.L, on mathematical integers (R104, R105): `m - 3 <= len <= m` for `m = 4*(wcnt - 1)`,
`wcnt` not 0. -/
def headerOk (wcnt len : Nat) : Bool :=
  let m : Int := 4 * ((wcnt : Int) - 1)
  decide (m - 3 ≤ (len : Int)) && decide ((len : Int) ≤ m)

/-- UNPACK.L (R104): the last word is the declared byte length. -/
def execUnpackL (s : State) : Host.Outcome State Fault Refusal :=
  if s.wcntFits = false then raise .allocationFailure s
  else if s.wcnt.toNat = 0 then raise .corruptLengthHeader s
  else
    let len := (s.readW (s.wcnt.toNat - 1)).toNat
    if headerOk s.wcnt.toNat len = false then raise .corruptLengthHeader s
    else succeed (s.storeBytes ((unpackWords s.words).take len))

end Sys2Proof.Machine
end

