-- ==== Sys2Proof/Machine/Dispatch.lean ====
section
/-! DEFINITION. Which meaning each command has (spec/30_encoding.md R83). -/

namespace Sys2Proof.Machine

/-- The execution of an accepted command, up to its completion (R7, R29). -/
def exec (i : Instr) (s : State) : Host.Outcome State Fault Refusal :=
  match i with
  | .pack => Sys2Proof.Machine.execPack s
  | .unpack => Sys2Proof.Machine.execUnpack s
  | .packL => Sys2Proof.Machine.execPackL s
  | .unpackL => Sys2Proof.Machine.execUnpackL s
  | .xxenc => Sys2Proof.Machine.execXxenc s
  | .xxdec => Sys2Proof.Machine.execXxdec s
  | .bsenc => Sys2Proof.Machine.execBsenc s
  | .bsdec => Sys2Proof.Machine.execBsdec s
  | .chenc => Sys2Proof.Machine.execChenc s
  | .chdec => Sys2Proof.Machine.execChdec s
  | .keyldPad => Sys2Proof.Machine.execKeyldPad s
  | .keyldRaw => Sys2Proof.Machine.execKeyldRaw s

end Sys2Proof.Machine
end

