-- ==== Sys2Proof/Machine/HostAccess.lean ====
section
/-! DEFINITION. The host's side of the machine: the address map of the register window (spec/20_memory.md R55, R60,
R61), what a read returns and a write does (R58), the write to `CMD` (spec/10_state.md R30) and the lines of a host
script (spec/30_encoding.md R87). -/

namespace Sys2Proof.Machine

/-- A place of the window (the rows of R60). -/
inductive Loc
  | cmd | status | blen | wcnt | klen | bcapr | wcapr | kcapr
  /-- `KW[j]` -/
  | kw (j : BitVec 2)
  /-- `KIN` from byte `i` -/
  | kin (i : Nat)
  /-- `B` from byte `i` -/
  | b (i : Nat)
  /-- `W[j]` -/
  | w (j : Nat)
  deriving DecidableEq, Repr

/-- What an access of a given width and offset names. -/
inductive Resolved
  /-- a place of the window, by a listed access -/
  | loc (l : Loc)
  /-- a reserved offset (R61) -/
  | reserved
  /-- a place of the window, by an access R55 does not list -/
  | unlisted
  deriving DecidableEq, Repr

/-- The register at word offset `q`, that is at byte offset `4q`, for `q < 12` (R60). -/
def registerAt (q : Nat) : Loc :=
  match q with
  | 0 => .cmd
  | 1 => .status
  | 2 => .blen
  | 3 => .wcnt
  | 4 => .klen
  | 5 => .bcapr
  | 6 => .wcapr
  | 7 => .kcapr
  | q => .kw (BitVec.ofNat 2 (q - 8))

/-- A 32-bit access at a 4-aligned offset (R55). -/
def alignedWord (width : Width) (o : Nat) : Bool := width == .word && o % 4 == 0

/-- An 8-bit access, or a 32-bit one at a 4-aligned offset: what the `B` and `KIN` windows accept (R55). -/
def byteOrWord (width : Width) (o : Nat) : Bool := width == .byte || alignedWord width o

/-- The address map (R60) with the widths and alignments of R55. -/
def resolve (p : Params) (width : Width) (offset : BitVec 18) : Resolved :=
  let o := offset.toNat
  if o < 0x30 then
    if alignedWord width o then .loc (registerAt (o / 4)) else .unlisted
  else if 0x40 ≤ o ∧ o < 0x40 + p.kcap then
    if byteOrWord width o then .loc (.kin (o - 0x40)) else .unlisted
  else if 0x10000 ≤ o ∧ o < 0x10000 + p.bcap then
    if byteOrWord width o then .loc (.b (o - 0x10000)) else .unlisted
  else if 0x20000 ≤ o ∧ o < 0x20000 + 4 * p.wcap then
    if alignedWord width o then .loc (.w ((o - 0x20000) / 4)) else .unlisted
  else .reserved

/-- A byte space read at the width of the access: the byte zero-extended, or the little-endian word (R53; log 10). -/
def readSpace (width : Width) (read : Nat → Byte) (i : Nat) : Word :=
  match width with
  | .byte => (read i).setWidth 32
  | _ => leWord (read i) (read (i + 1)) (read (i + 2)) (read (i + 3))

/-- The bytes a write stores: the low byte, or the word's four bytes (R53; log 10). -/
def writtenBytes (width : Width) (v : Word) : List Byte :=
  match width with
  | .byte => [leByte v 0]
  | _ => leBytes v

/-- What a host read returns (R60); no read has a side effect (R58). -/
def readLoc (width : Width) (s : State) : Loc → Word
  | .cmd => 0
  | .status => s.status
  | .blen => s.blen
  | .wcnt => s.wcnt
  | .klen => s.klen
  | .bcapr => s.bcapr
  | .wcapr => s.wcapr
  | .kcapr => s.kcapr
  | .kw j => s.kw j
  | .kin i => readSpace width s.readKin i
  | .b i => readSpace width s.readB i
  | .w j => s.readW j

/-- The acceptance and execution of a word written to `CMD` (R30, R82): a word that is no command is accepted and
faults at once with IllegalCommand (R85, R201). -/
def issueCommand (v : Word) (s : State) : Host.Outcome State Fault Refusal :=
  match decode v with
  | .ok i => exec i s.accept
  | .error _ => raise .illegalCommand s.accept

/-- What a host write does: it stores (R58), does nothing to a read-only register (R28, R31; `KW`: log 9), or issues
a command, for whose end the host then waits (R240). -/
def writeLoc (width : Width) (v : Word) (s : State) : Loc → Host.Outcome State Fault Refusal
  | .cmd => issueCommand v s.await
  | .status => .next s
  | .blen => .next { s with blen := v }
  | .wcnt => .next { s with wcnt := v }
  | .klen => .next { s with klen := v }
  | .bcapr => .next s
  | .wcapr => .next s
  | .kcapr => .next s
  | .kw _ => .next s
  | .kin i => .next { s with kin := Memory.putRange s.kin i (writtenBytes width v) }
  | .b i => .next { s with b := Memory.putRange s.b i (writtenBytes width v) }
  | .w j => .next { s with w := Memory.put s.w j v }

/-- Why the host may now make no access but a read of `STATUS`, if it may not: a command is running (R66, R30), or the
host has not read `DONE = 1` since its `CMD` write (R240, log 19). -/
def State.barred (s : State) : Option Refusal :=
  if s.busy = true then some .accessWhileBusy else if s.awaiting = true then some .accessBeforeDone else none

/-- A read line: `STATUS` may be read at any time (R58, R236), anything else when nothing bars it (R66, R240). -/
def hostRead (width : Width) (offset : BitVec 18) (s : State) : Host.Outcome State Fault Refusal :=
  match resolve s.params width offset with
  | .loc l =>
    if l = .status then .next s.advance.readStatus
    else
      match s.barred with
      | some r => .refused r
      | none => .next { s.advance with readData := readLoc width s l }
  | .reserved => .fault (.reservedOffset offset)
  | .unlisted => .refused (.unlistedAccess offset)

/-- A write line: nothing may be written while something bars it (R66, R30, R240). -/
def hostWrite (width : Width) (offset : BitVec 18) (v : Word) (s : State) : Host.Outcome State Fault Refusal :=
  match resolve s.params width offset with
  | .loc l =>
    match s.barred with
    | some r => .refused r
    | none => writeLoc width v s.advance l
  | .reserved => .fault (.reservedOffset offset)
  | .unlisted => .refused (.unlistedAccess offset)

/-- The index of the first line of `lines` that is the given label, counted from `i` (log 12). -/
def labelFrom (name : Nat) : Nat → List HostLine → Option Nat
  | _, [] => none
  | i, line :: rest => if line = .label name then some i else labelFrom name (i + 1) rest

/-- A BERR line: the host reads `STATUS`; if `ERR != 0` it continues at the label (R87). -/
def hostBranch (name : Nat) (s : State) : Host.Outcome State Fault Refusal :=
  if s.err = 0 then .next s.advance.readStatus
  else
    match labelFrom name 0 s.script with
    | some k => .next { s.readStatus with pos := k }
    | none => .refused (.undefinedLabel name)

/-- The line the host performs next. -/
def fetchLine (s : State) : Option HostLine := s.script[s.pos]?

/-- What a script line does (R87, R235). -/
def runLine (line : HostLine) (s : State) : Host.Outcome State Fault Refusal :=
  match line with
  | .write width offset v => hostWrite width offset v s
  | .read width offset => hostRead width offset s
  | .reset => .next s.advance.resetEngine
  | .berr name => hostBranch name s
  | .label _ => .next s.advance
  | .stop => .next s

/-- The host's next action, if it has one; without one the engine is idle and nothing changes (R35; log 13). -/
def hostStep (s : State) : Host.Outcome State Fault Refusal :=
  match fetchLine s with
  | some line => runLine line s
  | none => .next s

/-- Put a line at a place of a script; a place past the end is reached by END lines. -/
def setLine : List HostLine → Nat → HostLine → List HostLine
  | [], 0, line => [line]
  | [], n + 1, line => .stop :: setLine [] n line
  | _ :: rest, 0, line => line :: rest
  | first :: rest, n + 1, line => first :: setLine rest n line

/-- The host's next action is to write `v` to `CMD`, the engine is ready to accept it and the host waits for no earlier
command (log 1). -/
def State.withCommand (s : State) (v : Word) : State :=
  { s with busy := false, awaiting := false, script := setLine s.script s.pos (.write .word 0 v) }

end Sys2Proof.Machine
end

