-- ==== Sys2Proof/Machine/Step.lean ====
section
/-! DEFINITION. One step of the machine: the host's next action, a command included (spec/00_scope.md R7;
spec/70_reset_and_hazards.md R235, R255). -/

namespace Sys2Proof.Machine

/-- One step. -/
def step (s : State) : Host.Outcome State Fault Refusal := hostStep s

/-- The opcode-table word of `nbits` bits stored where the step takes its next command from: the host's next line
writes it to `CMD` (log 1). -/
def State.withFetchWord (s : State) (nbits w : Nat) : State := s.withCommand (tableWord nbits w)

end Sys2Proof.Machine
end

