-- ==== Sys2Proof/Machine/Script.lean ====
section
/-! DEFINITION. The host-script notation (spec/30_encoding.md R87) and the pseudo-instructions (R88), each line as the
host actions it stands for. `EXPECT` is no action (R87) and has no line. -/

namespace Sys2Proof.Machine

/-- `WR BLEN, value` (R87). -/
def Script.wrBlen (v : Word) : List HostLine := [.write .word 0x00008 v]

/-- `WR WCNT, value` (R87). -/
def Script.wrWcnt (v : Word) : List HostLine := [.write .word 0x0000C v]

/-- `WR KLEN, value` (R87). -/
def Script.wrKlen (v : Word) : List HostLine := [.write .word 0x00010 v]

/-- The window offset of an element `i`, of `size` bytes, of the buffer whose area of the window is `base` to `limit - 1`
(R60). DESIGN CHOICE (log 18, safe): R87 gives an index outside its buffer no meaning; an index whose element is outside the
area gets the reserved offset 0x30, where the line stops (R61), so that no index reaches another buffer or `CMD`. -/
def Script.offsetIn (base limit size i : Nat) : BitVec 18 :=
  if base + size * i < limit then BitVec.ofNat 18 (base + size * i) else 0x00030

/-- The offset of `B[i]` (R60; an index outside the buffer: log 18). -/
def Script.offsetB (i : Nat) : BitVec 18 := Script.offsetIn 0x10000 0x20000 1 i

/-- The offset of `KIN[i]` (R60; an index outside the buffer: log 18). -/
def Script.offsetKin (i : Nat) : BitVec 18 := Script.offsetIn 0x00040 0x10000 1 i

/-- The offset of `W[j]` (R60; an index outside the buffer: log 18). -/
def Script.offsetW (j : Nat) : BitVec 18 := Script.offsetIn 0x20000 0x40000 4 j

/-- Writes of values to consecutive elements of a buffer, from element `i` on. -/
def Script.wrAll (width : Width) (offset : Nat → BitVec 18) : Nat → List Word → List HostLine
  | _, [] => []
  | i, v :: vs => .write width (offset i) v :: Script.wrAll width offset (i + 1) vs

/-- `WRB B[i], bytes`; also `WRS B[i], "text"` with the text's ASCII codes (R87; an index outside the buffer: log 18). -/
def Script.wrB (i : Nat) (bs : List Byte) : List HostLine :=
  Script.wrAll .byte Script.offsetB i (bs.map (BitVec.setWidth 32))

/-- `WRB KIN[i], bytes`; also `WRS KIN[i], "text"` (R87; an index outside the buffer: log 18). -/
def Script.wrKin (i : Nat) (bs : List Byte) : List HostLine :=
  Script.wrAll .byte Script.offsetKin i (bs.map (BitVec.setWidth 32))

/-- `WRW W[j], words` (R87; an index outside the buffer: log 18). -/
def Script.wrW (j : Nat) (vs : List Word) : List HostLine := Script.wrAll .word Script.offsetW j vs

/-- `CMDW word`: the write to `CMD`, then the poll of `STATUS`, which one read ends, a command being one step (R87, R7;
log 14). -/
def Script.cmdw (v : Word) : List HostLine := [.write .word 0x00000 v, .read .word 0x00004]

/-- `CMD mnemonic` (R87). -/
def Script.cmd (i : Instr) : List HostLine := Script.cmdw (encode i)

/-- `BERR label` (R87). -/
def Script.berr (name : Nat) : List HostLine := [.berr name]

/-- The pseudo-instruction ENCRYPT (R88). -/
def Script.encryptPadded (fail : Nat) : List HostLine :=
  Script.cmd .keyldPad ++ Script.berr fail ++ Script.cmd .chenc ++ Script.berr fail

/-- The pseudo-instruction DECRYPT (R88). -/
def Script.decryptPadded (fail : Nat) : List HostLine :=
  Script.cmd .keyldPad ++ Script.berr fail ++ Script.cmd .chdec ++ Script.berr fail

/-- The pseudo-instruction ENCRYPT.RAW (R88). -/
def Script.encryptRaw (fail : Nat) : List HostLine :=
  Script.cmd .keyldRaw ++ Script.berr fail ++ Script.cmd .chenc ++ Script.berr fail

/-- The pseudo-instruction DECRYPT.RAW (R88). -/
def Script.decryptRaw (fail : Nat) : List HostLine :=
  Script.cmd .keyldRaw ++ Script.berr fail ++ Script.cmd .chdec ++ Script.berr fail

end Sys2Proof.Machine
end

