-- ==== Sys2Proof/WellFormed.lean ====
section
/-! DEFINITION. Which terms are well formed: instructions (spec/30_encoding.md R84) and parameters (spec/00_scope.md R9). -/

namespace Sys2Proof

/-- No command carries an immediate, a register number, an address or a length (R84), so no field of an instruction
can be out of range. -/
def Instr.wellFormed : Instr → Bool
  | .pack => true
  | .unpack => true
  | .packL => true
  | .unpackL => true
  | .xxenc => true
  | .xxdec => true
  | .bsenc => true
  | .bsdec => true
  | .chenc => true
  | .chdec => true
  | .keyldPad => true
  | .keyldRaw => true

/-- `BCAP` is a multiple of 4 (R9). -/
def Params.bcapAligned (p : Params) : Bool := p.bcap % 4 == 0

/-- `128 <= BCAP <= 65536` (R9). -/
def Params.bcapInRange (p : Params) : Bool := decide (128 ≤ p.bcap) && decide (p.bcap ≤ 65536)

/-- `KCAP` is a multiple of 8 (R9). -/
def Params.kcapAligned (p : Params) : Bool := p.kcap % 8 == 0

/-- `16 <= KCAP <= 64` (R9). -/
def Params.kcapInRange (p : Params) : Bool := decide (16 ≤ p.kcap) && decide (p.kcap ≤ 64)

/-- `NLANES` is any value from 1 up (R9). -/
def Params.lanesInRange (p : Params) : Bool := decide (1 ≤ p.nlanes)

/-- The parameters satisfy every constraint of R9. -/
def Params.wellFormed (p : Params) : Bool :=
  p.bcapAligned && p.bcapInRange && p.kcapAligned && p.kcapInRange && p.lanesInRange

end Sys2Proof
end

