-- ==== Sys2Proof/Safety.lean ====
section
/-! DEFINITION. What a safe state and a safe run are, in the terms the claims use. -/

namespace Sys2Proof.Machine

/-- `STATUS` between steps: never BUSY (R29, R7), an error code that exists (R200), no error before a command has
completed (R29), and DONE there to be read by a host that waits for it (R240, R29). -/
abbrev State.StatusLegal (s : State) : Prop :=
  s.busy = false ∧ s.err.toNat ≤ 5 ∧ (s.done = false → s.err = 0 ∧ s.awaiting = false)

/-- The key register holds zeros until a key load succeeds (R24, R25). -/
abbrev State.KeyLegal (s : State) : Prop := s.keyv = false → s.k = Vector.replicate 16 0

/-- The parameters satisfy R9, and every buffer is in canonical form and inside its capacity (R20, R22, R26). -/
abbrev State.StorageLegal (s : State) : Prop :=
  s.params.wellFormed = true ∧ Memory.wf s.params.wcap s.w = true ∧ Memory.wf s.params.bcap s.b = true ∧
    Memory.wf s.params.kcap s.kin = true

/-- The invariant of the machine. -/
abbrev State.Inv (s : State) : Prop := s.StatusLegal ∧ s.KeyLegal ∧ s.StorageLegal

/-- A script line that keeps what R236 asks of one line, an access of a listed place at a listed width and alignment; and
of a branch, which R236 does not speak of, that its label stands in the script (log 12). -/
def lineLegal (p : Params) (script : List HostLine) : HostLine → Bool
  | .write width offset _ =>
    match resolve p width offset with
    | .loc _ => true
    | .reserved => false
    | .unlisted => false
  | .read width offset =>
    match resolve p width offset with
    | .loc _ => true
    | .reserved => false
    | .unlisted => false
  | .reset => true
  | .berr name => (labelFrom name 0 script).isSome
  | .label _ => true
  | .stop => true

/-- The host's next action, labels passed over, is no access but a read of `STATUS` (a BERR line is one), or there is none
before the next reset: what R240 asks of a host that waits. -/
def readsStatusNext : List HostLine → Bool
  | [] => true
  | .write _ _ _ :: _ => false
  | .read _ offset :: _ => offset == 0x00004
  | .reset :: _ => true
  | .berr _ :: _ => true
  | .label _ :: rest => readsStatusNext rest
  | .stop :: _ => true

/-- The line is a write to `CMD`. -/
def HostLine.writesCmd : HostLine → Bool
  | .write _ offset _ => offset == 0x00000
  | .read _ _ => false
  | .reset => false
  | .berr _ => false
  | .label _ => false
  | .stop => false

/-- After every write to `CMD` the host reads `STATUS` before it accesses anything else (R240; a command being one step,
one read shows `DONE = 1`: log 14). -/
def pollsAfterCommands : List HostLine → Bool
  | [] => true
  | line :: rest => (!line.writesCmd || readsStatusNext rest) && pollsAfterCommands rest

/-- The script keeps the duties of R236 whose breach stops the model, and its branches have their labels (log 12): every
line by itself is legal, and from the present line on the host keeps R240. -/
abbrev State.ScriptLegal (s : State) : Prop :=
  s.script.all (lineLegal s.params s.script) = true ∧ pollsAfterCommands s.script = true ∧
    (s.awaiting = true → readsStatusNext (s.script.drop s.pos) = true)

/-- `n` steps from `s` meet neither a fault nor a refusal. -/
def SafeRun (n : Nat) (s : State) : Prop := ∃ t : State, Sys2Proof.core.run n s = .next t

end Sys2Proof.Machine
end

