-- ==== Sys2Proof/Certificates/Slice0/Obligations.lean ====
section
/-! DEFINITION. The statements for the provers. Each formalises the rule or rules of spec/ its docstring names. The
definitions under `Sys2Proof.Ref` are the pseudocode of the spec written a second time, on naturals and on functions from
indices, so that a statement that uses them compares the model with the spec's formulas and not with itself. -/

namespace Sys2Proof.Ref

open Sys2Proof.Machine

/-- MX on natural numbers, with every operator of R120 written out: shifts as quotients and products, `+` reduced
modulo 2^32. `k` is the selected key word. -/
def mxNat (k z y sum : Nat) : Nat :=
  (((z / 2 ^ 5) ^^^ (y * 2 ^ 2 % 2 ^ 32)) + ((y / 2 ^ 3) ^^^ (z * 2 ^ 4 % 2 ^ 32))) % 2 ^ 32 ^^^
    (((sum ^^^ y) + (k ^^^ z)) % 2 ^ 32)

/-- A block of words as a function of the index. -/
abbrev Block := Nat → Word

/-- Replace one word of a block. -/
def Block.set (w : Block) (p : Nat) (v : Word) : Block := fun j => if j = p then v else w j

/-- The value of MX for word `p` of an `n`-word block, the neighbours being the block's current words (R120, R122). -/
def blockMx (kw : BitVec 2 → Word) (n : Nat) (sum : Word) (w : Block) (p : Nat) : Word :=
  mx kw (if p = 0 then w (n - 1) else w (p - 1)) (if p = n - 1 then w 0 else w (p + 1)) sum p
    (BitVec.ofNat 2 (sum.toNat / 4 % 4))

/-- The updates `p = 0, 1, ..., k-1` of a forward sweep (R124). -/
def sweepUp (kw : BitVec 2 → Word) (n : Nat) (sum : Word) (w : Block) : Nat → Block
  | 0 => w
  | k + 1 =>
    let w' := sweepUp kw n sum w k
    w'.set k (w' k + blockMx kw n sum w' k)

/-- The updates `p = k-1, ..., 1, 0` of a backward sweep (R126). -/
def sweepDown (kw : BitVec 2 → Word) (n : Nat) (sum : Word) : Block → Nat → Block
  | w, 0 => w
  | w, k + 1 => sweepDown kw n sum (w.set k (w k - blockMx kw n sum w k)) k

/-- `r` sweeps of encryption; sweep number `r` uses `sum = r * DELTA` (R124, R125). -/
def encRounds (kw : BitVec 2 → Word) (n : Nat) (w : Block) : Nat → Block
  | 0 => w
  | r + 1 => sweepUp kw n (BitVec.ofNat 32 ((r + 1) * 0x9E3779B9)) (encRounds kw n w r) n

/-- `r` sweeps of decryption; they use `sum = r * DELTA, ..., 1 * DELTA` (R125, R126). -/
def decRounds (kw : BitVec 2 → Word) (n : Nat) : Block → Nat → Block
  | w, 0 => w
  | w, r + 1 => decRounds kw n (sweepDown kw n (BitVec.ofNat 32 ((r + 1) * 0x9E3779B9)) w n) r

/-- The ciphertext byte of position `i` of a span of length `len`, from the plaintext byte and the previous ciphertext
byte, in the steps of R144. -/
def encPosition (k : Key) (len i : Nat) (prevOut b : Byte) : Byte :=
  rotr8 ((b + (Key.byte k (i % 16) >>> 2)) ^^^ rotl8 (Key.byte k (15 - i % 16)) ((prevOut.toNat + len - i) % 7))
    ((255 - prevOut.toNat) % 7)

/-- The plaintext byte of position `i`, in the steps of R146. -/
def decPosition (k : Key) (len i : Nat) (prevOut c : Byte) : Byte :=
  (rotl8 c ((255 - prevOut.toNat) % 7) ^^^
      rotl8 (Key.byte k (15 - i % 16)) ((prevOut.toNat + len - i) % 7)) - (Key.byte k (i % 16) >>> 2)

/-- `n` bytes of `B` from index `off`. -/
def bytesAt (s : State) (off n : Nat) : List Byte := (List.range n).map fun i => s.readB (off + i)

/-- The quantities of R160 for a byte length. -/
def subWords (len : Nat) : Nat := len % 64 / 4

/-- The length of the word sub-block (R160). -/
def subLen (len : Nat) : Nat := if 1 < len % 64 / 4 then 4 * (len % 64 / 4) else 0

/-- The length of the byte tail (R160). -/
def tailLen (len : Nat) : Nat := len % 64 - subLen len

/-! What a command leaves alone (spec/10_state.md R34). -/

/-- `B` reads as before, everywhere. -/
def SameB (s t : State) : Prop := ∀ i, t.readB i = s.readB i

/-- `W` reads as before, everywhere. -/
def SameW (s t : State) : Prop := ∀ j, t.readW j = s.readW j

/-- `KIN` and `KLEN` are as before. -/
def SameKeyInput (s t : State) : Prop := (∀ i, t.readKin i = s.readKin i) ∧ t.klen = s.klen

/-- `K` and `KEYV` are as before. -/
def SameKey (s t : State) : Prop := t.k = s.k ∧ t.keyv = s.keyv

/-- The parameters and the host's side (script, position, last read value, its wait for DONE) are as before. -/
def SameHost (s t : State) : Prop :=
  t.params = s.params ∧ t.epoch = s.epoch ∧ t.script = s.script ∧ t.pos = s.pos ∧ t.readData = s.readData ∧
    t.awaiting = s.awaiting

/-- Everything the host can see of the engine but `STATUS`, and the host's side, is as before. -/
def SameButStatus (s t : State) : Prop :=
  SameB s t ∧ t.blen = s.blen ∧ SameW s t ∧ t.wcnt = s.wcnt ∧ SameKeyInput s t ∧ SameKey s t ∧ SameHost s t

/-- All but `W`, `WCNT` and `STATUS` is as before. -/
def AllButW (s t : State) : Prop :=
  SameB s t ∧ t.blen = s.blen ∧ SameKeyInput s t ∧ SameKey s t ∧ SameHost s t

/-- All but `B`, `BLEN` and `STATUS` is as before. -/
def AllButB (s t : State) : Prop :=
  SameW s t ∧ t.wcnt = s.wcnt ∧ SameKeyInput s t ∧ SameKey s t ∧ SameHost s t

/-- All but `K`, `KEYV` and `STATUS` is as before. -/
def AllButKey (s t : State) : Prop :=
  SameB s t ∧ t.blen = s.blen ∧ SameW s t ∧ t.wcnt = s.wcnt ∧ SameKeyInput s t ∧ SameHost s t

/-- The outcome of a command that takes the fault with the given code (spec/60_exceptions.md R204). -/
def faulted (code : BitVec 4) (s : State) : Host.Outcome State Fault Refusal :=
  .next { s with busy := false, done := true, err := code }

/-- The accesses that the address map lists: `W`, the registers and the key words by aligned 32-bit accesses, `KIN` and
`B` also by 8-bit ones (spec/20_memory.md R55, R60). -/
abbrev Listed (p : Params) (width : Width) (offset : BitVec 18) : Prop :=
  (width = .word ∧ offset.toNat % 4 = 0 ∧
    (offset.toNat < 0x30 ∨ (0x20000 ≤ offset.toNat ∧ offset.toNat < 0x20000 + 4 * (p.bcap / 4 + 1)))) ∨
  ((width = .byte ∨ (width = .word ∧ offset.toNat % 4 = 0)) ∧
    ((0x40 ≤ offset.toNat ∧ offset.toNat < 0x40 + p.kcap) ∨ (0x10000 ≤ offset.toNat ∧ offset.toNat < 0x10000 + p.bcap)))

/-- A state without the parts no result may depend on: the hidden working registers, the model's counter of their
free values, and the number of lanes. -/
def forget (s : State) : State :=
  { s with hidden := Hidden.zero, finished := 0, params := { s.params with nlanes := 1 } }

end Sys2Proof.Ref

open Sys2Proof Sys2Proof.Machine

/-! ## Encoding -/

/-- R83: the twelve command words decode to their commands (a check of the words as the opcode map writes them). -/
def Obligations.OpcodeMapWordsDecode : Prop :=
  decode 0x00000010 = .ok .pack ∧ decode 0x00000011 = .ok .unpack ∧ decode 0x00000012 = .ok .packL ∧
  decode 0x00000013 = .ok .unpackL ∧ decode 0x00000020 = .ok .xxenc ∧ decode 0x00000021 = .ok .xxdec ∧
  decode 0x00000030 = .ok .bsenc ∧ decode 0x00000031 = .ok .bsdec ∧ decode 0x00000040 = .ok .chenc ∧
  decode 0x00000041 = .ok .chdec ∧ decode 0x00000050 = .ok .keyldPad ∧ decode 0x00000052 = .ok .keyldRaw

/-- R82: a word decodes to a command exactly when it equals that command's word in all 32 bits, and every other word
is IllegalCommand. -/
def Obligations.DecodeExactlyTheCommandWords : Prop :=
  (∀ (w : Word) (i : Instr), decode w = .ok i ↔ w = encode i) ∧
  (∀ w : Word, (∀ i : Instr, w ≠ encode i) → decode w = .error (.illegalCommand w))

/-- Every command decodes back from its bytes, whatever bytes follow, and from its opcode-table row. -/
def Obligations.DecodeOfEncodeIsTheCommand : Prop :=
  ∀ (i : Instr) (rest : List Byte), i.wellFormed = true →
    decode (encode i) = .ok i ∧ decodeBytes (encodeBytes i ++ rest) = .ok (i, rest) ∧
      decodeTableWord 32 (encode i).toNat = some i

/-- R85: a word with a bit set in 31:8 or 3:2, of family 0 or 6 to 15, of family 2, 3 or 4 with MOD = 1, or of family
5 with DIR = 1, is illegal. -/
def Obligations.ReservedEncodingsAreIllegal : Prop :=
  ∀ w : Word,
    (w.toNat / 2 ^ 8 ≠ 0 ∨ w.toNat / 2 ^ 2 % 4 ≠ 0 ∨
      w.toNat / 2 ^ 4 % 16 = 0 ∨ 6 ≤ w.toNat / 2 ^ 4 % 16 ∨
      (2 ≤ w.toNat / 2 ^ 4 % 16 ∧ w.toNat / 2 ^ 4 % 16 ≤ 4 ∧ w.toNat / 2 % 2 = 1) ∨
      (w.toNat / 2 ^ 4 % 16 = 5 ∧ w.toNat % 2 = 1)) →
    decode w = .error (.illegalCommand w)

/-! ## Steps -/

/-- The host's write of a word to `CMD`, while the engine is idle and the host waits for no command, is the issue of
that word (R30), with the host one line further (log 1) and waiting (log 19); and when the word decodes to a command, the
step is the acceptance and the whole execution of that command (R29, R7). -/
def Obligations.StepRunsTheWrittenCommand : Prop :=
  (∀ (s : State) (w : Word), s.busy = false → s.awaiting = false → fetchLine s = some (.write .word 0 w) →
    step s = issueCommand w { s with pos := s.pos + 1, awaiting := true }) ∧
  (∀ (s : State) (w : Word) (i : Instr),
    s.busy = false → s.awaiting = false → fetchLine s = some (.write .word 0 w) → decode w = .ok i →
    step s = exec i { s with pos := s.pos + 1, awaiting := true, busy := true, done := false, err := 0 })

/-- R201: a word that is no command, written to `CMD`, completes with ERR = 5 and examines and changes nothing else. -/
def Obligations.IllegalWordFaultsAndChangesOnlyStatus : Prop :=
  ∀ (s : State) (w : Word), (∀ i : Instr, w ≠ encode i) → issueCommand w s = Ref.faulted 5 s

/-! ## Status and completion -/

/-- R28: the fields of `STATUS` stand at bits 0, 1, 2 and 11:8, and every other bit reads as 0. -/
def Obligations.StatusRegisterLayout : Prop :=
  ∀ s : State, s.status.toNat = s.busy.toNat + 2 * s.done.toNat + 4 * s.keyv.toNat + 2 ^ 8 * s.err.toNat

/-- R29: every command completes, in one step, with BUSY 0 and DONE 1; and ERR is one of the codes 0 to 4 (R200: code 5
is for a word that is no command, 6 to 15 are never produced). -/
def Obligations.EveryCommandCompletes : Prop :=
  ∀ (i : Instr) (s : State), ∃ t, exec i s = .next t ∧ t.busy = false ∧ t.done = true ∧ t.err.toNat ≤ 4

/-- R204: a command that faults sets ERR, DONE and BUSY and changes nothing else from what was there when it was
accepted; and so does any word written to `CMD` that ends with ERR not 0, a word that is no command among them. -/
def Obligations.FaultChangesOnlyStatus : Prop :=
  (∀ (i : Instr) (s t : State), exec i s = .next t → t.err ≠ 0 → exec i s = Ref.faulted t.err s) ∧
  (∀ (w : Word) (s t : State), issueCommand w s = .next t → t.err ≠ 0 → issueCommand w s = Ref.faulted t.err s)

/-- The codes of R200, as `STATUS` shows them to a host, for the five causes. -/
def Obligations.FaultCodesInStatus : Prop :=
  ∀ (f : EngineFault) (s : State), ∃ t, raise f s = .next t ∧
    t.status.toNat / 2 ^ 8 % 16 =
      (match f with
        | .invalidKeyLength => 1
        | .corruptLengthHeader => 2
        | .allocationFailure => 3
        | .keyTooShort => 4
        | .illegalCommand => 5)

/-! ## When commands fault -/

/-- R202: AllocationFailure is reported exactly when a length register exceeds its buffer's capacity, or UNPACK's
result would. -/
def Obligations.AllocationFailureExactly : Prop :=
  ∀ (i : Instr) (s t : State), exec i s = .next t →
    (t.err = 3 ↔
      (match i with
        | .pack => s.params.bcap < s.blen.toNat
        | .packL => s.params.bcap < s.blen.toNat
        | .bsenc => s.params.bcap < s.blen.toNat
        | .bsdec => s.params.bcap < s.blen.toNat
        | .chenc => s.params.bcap < s.blen.toNat
        | .chdec => s.params.bcap < s.blen.toNat
        | .unpack => s.params.bcap / 4 + 1 < s.wcnt.toNat ∨ s.params.bcap < 4 * s.wcnt.toNat
        | .unpackL => s.params.bcap / 4 + 1 < s.wcnt.toNat
        | .xxenc => s.params.bcap / 4 + 1 < s.wcnt.toNat
        | .xxdec => s.params.bcap / 4 + 1 < s.wcnt.toNat
        | .keyldPad => s.params.kcap < s.klen.toNat
        | .keyldRaw => s.params.kcap < s.klen.toNat))

/-- R203: with no capacity failure, a cipher command reports KeyTooShort exactly when KEYV = 0, and KEYLD.RAW exactly
when KLEN is 0 or 8; no other command ever does. -/
def Obligations.KeyTooShortExactly : Prop :=
  ∀ (i : Instr) (s t : State), exec i s = .next t → t.err ≠ 3 →
    (t.err = 4 ↔
      (match i with
        | .xxenc => s.keyv = false
        | .xxdec => s.keyv = false
        | .bsenc => s.keyv = false
        | .bsdec => s.keyv = false
        | .chenc => s.keyv = false
        | .chdec => s.keyv = false
        | .keyldRaw => s.klen.toNat = 0 ∨ s.klen.toNat = 8
        | .pack => False
        | .unpack => False
        | .packL => False
        | .unpackL => False
        | .keyldPad => False))

/-- R205: InvalidKeyLength is reported only by KEYLD.RAW, exactly when `KLEN <= KCAP` and KLEN is not a multiple
of 8. -/
def Obligations.InvalidKeyLengthExactly : Prop :=
  ∀ (i : Instr) (s t : State), exec i s = .next t →
    (t.err = 1 ↔ i = .keyldRaw ∧ s.klen.toNat ≤ s.params.kcap ∧ s.klen.toNat % 8 ≠ 0)

/-- R105, R206: CorruptLengthHeader is reported only by UNPACK.L, exactly when `WCNT <= WCAP` and there is no length
word or it is not one of the (non-negative) integers `m-3 .. m`, `m = 4*(WCNT-1)`. -/
def Obligations.CorruptLengthHeaderExactly : Prop :=
  ∀ (i : Instr) (s t : State), exec i s = .next t →
    (t.err = 2 ↔ i = .unpackL ∧ s.wcnt.toNat ≤ s.params.bcap / 4 + 1 ∧
      (s.wcnt.toNat = 0 ∨
        ¬ ((4 * ((s.wcnt.toNat : Int) - 1) - 3 ≤ ((s.readW (s.wcnt.toNat - 1)).toNat : Int)) ∧
          ((s.readW (s.wcnt.toNat - 1)).toNat : Int) ≤ 4 * ((s.wcnt.toNat : Int) - 1))))

/-- R208: when several conditions hold, the one reported is the first of AllocationFailure, InvalidKeyLength,
KeyTooShort, CorruptLengthHeader. The conditions are those of R202, R203, R205, R206; this states each command's order,
code by code. -/
def Obligations.FaultPriority : Prop :=
  (∀ s : State, s.params.kcap < s.klen.toNat → exec .keyldRaw s = Ref.faulted 3 s) ∧
  (∀ s : State, s.klen.toNat ≤ s.params.kcap → s.klen.toNat % 8 ≠ 0 →
    exec .keyldRaw s = Ref.faulted 1 s) ∧
  (∀ s : State, s.klen.toNat ≤ s.params.kcap → s.klen.toNat % 8 = 0 → s.klen.toNat < 16 →
    exec .keyldRaw s = Ref.faulted 4 s) ∧
  (∀ (i : Instr) (s : State), i ∈ [Instr.bsenc, .bsdec, .chenc, .chdec] → s.params.bcap < s.blen.toNat →
    exec i s = Ref.faulted 3 s) ∧
  (∀ (i : Instr) (s : State), i ∈ [Instr.bsenc, .bsdec, .chenc, .chdec] → s.blen.toNat ≤ s.params.bcap →
    s.keyv = false → exec i s = Ref.faulted 4 s) ∧
  (∀ (i : Instr) (s : State), i ∈ [Instr.xxenc, .xxdec] → s.params.bcap / 4 + 1 < s.wcnt.toNat →
    exec i s = Ref.faulted 3 s) ∧
  (∀ (i : Instr) (s : State), i ∈ [Instr.xxenc, .xxdec] → s.wcnt.toNat ≤ s.params.bcap / 4 + 1 →
    s.keyv = false → exec i s = Ref.faulted 4 s) ∧
  (∀ s : State, s.params.bcap / 4 + 1 < s.wcnt.toNat →
    exec .unpackL s = Ref.faulted 3 s)

/-! ## WordCodec -/

/-- R100, R102: PACK faults on a length beyond the capacity; else it writes the little-endian words of `B[0..BLEN-1]`,
the missing high bytes of the last one 0, and their count, and leaves the rest of `W` and everything else alone. -/
def Obligations.PackWritesLittleEndianWords : Prop :=
  ∀ s : State,
    (s.params.bcap < s.blen.toNat → exec .pack s = Ref.faulted 3 s) ∧
    (s.blen.toNat ≤ s.params.bcap →
      ∃ t, exec .pack s = .next t ∧ t.err = 0 ∧ Ref.AllButW s t ∧ t.wcnt.toNat = (s.blen.toNat + 3) / 4 ∧
        (∀ j, j < (s.blen.toNat + 3) / 4 →
          (t.readW j).toNat =
            ((List.range 4).map fun k =>
              if 4 * j + k < s.blen.toNat then (s.readB (4 * j + k)).toNat * 2 ^ (8 * k) else 0).sum) ∧
        (∀ j, (s.blen.toNat + 3) / 4 ≤ j → t.readW j = s.readW j))

/-- R101, R102: PACK.L writes the words of PACK, then one word holding BLEN. -/
def Obligations.PackLAppendsTheByteLength : Prop :=
  ∀ s : State,
    (s.params.bcap < s.blen.toNat → exec .packL s = Ref.faulted 3 s) ∧
    (s.blen.toNat ≤ s.params.bcap →
      ∃ t, exec .packL s = .next t ∧ t.err = 0 ∧ Ref.AllButW s t ∧ t.wcnt.toNat = (s.blen.toNat + 3) / 4 + 1 ∧
        t.readW ((s.blen.toNat + 3) / 4) = s.blen ∧
        (∀ j, j < (s.blen.toNat + 3) / 4 →
          (t.readW j).toNat =
            ((List.range 4).map fun k =>
              if 4 * j + k < s.blen.toNat then (s.readB (4 * j + k)).toNat * 2 ^ (8 * k) else 0).sum) ∧
        (∀ j, (s.blen.toNat + 3) / 4 < j → t.readW j = s.readW j))

/-- R103, R108: UNPACK faults when the words exceed `W` or their bytes `B`; else it writes the four bytes of every word,
the least significant first, and `BLEN = 4*WCNT`. -/
def Obligations.UnpackWritesFourBytesAWord : Prop :=
  ∀ s : State, s.params.wellFormed = true →
    (s.params.bcap / 4 + 1 < s.wcnt.toNat ∨ s.params.bcap < 4 * s.wcnt.toNat → exec .unpack s = Ref.faulted 3 s) ∧
    (s.wcnt.toNat ≤ s.params.bcap / 4 + 1 → 4 * s.wcnt.toNat ≤ s.params.bcap →
      ∃ t, exec .unpack s = .next t ∧ t.err = 0 ∧ Ref.AllButB s t ∧ t.blen.toNat = 4 * s.wcnt.toNat ∧
        (∀ j k, j < s.wcnt.toNat → k < 4 →
          (t.readB (4 * j + k)).toNat = (s.readW j).toNat / 2 ^ (8 * k) % 256) ∧
        (∀ i, 4 * s.wcnt.toNat ≤ i → t.readB i = s.readB i))

/-- R104, R108: UNPACK.L faults when the words exceed `W`, when there is none, and when the last word is out of the
header bound; else it writes the declared number of bytes. -/
def Obligations.UnpackLWritesTheDeclaredBytes : Prop :=
  ∀ s : State,
    (s.params.bcap / 4 + 1 < s.wcnt.toNat → exec .unpackL s = Ref.faulted 3 s) ∧
    (s.wcnt.toNat ≤ s.params.bcap / 4 + 1 → s.wcnt.toNat = 0 → exec .unpackL s = Ref.faulted 2 s) ∧
    (s.wcnt.toNat ≤ s.params.bcap / 4 + 1 → s.wcnt.toNat ≠ 0 →
      ((s.readW (s.wcnt.toNat - 1)).toNat + 3 < 4 * (s.wcnt.toNat - 1) ∨
        4 * (s.wcnt.toNat - 1) < (s.readW (s.wcnt.toNat - 1)).toNat) → exec .unpackL s = Ref.faulted 2 s) ∧
    (s.wcnt.toNat ≤ s.params.bcap / 4 + 1 → s.wcnt.toNat ≠ 0 →
      4 * (s.wcnt.toNat - 1) ≤ (s.readW (s.wcnt.toNat - 1)).toNat + 3 →
      (s.readW (s.wcnt.toNat - 1)).toNat ≤ 4 * (s.wcnt.toNat - 1) →
      ∃ t, exec .unpackL s = .next t ∧ t.err = 0 ∧ Ref.AllButB s t ∧ t.blen = s.readW (s.wcnt.toNat - 1) ∧
        (∀ i, i < t.blen.toNat → (t.readB i).toNat = (s.readW (i / 4)).toNat / 2 ^ (8 * (i % 4)) % 256) ∧
        (∀ i, t.blen.toNat ≤ i → t.readB i = s.readB i))

/-- R106 (a), (b): PACK.L then UNPACK.L restores the bytes and BLEN, for every length; PACK then UNPACK gives the bytes,
zeros up to the next multiple of 4, and that length. -/
def Obligations.PackedBytesComeBack : Prop :=
  ∀ s : State, s.params.wellFormed = true → s.blen.toNat ≤ s.params.bcap →
    (∃ t u, exec .packL s = .next t ∧ exec .unpackL t = .next u ∧ u.err = 0 ∧ u.blen = s.blen ∧
      ∀ i, i < s.blen.toNat → u.readB i = s.readB i) ∧
    (∃ t u, exec .pack s = .next t ∧ exec .unpack t = .next u ∧ u.err = 0 ∧
      u.blen.toNat = 4 * ((s.blen.toNat + 3) / 4) ∧
      (∀ i, i < s.blen.toNat → u.readB i = s.readB i) ∧
      (∀ i, s.blen.toNat ≤ i → i < u.blen.toNat → u.readB i = 0))

/-- R106 (c), (d): UNPACK then PACK restores the words and WCNT, for `WCNT < WCAP`; UNPACK.L then PACK.L restores WCNT,
the length word and the data words, except that the dropped high bytes of the last data word come back as zero. -/
def Obligations.UnpackedWordsComeBack : Prop :=
  ∀ s : State, s.params.wellFormed = true →
    (s.wcnt.toNat < s.params.bcap / 4 + 1 →
      ∃ t u, exec .unpack s = .next t ∧ exec .pack t = .next u ∧ u.err = 0 ∧ u.wcnt = s.wcnt ∧
        ∀ j, j < s.wcnt.toNat → u.readW j = s.readW j) ∧
    (s.wcnt.toNat ≤ s.params.bcap / 4 + 1 → s.wcnt.toNat ≠ 0 →
      4 * (s.wcnt.toNat - 1) ≤ (s.readW (s.wcnt.toNat - 1)).toNat + 3 →
      (s.readW (s.wcnt.toNat - 1)).toNat ≤ 4 * (s.wcnt.toNat - 1) →
      ∃ t u, exec .unpackL s = .next t ∧ exec .packL t = .next u ∧ u.err = 0 ∧ u.wcnt = s.wcnt ∧
        u.readW (s.wcnt.toNat - 1) = s.readW (s.wcnt.toNat - 1) ∧
        ∀ j k, j < s.wcnt.toNat - 1 → k < 4 →
          (u.readW j).toNat / 2 ^ (8 * k) % 256 =
            if 4 * j + k < (s.readW (s.wcnt.toNat - 1)).toNat then (s.readW j).toNat / 2 ^ (8 * k) % 256 else 0)

/-! ## XXTeaCore -/

/-- R120: MX is the formula of the rule, on natural numbers, with the key word `KW[(p & 3) ^ e]`. -/
def Obligations.MxFollowsTheFormula : Prop :=
  ∀ (kw : BitVec 2 → Word) (z y sum : Word) (p : Nat) (e : BitVec 2),
    (mx kw z y sum p e).toNat =
      Ref.mxNat (kw (BitVec.ofNat 2 ((p % 4) ^^^ e.toNat))).toNat z.toNat y.toNat sum.toNat

/-- R123: with a key loaded and the count within capacity, XXENC and XXDEC on fewer than two words complete
successfully and change nothing the host can see but `STATUS`. -/
def Obligations.FewerThanTwoWordsIsANoOp : Prop :=
  ∀ (i : Instr) (s : State), (i = .xxenc ∨ i = .xxdec) → s.wcnt.toNat ≤ s.params.bcap / 4 + 1 → s.keyv = true →
    s.wcnt.toNat < 2 → ∃ t, exec i s = .next t ∧ t.err = 0 ∧ Ref.SameButStatus s t

/-- R124, R125: XXENC runs `6 + floor(52/n)` forward sweeps over `W[0..n-1]`, sweep r with `sum = r*DELTA`, each word
updated in place from its current neighbours, and changes nothing else. -/
def Obligations.XxencRunsTheForwardSweeps : Prop :=
  ∀ s : State, s.wcnt.toNat ≤ s.params.bcap / 4 + 1 → s.keyv = true → 2 ≤ s.wcnt.toNat →
    ∃ t, exec .xxenc s = .next t ∧ t.err = 0 ∧ Ref.AllButW s t ∧ t.wcnt = s.wcnt ∧
      (∀ j, j < s.wcnt.toNat →
        t.readW j = Ref.encRounds s.kw s.wcnt.toNat s.readW (6 + 52 / s.wcnt.toNat) j) ∧
      (∀ j, s.wcnt.toNat ≤ j → t.readW j = s.readW j)

/-- R125, R126: XXDEC runs the same number of backward sweeps with the same `sum` values in reverse order, subtracting
MX, and changes nothing else. -/
def Obligations.XxdecRunsTheBackwardSweeps : Prop :=
  ∀ s : State, s.wcnt.toNat ≤ s.params.bcap / 4 + 1 → s.keyv = true → 2 ≤ s.wcnt.toNat →
    ∃ t, exec .xxdec s = .next t ∧ t.err = 0 ∧ Ref.AllButW s t ∧ t.wcnt = s.wcnt ∧
      (∀ j, j < s.wcnt.toNat →
        t.readW j = Ref.decRounds s.kw s.wcnt.toNat s.readW (6 + 52 / s.wcnt.toNat) j) ∧
      (∀ j, s.wcnt.toNat ≤ j → t.readW j = s.readW j)

/-- R127, R15: XXDEC after XXENC and XXENC after XXDEC restore `W[0..WCNT-1]`, for every key and content. -/
def Obligations.WordCipherInverts : Prop :=
  ∀ s : State, s.wcnt.toNat ≤ s.params.bcap / 4 + 1 → s.keyv = true →
    (∃ t u, exec .xxenc s = .next t ∧ exec .xxdec t = .next u ∧ u.err = 0 ∧
      ∀ j, j < s.wcnt.toNat → u.readW j = s.readW j) ∧
    (∃ t u, exec .xxdec s = .next t ∧ exec .xxenc t = .next u ∧ u.err = 0 ∧
      ∀ j, j < s.wcnt.toNat → u.readW j = s.readW j)

/-! ## ByteStreamCipher -/

/-- R13: the rotations are the arithmetic the rule writes, rotation by 0 is the identity, and each undoes the other. -/
def Obligations.ByteRotations : Prop :=
  ∀ b : Byte, rotl8 b 0 = b ∧ rotr8 b 0 = b ∧
    (∀ r, 1 ≤ r → r ≤ 7 →
      (rotl8 b r).toNat = b.toNat * 2 ^ r % 256 + b.toNat / 2 ^ (8 - r) ∧
      (rotr8 b r).toNat = b.toNat / 2 ^ r + b.toNat * 2 ^ (8 - r) % 256) ∧
    (∀ r, r ≤ 7 → rotl8 (rotr8 b r) r = b ∧ rotr8 b r = rotl8 b ((8 - r) % 8))

/-- R144: BSENC makes each byte of `B[0..BLEN-1]` the ciphertext byte of the rule's steps, chained on the ciphertext
byte before it (0 at the first). -/
def Obligations.BsencRunsTheSteps : Prop :=
  ∀ s : State, s.blen.toNat ≤ s.params.bcap → s.keyv = true →
    ∃ t, exec .bsenc s = .next t ∧ t.err = 0 ∧ Ref.AllButB s t ∧ t.blen = s.blen ∧
      (∀ i, i < s.blen.toNat →
        t.readB i = Ref.encPosition s.k s.blen.toNat i (if i = 0 then 0 else t.readB (i - 1)) (s.readB i)) ∧
      (∀ i, s.blen.toNat ≤ i → t.readB i = s.readB i)

/-- R146: BSDEC makes each byte the plaintext byte of the rule's steps, chained on the ciphertext byte that stood
before it (0 at the first). -/
def Obligations.BsdecRunsTheSteps : Prop :=
  ∀ s : State, s.blen.toNat ≤ s.params.bcap → s.keyv = true →
    ∃ t, exec .bsdec s = .next t ∧ t.err = 0 ∧ Ref.AllButB s t ∧ t.blen = s.blen ∧
      (∀ i, i < s.blen.toNat →
        t.readB i = Ref.decPosition s.k s.blen.toNat i (if i = 0 then 0 else s.readB (i - 1)) (s.readB i)) ∧
      (∀ i, s.blen.toNat ≤ i → t.readB i = s.readB i)

/-- R147, R15: BSDEC after BSENC and BSENC after BSDEC restore `B[0..BLEN-1]`, for every key and length. -/
def Obligations.ByteCipherInverts : Prop :=
  ∀ s : State, s.blen.toNat ≤ s.params.bcap → s.keyv = true →
    (∃ t u, exec .bsenc s = .next t ∧ exec .bsdec t = .next u ∧ u.err = 0 ∧
      ∀ i, i < s.blen.toNat → u.readB i = s.readB i) ∧
    (∃ t u, exec .bsdec s = .next t ∧ exec .bsenc t = .next u ∧ u.err = 0 ∧
      ∀ i, i < s.blen.toNat → u.readB i = s.readB i)

/-! ## ChunkedCipherEngine -/

/-- R160: the three regions have the lengths of the rule and cover the buffer exactly; the tail is 0 to 3 bytes beside
a sub-block of 2 to 15 words, and 0 to 7 bytes without one. -/
def Obligations.PartitionCoversTheBuffer : Prop :=
  ∀ len : Nat,
    (partition len).fullBlocks = len / 64 ∧ (partition len).subWords = Ref.subWords len ∧
    (partition len).subLen = Ref.subLen len ∧ (partition len).tailLen = Ref.tailLen len ∧
    64 * (len / 64) + Ref.subLen len + Ref.tailLen len = len ∧
    (1 < Ref.subWords len → Ref.subLen len = 4 * Ref.subWords len ∧ Ref.subWords len ≤ 15 ∧ Ref.tailLen len ≤ 3) ∧
    (Ref.subWords len ≤ 1 → Ref.subLen len = 0 ∧ Ref.tailLen len ≤ 7)

/-- R163: CHENC enciphers each 64-byte window and the word sub-block with XXTeaCore and the byte tail with the byte
cipher, each region from its own bytes. -/
def Obligations.ChencRunsTheStages : Prop :=
  ∀ s : State, s.blen.toNat ≤ s.params.bcap → s.keyv = true →
    ∃ t, exec .chenc s = .next t ∧ t.err = 0 ∧ Ref.AllButB s t ∧ t.blen = s.blen ∧
      (∀ i, s.blen.toNat ≤ i → t.readB i = s.readB i) ∧
      (∀ k, k < s.blen.toNat / 64 →
        Ref.bytesAt t (64 * k) 64 = unpackWords (encryptWords s.kw (packWords (Ref.bytesAt s (64 * k) 64)))) ∧
      (1 < Ref.subWords s.blen.toNat →
        Ref.bytesAt t (64 * (s.blen.toNat / 64)) (Ref.subLen s.blen.toNat) =
          unpackWords (encryptWords s.kw
            (packWords (Ref.bytesAt s (64 * (s.blen.toNat / 64)) (Ref.subLen s.blen.toNat))))) ∧
      Ref.bytesAt t (64 * (s.blen.toNat / 64) + Ref.subLen s.blen.toNat) (Ref.tailLen s.blen.toNat) =
        encSpan s.k
          (Ref.bytesAt s (64 * (s.blen.toNat / 64) + Ref.subLen s.blen.toNat) (Ref.tailLen s.blen.toNat))

/-- R164: CHDEC deciphers the same regions with the inverse permutation and the inverse byte cipher. -/
def Obligations.ChdecRunsTheStages : Prop :=
  ∀ s : State, s.blen.toNat ≤ s.params.bcap → s.keyv = true →
    ∃ t, exec .chdec s = .next t ∧ t.err = 0 ∧ Ref.AllButB s t ∧ t.blen = s.blen ∧
      (∀ i, s.blen.toNat ≤ i → t.readB i = s.readB i) ∧
      (∀ k, k < s.blen.toNat / 64 →
        Ref.bytesAt t (64 * k) 64 = unpackWords (decryptWords s.kw (packWords (Ref.bytesAt s (64 * k) 64)))) ∧
      (1 < Ref.subWords s.blen.toNat →
        Ref.bytesAt t (64 * (s.blen.toNat / 64)) (Ref.subLen s.blen.toNat) =
          unpackWords (decryptWords s.kw
            (packWords (Ref.bytesAt s (64 * (s.blen.toNat / 64)) (Ref.subLen s.blen.toNat))))) ∧
      Ref.bytesAt t (64 * (s.blen.toNat / 64) + Ref.subLen s.blen.toNat) (Ref.tailLen s.blen.toNat) =
        decSpan s.k
          (Ref.bytesAt s (64 * (s.blen.toNat / 64) + Ref.subLen s.blen.toNat) (Ref.tailLen s.blen.toNat))

/-- R169, R15: CHDEC after CHENC and CHENC after CHDEC restore `B[0..BLEN-1]`, for every key and every length. -/
def Obligations.ChunkedCipherInverts : Prop :=
  ∀ s : State, s.blen.toNat ≤ s.params.bcap → s.keyv = true →
    (∃ t u, exec .chenc s = .next t ∧ exec .chdec t = .next u ∧ u.err = 0 ∧
      ∀ i, i < s.blen.toNat → u.readB i = s.readB i) ∧
    (∃ t u, exec .chdec s = .next t ∧ exec .chenc t = .next u ∧ u.err = 0 ∧
      ∀ i, i < s.blen.toNat → u.readB i = s.readB i)

/-- R170: the first `64*floor(BLEN/64)` bytes of the result of CHENC are those CHENC gives for the same bytes and key
with BLEN cut down to that multiple. -/
def Obligations.WindowsDoNotDependOnTheRest : Prop :=
  ∀ s s' t t' : State, s.blen.toNat ≤ s.params.bcap → s'.blen.toNat ≤ s'.params.bcap →
    s.keyv = true → s'.keyv = true → s.k = s'.k → s'.blen.toNat = 64 * (s.blen.toNat / 64) →
    (∀ i, i < s'.blen.toNat → s.readB i = s'.readB i) →
    exec .chenc s = .next t → exec .chenc s' = .next t' →
    ∀ i, i < s'.blen.toNat → t.readB i = t'.readB i

/-! ## KeyNormalizer -/

/-- R180, R181: KEYLD.PAD faults on a length beyond the capacity; else it loads the staged bytes before `n`, then zeros,
where `n` is the least index below `min(KLEN, 16)` holding a zero byte, or `min(KLEN, 16)`; sets KEYV; and changes
nothing else. -/
def Obligations.KeyldPadLoadsThePaddedKey : Prop :=
  ∀ s : State,
    (s.params.kcap < s.klen.toNat → exec .keyldPad s = Ref.faulted 3 s) ∧
    (s.klen.toNat ≤ s.params.kcap →
      ∃ t n, exec .keyldPad s = .next t ∧ t.err = 0 ∧ Ref.AllButKey s t ∧ t.keyv = true ∧
        n ≤ min s.klen.toNat 16 ∧ (∀ i, i < n → s.readKin i ≠ 0) ∧ (n < min s.klen.toNat 16 → s.readKin n = 0) ∧
        ∀ i : Fin 16, t.k[i] = if i.val < n then s.readKin i.val else 0)

/-- R182, R183: KEYLD.RAW faults on a length beyond the capacity, then on one that is no multiple of 8, then on 0 and 8;
else it loads the first 16 staged bytes unchanged, sets KEYV, and changes nothing else. -/
def Obligations.KeyldRawLoadsSixteenBytes : Prop :=
  ∀ s : State,
    (s.params.kcap < s.klen.toNat → exec .keyldRaw s = Ref.faulted 3 s) ∧
    (s.klen.toNat ≤ s.params.kcap → s.klen.toNat % 8 ≠ 0 → exec .keyldRaw s = Ref.faulted 1 s) ∧
    (s.klen.toNat ≤ s.params.kcap → s.klen.toNat % 8 = 0 → s.klen.toNat < 16 → exec .keyldRaw s = Ref.faulted 4 s) ∧
    (s.klen.toNat ≤ s.params.kcap → s.klen.toNat % 8 = 0 → 16 ≤ s.klen.toNat →
      ∃ t, exec .keyldRaw s = .next t ∧ t.err = 0 ∧ Ref.AllButKey s t ∧ t.keyv = true ∧
        ∀ i : Fin 16, t.k[i] = s.readKin i.val)

/-- R52: the word view of the key is the little-endian word of its bytes at index 4j, and the byte view its bytes. -/
def Obligations.KeyViewsAgree : Prop :=
  ∀ s : State,
    (∀ j : Fin 4,
      (s.kw (BitVec.ofNat 2 j.val)).toNat =
        (s.k[4 * j.val]'(by omega)).toNat + 2 ^ 8 * (s.k[4 * j.val + 1]'(by omega)).toNat +
          2 ^ 16 * (s.k[4 * j.val + 2]'(by omega)).toNat + 2 ^ 24 * (s.k[4 * j.val + 3]'(by omega)).toNat) ∧
    (∀ i : Fin 16, Key.byte s.k i.val = s.k[i])

/-- R24, R25, R184: in any step at all, K and KEYV change only by a KEYLD command the host writes to `CMD`, or by
reset; and once 1, KEYV becomes 0 only by reset. -/
def Obligations.KeyChangesOnlyByLoadOrReset : Prop :=
  ∀ s t : State, step s = .next t →
    (¬ Ref.SameKey s t →
      fetchLine s = some .reset ∨ fetchLine s = some (.write .word 0 (encode .keyldPad)) ∨
        fetchLine s = some (.write .word 0 (encode .keyldRaw))) ∧
    (s.keyv = true → t.keyv = false → fetchLine s = some .reset)

/-! ## Frames (spec/10_state.md R34) -/

/-- R34, R102, R107: PACK and PACK.L change nothing but `W[0..WCNT_new-1]`, WCNT and `STATUS`. -/
def Obligations.FrameOfPack : Prop :=
  ∀ (i : Instr) (s t : State), (i = .pack ∨ i = .packL) → exec i s = .next t →
    Ref.AllButW s t ∧
    (∀ j, t.wcnt.toNat ≤ j → t.readW j = s.readW j) ∧ (t.err ≠ 0 → Ref.SameW s t ∧ t.wcnt = s.wcnt)

/-- R34, R107, R108: UNPACK and UNPACK.L change nothing but `B[0..BLEN_new-1]`, BLEN and `STATUS`. -/
def Obligations.FrameOfUnpack : Prop :=
  ∀ (i : Instr) (s t : State), (i = .unpack ∨ i = .unpackL) → s.params.wellFormed = true → exec i s = .next t →
    Ref.AllButB s t ∧
    (∀ i, t.blen.toNat ≤ i → t.readB i = s.readB i) ∧ (t.err ≠ 0 → Ref.SameB s t ∧ t.blen = s.blen)

/-- R34, R17: XXENC and XXDEC change nothing but `W[0..WCNT-1]` and `STATUS`; the length is preserved. -/
def Obligations.FrameOfWordCipher : Prop :=
  ∀ (i : Instr) (s t : State), (i = .xxenc ∨ i = .xxdec) → exec i s = .next t →
    Ref.AllButW s t ∧ t.wcnt = s.wcnt ∧
    (∀ j, s.wcnt.toNat ≤ j → t.readW j = s.readW j) ∧ (t.err ≠ 0 → Ref.SameW s t)

/-- R34, R17: BSENC, BSDEC, CHENC and CHDEC change nothing but `B[0..BLEN-1]` and `STATUS`; the length is
preserved. -/
def Obligations.FrameOfByteCiphers : Prop :=
  ∀ (i : Instr) (s t : State), (i = .bsenc ∨ i = .bsdec ∨ i = .chenc ∨ i = .chdec) → exec i s = .next t →
    Ref.AllButB s t ∧ t.blen = s.blen ∧
    (∀ i, s.blen.toNat ≤ i → t.readB i = s.readB i) ∧ (t.err ≠ 0 → Ref.SameB s t)

/-- R34, R185: KEYLD.PAD and KEYLD.RAW change nothing but K, KEYV and `STATUS`, and on a fault not even the key. -/
def Obligations.FrameOfKeyLoads : Prop :=
  ∀ (i : Instr) (s t : State), (i = .keyldPad ∨ i = .keyldRaw) → exec i s = .next t →
    Ref.AllButKey s t ∧
    (t.err ≠ 0 → Ref.SameKey s t) ∧ (t.err = 0 → t.keyv = true)

/-! ## The host's side -/

/-- R60, R31, R30: a 32-bit read of a register or key-word offset of an idle engine, the host waiting for no command,
returns what the address map says, `CMD` reading as 0, and changes nothing of the engine (R58; that the value is kept in
`readData` is log 2). -/
def Obligations.RegisterReadsFollowTheMap : Prop :=
  ∀ (s : State) (offset : BitVec 18) (v : Word), s.busy = false → s.awaiting = false →
    fetchLine s = some (.read .word offset) →
    (offset, v) ∈ [((0x00 : BitVec 18), (0 : Word)), (0x04, s.status), (0x08, s.blen), (0x0C, s.wcnt), (0x10, s.klen),
      (0x14, BitVec.ofNat 32 s.params.bcap), (0x18, BitVec.ofNat 32 (s.params.bcap / 4 + 1)),
      (0x1C, BitVec.ofNat 32 s.params.kcap), (0x20, s.kw 0), (0x24, s.kw 1), (0x28, s.kw 2), (0x2C, s.kw 3)] →
    step s = .next { s with pos := s.pos + 1, readData := v }

/-- R60, R53: reads of the `B`, `KIN` and `W` windows of an idle engine, the host waiting for no command, return the byte
(zero-extended, log 10), the little-endian word of the four bytes, or the word, and change nothing of the engine. -/
def Obligations.BufferReadsFollowTheMap : Prop :=
  ∀ (s : State) (i : Nat), s.busy = false → s.awaiting = false → s.params.wellFormed = true →
    (i < s.params.bcap → fetchLine s = some (.read .byte (BitVec.ofNat 18 (0x10000 + i))) →
      step s = .next { s with pos := s.pos + 1, readData := (s.readB i).setWidth 32 }) ∧
    (4 * i < s.params.bcap → fetchLine s = some (.read .word (BitVec.ofNat 18 (0x10000 + 4 * i))) →
      step s = .next { s with
        pos := s.pos + 1
        readData := leWord (s.readB (4 * i)) (s.readB (4 * i + 1)) (s.readB (4 * i + 2)) (s.readB (4 * i + 3)) }) ∧
    (i < s.params.kcap → fetchLine s = some (.read .byte (BitVec.ofNat 18 (0x40 + i))) →
      step s = .next { s with pos := s.pos + 1, readData := (s.readKin i).setWidth 32 }) ∧
    (4 * i < s.params.kcap → fetchLine s = some (.read .word (BitVec.ofNat 18 (0x40 + 4 * i))) →
      step s = .next { s with
        pos := s.pos + 1
        readData := leWord (s.readKin (4 * i)) (s.readKin (4 * i + 1)) (s.readKin (4 * i + 2)) (s.readKin (4 * i + 3)) }) ∧
    (i < s.params.bcap / 4 + 1 → fetchLine s = some (.read .word (BitVec.ofNat 18 (0x20000 + 4 * i))) →
      step s = .next { s with pos := s.pos + 1, readData := s.readW i })

/-- R21, R23, R26, R58: a 32-bit write to BLEN, WCNT or KLEN stores any value unchanged and does nothing else. -/
def Obligations.LengthRegisterWritesStore : Prop :=
  ∀ (s : State) (v : Word), s.busy = false → s.awaiting = false →
    (fetchLine s = some (.write .word 0x08 v) → step s = .next { s with pos := s.pos + 1, blen := v }) ∧
    (fetchLine s = some (.write .word 0x0C v) → step s = .next { s with pos := s.pos + 1, wcnt := v }) ∧
    (fetchLine s = some (.write .word 0x10 v) → step s = .next { s with pos := s.pos + 1, klen := v })

/-- R28, R31: writes to STATUS, BCAPR, WCAPR and KCAPR are ignored; so is, by the model's choice (log 9), a write to
a key word. -/
def Obligations.ReadOnlyRegistersIgnoreWrites : Prop :=
  ∀ (s : State) (offset : BitVec 18) (v : Word), s.busy = false → s.awaiting = false →
    offset ∈ [(0x04 : BitVec 18), 0x14, 0x18, 0x1C, 0x20, 0x24, 0x28, 0x2C] →
    fetchLine s = some (.write .word offset v) → step s = .next { s with pos := s.pos + 1 }

/-- R60, R58, R59: an 8-bit write to the `B` window changes that byte of `B` and nothing else; a 32-bit write to the
`W` window that word of `W` and nothing else; likewise `KIN`. -/
def Obligations.BufferWritesStore : Prop :=
  ∀ (s : State) (i : Nat) (v : Word), s.busy = false → s.awaiting = false → s.params.wellFormed = true →
    (i < s.params.bcap → fetchLine s = some (.write .byte (BitVec.ofNat 18 (0x10000 + i)) v) →
      ∃ t, step s = .next t ∧ t.readB i = v.setWidth 8 ∧ (∀ j, j ≠ i → t.readB j = s.readB j) ∧
        t = { s with pos := s.pos + 1, b := t.b }) ∧
    (i < s.params.kcap → fetchLine s = some (.write .byte (BitVec.ofNat 18 (0x40 + i)) v) →
      ∃ t, step s = .next t ∧ t.readKin i = v.setWidth 8 ∧ (∀ j, j ≠ i → t.readKin j = s.readKin j) ∧
        t = { s with pos := s.pos + 1, kin := t.kin }) ∧
    (i < s.params.bcap / 4 + 1 → fetchLine s = some (.write .word (BitVec.ofNat 18 (0x20000 + 4 * i)) v) →
      ∃ t, step s = .next t ∧ t.readW i = v ∧ (∀ j, j ≠ i → t.readW j = s.readW j) ∧
        t = { s with pos := s.pos + 1, w := t.w })

/-- R50, R53: a 32-bit write of v at a 4-aligned offset of the `B` or `KIN` window stores the four bytes of v, the
least significant at the lowest index, and changes nothing else. -/
def Obligations.WordWritesToByteBuffersAreLittleEndian : Prop :=
  ∀ (s : State) (j : Nat) (v : Word), s.busy = false → s.awaiting = false → s.params.wellFormed = true →
    (4 * j < s.params.bcap → fetchLine s = some (.write .word (BitVec.ofNat 18 (0x10000 + 4 * j)) v) →
      ∃ t, step s = .next t ∧ (∀ k, k < 4 → (t.readB (4 * j + k)).toNat = v.toNat / 2 ^ (8 * k) % 256) ∧
        (∀ i, (i < 4 * j ∨ 4 * j + 4 ≤ i) → t.readB i = s.readB i) ∧ t = { s with pos := s.pos + 1, b := t.b }) ∧
    (4 * j < s.params.kcap → fetchLine s = some (.write .word (BitVec.ofNat 18 (0x40 + 4 * j)) v) →
      ∃ t, step s = .next t ∧ (∀ k, k < 4 → (t.readKin (4 * j + k)).toNat = v.toNat / 2 ^ (8 * k) % 256) ∧
        (∀ i, (i < 4 * j ∨ 4 * j + 4 ≤ i) → t.readKin i = s.readKin i) ∧ t = { s with pos := s.pos + 1, kin := t.kin })

/-- R61, R55, R66, R30: the model gives no meaning to an access of a reserved offset, to an access of a width or
alignment the map does not list, or to any listed access but a read of STATUS while BUSY is 1 (the names of these stops are
the model's, logs 6, 7, 8). -/
def Obligations.AccessesOutsideTheInterfaceStop : Prop :=
  ∀ (s : State) (width : Width) (offset : BitVec 18) (v : Word) (line : HostLine), s.params.wellFormed = true →
    (line = .read width offset ∨ line = .write width offset v) → fetchLine s = some line →
    ((0x30 ≤ offset.toNat ∧ offset.toNat < 0x40) ∨
        (0x40 + s.params.kcap ≤ offset.toNat ∧ offset.toNat < 0x10000) ∨
        (0x10000 + s.params.bcap ≤ offset.toNat ∧ offset.toNat < 0x20000) ∨
        0x20000 + 4 * (s.params.bcap / 4 + 1) ≤ offset.toNat →
      step s = .fault (.reservedOffset offset)) ∧
    ((offset.toNat < 0x30 ∨ (0x40 ≤ offset.toNat ∧ offset.toNat < 0x40 + s.params.kcap) ∨
          (0x10000 ≤ offset.toNat ∧ offset.toNat < 0x10000 + s.params.bcap) ∨
          (0x20000 ≤ offset.toNat ∧ offset.toNat < 0x20000 + 4 * (s.params.bcap / 4 + 1))) →
      (width = .half ∨ (width = .word ∧ offset.toNat % 4 ≠ 0) ∨
          (width = .byte ∧ (offset.toNat < 0x30 ∨ 0x20000 ≤ offset.toNat))) →
      step s = .refused (.unlistedAccess offset)) ∧
    (s.busy = true → line ≠ .read .word 0x04 →
      Ref.Listed s.params width offset → step s = .refused .accessWhileBusy)

/-- R35: the machine right after reset: the registers at the values the rule gives and the capacity registers at their
parameters. -/
def Obligations.ResetState : Prop :=
  State.reset.status = 0 ∧ State.reset.blen = 0 ∧ State.reset.wcnt = 0 ∧ State.reset.klen = 0 ∧
  (∀ i : Fin 16, State.reset.k[i] = 0) ∧ State.reset.keyv = false ∧
  State.reset.bcapr.toNat = State.reset.params.bcap ∧ State.reset.wcapr.toNat = State.reset.params.bcap / 4 + 1 ∧
  State.reset.kcapr.toNat = State.reset.params.kcap

/-- R230, R231, R232: in any state, also a busy one, the host's reset gives every register its reset value, keeps the
capacity registers, leaves the host no command to wait for (the model's choice, log 19), and leaves in every element of the
buffers that element's free value for a reset not seen before (log 3). -/
def Obligations.ResetActionClearsTheRegisters : Prop :=
  ∀ s : State, fetchLine s = some .reset →
    ∃ t, step s = .next t ∧ t.status = 0 ∧ t.blen = 0 ∧ t.wcnt = 0 ∧ t.klen = 0 ∧ (∀ i : Fin 16, t.k[i] = 0) ∧
      t.keyv = false ∧ t.awaiting = false ∧ t.params = s.params ∧ t.epoch = s.epoch + 1 ∧
      (∀ i, t.readB i = Config.unwrittenB t.epoch i) ∧ (∀ j, t.readW j = Config.unwrittenW t.epoch j) ∧
      (∀ i, t.readKin i = Config.unwrittenKin t.epoch i)

/-- R87: BERR continues at the label when ERR is not 0 and on the next line when it is 0 (the first line that is the
label is taken, and a label that stands nowhere is refused: log 12); a label line is only a place; END, and the end of
the script, stop it (log 13). None of them changes the engine; a BERR line, which reads STATUS, ends the host's wait when
DONE is 1 (R240, log 19). -/
def Obligations.HostControlLinesFollowTheNotation : Prop :=
  (∀ (s : State) (name : Nat), fetchLine s = some (.berr name) →
    (s.err = 0 → step s = .next { s with
      pos := s.pos + 1, readData := s.status, awaiting := if s.done = true then false else s.awaiting }) ∧
    (∀ k, s.err ≠ 0 → s.script[k]? = some (.label name) → (∀ j, j < k → s.script[j]? ≠ some (.label name)) →
      step s = .next { s with
        pos := k, readData := s.status, awaiting := if s.done = true then false else s.awaiting }) ∧
    (s.err ≠ 0 → (∀ j : Nat, s.script[j]? ≠ some (.label name)) → step s = .refused (.undefinedLabel name))) ∧
  (∀ (s : State) (name : Nat), fetchLine s = some (.label name) → step s = .next { s with pos := s.pos + 1 }) ∧
  (∀ s : State, fetchLine s = some .stop ∨ fetchLine s = none → step s = .next s)

/-! ## Whole-machine rules -/

/-- The invariant holds at reset: not BUSY, no error, no key material without a loaded key, admissible parameters and
canonical buffers. -/
def Obligations.ResetMeetsTheInvariant : Prop := State.reset.Inv

/-- Every step, from every state that meets it, keeps the invariant: BUSY is never seen set, ERR never holds an unused
code, K is zero until a key is loaded, a waiting host finds DONE set (log 19), and every buffer stays canonical and inside
its capacity. -/
def Obligations.EveryStepKeepsTheInvariant : Prop :=
  ∀ s t : State, s.Inv → step s = .next t → t.Inv

/-- R235, R255: a host that keeps the duties never stops the machine: from every state that meets the invariant with a
legal script, a step answers a next state of the same kind. A legal script makes only listed accesses (R236, R55, R61)
and reads STATUS after each CMD write before any other access (R236, R240; that one read is enough: log 14; how the model
keeps the wait: log 19); and its branches have their labels, which is no duty of R236 but the model's condition (log 12). -/
def Obligations.LegalScriptsNeverStop : Prop :=
  ∀ s : State, s.Inv → s.ScriptLegal → ∃ t, step s = .next t ∧ t.Inv ∧ t.ScriptLegal

/-- R16, R32, R167: no step's visible outcome depends on the hidden working state, on the counter that selects its free
values, or on NLANES: two states that differ only there step to states that differ only there. -/
def Obligations.HiddenStateAndLanesNeverMatter : Prop :=
  ∀ s s' t : State, Ref.forget s = Ref.forget s' → step s = .next t →
    ∃ t', step s' = .next t' ∧ Ref.forget t = Ref.forget t'

/-! ## The wait for DONE -/

/-- R240: the host waits from its `CMD` write on; while it waits it may access nothing but STATUS, a breach being the stop
accessBeforeDone (that a model gives it no meaning is R236 and 93 U5, the name is log 19); reading STATUS, which it may do
at any time, ends the wait when DONE reads as 1; and nothing else ends it but a BERR line, which reads STATUS too (R87),
and, by the model's choice, reset (log 19). -/
def Obligations.OnlyStatusUntilDoneIsRead : Prop :=
  (∀ (s : State) (w : Word), s.busy = false → s.awaiting = false → fetchLine s = some (.write .word 0 w) →
    ∃ t, step s = .next t ∧ t.awaiting = true ∧ t.done = true) ∧
  (∀ (s : State) (width : Width) (offset : BitVec 18) (v : Word) (line : HostLine), s.params.wellFormed = true →
    s.busy = false → s.awaiting = true → (line = .read width offset ∨ line = .write width offset v) →
    fetchLine s = some line → line ≠ .read .word 0x04 → Ref.Listed s.params width offset →
    step s = .refused .accessBeforeDone) ∧
  (∀ s : State, fetchLine s = some (.read .word 0x04) →
    step s = .next { s with
      pos := s.pos + 1, readData := s.status, awaiting := if s.done = true then false else s.awaiting }) ∧
  (∀ s t : State, step s = .next t → s.awaiting = true → t.awaiting = false →
    (s.done = true ∧ (fetchLine s = some (.read .word 0x04) ∨ ∃ name, fetchLine s = some (.berr name))) ∨
      fetchLine s = some .reset)
end

