-- ==== Sys2Proof/Laws/Bits.lean ====
section
/-! SUPPORT. Bytes of words and words of bytes; the rotations undo each other. -/

namespace Sys2Proof.Machine

/-- Byte `k` of a word as a number (spec/20_memory.md R50). -/
theorem leByte_toNat (v : Word) (k : Nat) : (leByte v k).toNat = v.toNat / 2 ^ (8 * k) % 256 := by
  simp [leByte, BitVec.extractLsb'_toNat, Nat.shiftRight_eq_div_pow]

/-- The word of four bytes as a number (spec/20_memory.md R50). -/
theorem leWord_toNat (b0 b1 b2 b3 : Byte) :
    (leWord b0 b1 b2 b3).toNat = b0.toNat + 2 ^ 8 * b1.toNat + 2 ^ 16 * b2.toNat + 2 ^ 24 * b3.toNat := by
  have h0 := b0.isLt
  have h1 := b1.isLt
  have h2 := b2.isLt
  simp only [leWord, BitVec.toNat_append]
  rw [← Nat.shiftLeft_add_eq_or_of_lt h2, ← Nat.shiftLeft_add_eq_or_of_lt h1, ← Nat.shiftLeft_add_eq_or_of_lt h0]
  simp only [Nat.shiftLeft_eq]
  omega

@[simp] theorem leByte_leWord_zero (b0 b1 b2 b3 : Byte) : leByte (leWord b0 b1 b2 b3) 0 = b0 := by
  apply BitVec.eq_of_toNat_eq
  rw [leByte_toNat, leWord_toNat]
  omega

@[simp] theorem leByte_leWord_one (b0 b1 b2 b3 : Byte) : leByte (leWord b0 b1 b2 b3) 1 = b1 := by
  apply BitVec.eq_of_toNat_eq
  rw [leByte_toNat, leWord_toNat]
  omega

@[simp] theorem leByte_leWord_two (b0 b1 b2 b3 : Byte) : leByte (leWord b0 b1 b2 b3) 2 = b2 := by
  apply BitVec.eq_of_toNat_eq
  rw [leByte_toNat, leWord_toNat]
  omega

@[simp] theorem leByte_leWord_three (b0 b1 b2 b3 : Byte) : leByte (leWord b0 b1 b2 b3) 3 = b3 := by
  apply BitVec.eq_of_toNat_eq
  rw [leByte_toNat, leWord_toNat]
  omega

/-- A word is the word of its four bytes. -/
@[simp] theorem leWord_leByte (v : Word) : leWord (leByte v 0) (leByte v 1) (leByte v 2) (leByte v 3) = v := by
  apply BitVec.eq_of_toNat_eq
  rw [leWord_toNat]
  simp only [leByte_toNat]
  omega

@[simp] theorem leBytes_length (v : Word) : (leBytes v).length = 4 := rfl

/-- The `k`th of a word's bytes. -/
theorem leBytes_getD (v : Word) {k : Nat} (hk : k < 4) : (leBytes v).getD k 0 = leByte v k := by
  match k, hk with
  | 0, _ => rfl
  | 1, _ => rfl
  | 2, _ => rfl
  | 3, _ => rfl

/-- A left rotation undoes a right rotation by the same amount (spec/00_scope.md R13). -/
theorem rotl8_rotr8 (b : Byte) {r : Nat} (hr : r < 8) : rotl8 (rotr8 b r) r = b := by
  have key : ∀ (r : Fin 8) (b : Byte), rotl8 (rotr8 b r) r = b := by decide
  exact key ⟨r, hr⟩ b

/-- A right rotation undoes a left rotation by the same amount (spec/00_scope.md R13). -/
theorem rotr8_rotl8 (b : Byte) {r : Nat} (hr : r < 8) : rotr8 (rotl8 b r) r = b := by
  have key : ∀ (r : Fin 8) (b : Byte), rotr8 (rotl8 b r) r = b := by decide
  exact key ⟨r, hr⟩ b

end Sys2Proof.Machine
end

