-- ==== Sys2Proof/Laws/Ciphers.lean ====
section
/-! SUPPORT. The two ciphers as functions on lists: they keep the length, and each direction undoes the other (the proof
sketches of spec/41_xxtea_core.md R127 and spec/42_bytestream.md R147). -/

namespace Sys2Proof.Machine

variable (kw : BitVec 2 → Word) (sum : Word)

/-! ### The word permutation -/

@[simp] theorem encWord_length (ws : List Word) (p : Nat) : (encWord kw sum ws p).length = ws.length := by
  simp [encWord]

@[simp] theorem decWord_length (ws : List Word) (p : Nat) : (decWord kw sum ws p).length = ws.length := by
  simp [decWord]

/-- Folding length-preserving updates keeps the length. -/
theorem foldl_length {α : Type} (f : List Word → α → List Word) (h : ∀ ws p, (f ws p).length = ws.length)
    (ps : List α) (ws : List Word) : (ps.foldl f ws).length = ws.length := by
  induction ps generalizing ws with
  | nil => rfl
  | cons p ps ih => simp [ih, h]

@[simp] theorem encSweep_length (ws : List Word) : (encSweep kw sum ws).length = ws.length :=
  foldl_length _ (encWord_length kw sum) _ _

@[simp] theorem decSweep_length (ws : List Word) : (decSweep kw sum ws).length = ws.length :=
  foldl_length _ (decWord_length kw sum) _ _

@[simp] theorem encSweeps_length (r : Nat) (sum : Word) (ws : List Word) :
    (encSweeps kw r sum ws).length = ws.length := by
  induction r generalizing sum ws with
  | zero => rfl
  | succ r ih => simp [encSweeps, ih]

@[simp] theorem decSweeps_length (r : Nat) (sum : Word) (ws : List Word) :
    (decSweeps kw r sum ws).length = ws.length := by
  induction r generalizing sum ws with
  | zero => rfl
  | succ r ih => simp [decSweeps, ih]

@[simp] theorem encryptWords_length (ws : List Word) : (encryptWords kw ws).length = ws.length := by
  simp [encryptWords]

@[simp] theorem decryptWords_length (ws : List Word) : (decryptWords kw ws).length = ws.length := by
  simp [decryptWords]

/-- MX at word `p` does not read word `p` (spec/41_xxtea_core.md R127). -/
theorem mxAt_set_self {ws : List Word} {p : Nat} (hn : 2 ≤ ws.length) (hp : p < ws.length) (v : Word) :
    mxAt kw sum (ws.set p v) p = mxAt kw sum ws p := by
  have h1 : p ≠ (p + ws.length - 1) % ws.length := by
    rcases Nat.eq_zero_or_pos p with h | h
    · subst h; rw [Nat.mod_eq_of_lt (by omega)]; omega
    · have : p + ws.length - 1 = (p - 1) + ws.length := by omega
      rw [this, Nat.add_mod_right, Nat.mod_eq_of_lt (by omega)]; omega
  have h2 : p ≠ (p + 1) % ws.length := by
    by_cases h : p + 1 = ws.length
    · rw [h, Nat.mod_self]; omega
    · rw [Nat.mod_eq_of_lt (by omega)]; omega
  simp [mxAt, List.getD_eq_getElem?_getD, List.getElem?_set_ne h1, List.getElem?_set_ne h2]

theorem decWord_encWord {ws : List Word} {p : Nat} (hn : 2 ≤ ws.length) (hp : p < ws.length) :
    decWord kw sum (encWord kw sum ws p) p = ws := by
  unfold decWord encWord
  rw [mxAt_set_self kw sum hn hp]
  simp [List.getD_eq_getElem?_getD, hp]

theorem encWord_decWord {ws : List Word} {p : Nat} (hn : 2 ≤ ws.length) (hp : p < ws.length) :
    encWord kw sum (decWord kw sum ws p) p = ws := by
  unfold decWord encWord
  rw [mxAt_set_self kw sum hn hp]
  simp [List.getD_eq_getElem?_getD, hp]

/-- Undoing a sequence of updates in the opposite order. -/
theorem foldl_reverse_undo {f g : List Word → Nat → List Word} {n : Nat}
    (hf : ∀ ws p, (f ws p).length = ws.length)
    (hgf : ∀ ws p, ws.length = n → p < n → g (f ws p) p = ws) (ps : List Nat) (hps : ∀ p ∈ ps, p < n)
    (ws : List Word) (hws : ws.length = n) : ps.reverse.foldl g (ps.foldl f ws) = ws := by
  induction ps generalizing ws with
  | nil => rfl
  | cons p ps ih =>
    simp only [List.reverse_cons, List.foldl_cons, List.foldl_append, List.foldl_nil]
    rw [ih (fun q hq => hps q (by simp [hq])) (f ws p) (by rw [hf, hws])]
    exact hgf ws p hws (hps p (by simp))

/-- A backward sweep undoes a forward sweep with the same `sum`. -/
theorem decSweep_encSweep {ws : List Word} (hn : 2 ≤ ws.length) : decSweep kw sum (encSweep kw sum ws) = ws := by
  unfold decSweep
  rw [encSweep_length]
  exact foldl_reverse_undo (encWord_length kw sum)
    (fun ws' p h hp => decWord_encWord kw sum (by omega) (by omega)) _ (by simp) ws rfl

/-- A forward sweep undoes a backward sweep with the same `sum`. -/
theorem encSweep_decSweep {ws : List Word} (hn : 2 ≤ ws.length) : encSweep kw sum (decSweep kw sum ws) = ws := by
  unfold encSweep
  rw [decSweep_length]
  have h := foldl_reverse_undo (f := decWord kw sum) (g := encWord kw sum) (n := ws.length) (decWord_length kw sum)
    (fun ws' p h hp => encWord_decWord kw sum (by omega) (by omega)) (List.range ws.length).reverse (by simp) ws rfl
  simpa [decSweep] using h

/-- The accumulator after one more step (spec/41_xxtea_core.md R125). -/
theorem ofNat_succ_mul (r : Nat) (d : Word) : BitVec.ofNat 32 (r + 1) * d = BitVec.ofNat 32 r * d + d := by
  have h : ∀ x : Word, (x + 1) * d = x * d + d := fun x => by ring
  rw [BitVec.ofNat_add]
  exact h _

/-- The last of `r + 1` forward sweeps. -/
theorem encSweeps_succ (r : Nat) (sum : Word) (ws : List Word) :
    encSweeps kw (r + 1) sum ws =
      encSweep kw (sum + BitVec.ofNat 32 (r + 1) * delta) (encSweeps kw r sum ws) := by
  induction r generalizing sum ws with
  | zero => simp [encSweeps]
  | succ r ih =>
    rw [encSweeps, ih (sum + delta), encSweeps]
    have : sum + delta + BitVec.ofNat 32 (r + 1) * delta = sum + BitVec.ofNat 32 (r + 1 + 1) * delta := by
      rw [ofNat_succ_mul (r + 1)]; ring
    rw [this]

theorem decSweeps_encSweeps (r : Nat) {ws : List Word} (hn : 2 ≤ ws.length) :
    decSweeps kw r (BitVec.ofNat 32 r * delta) (encSweeps kw r 0 ws) = ws := by
  induction r with
  | zero => rfl
  | succ r ih =>
    have h1 : (0 : Word) + BitVec.ofNat 32 (r + 1) * delta = BitVec.ofNat 32 (r + 1) * delta := by ring
    have h2 : BitVec.ofNat 32 (r + 1) * delta - delta = BitVec.ofNat 32 r * delta := by
      rw [ofNat_succ_mul]; ring
    rw [encSweeps_succ, h1, decSweeps, decSweep_encSweep kw _ (by simpa using hn), h2, ih]

theorem encSweeps_decSweeps (r : Nat) {ws : List Word} (hn : 2 ≤ ws.length) :
    encSweeps kw r 0 (decSweeps kw r (BitVec.ofNat 32 r * delta) ws) = ws := by
  induction r generalizing ws with
  | zero => rfl
  | succ r ih =>
    have h1 : (0 : Word) + BitVec.ofNat 32 (r + 1) * delta = BitVec.ofNat 32 (r + 1) * delta := by ring
    have h2 : BitVec.ofNat 32 (r + 1) * delta - delta = BitVec.ofNat 32 r * delta := by
      rw [ofNat_succ_mul]; ring
    rw [encSweeps_succ, h1, decSweeps, h2, ih (by simpa using hn), encSweep_decSweep kw _ hn]

/-- Decryption undoes encryption on two words or more. -/
theorem decryptWords_encryptWords {ws : List Word} (hn : 2 ≤ ws.length) :
    decryptWords kw (encryptWords kw ws) = ws := by
  unfold decryptWords
  rw [encryptWords_length]
  exact decSweeps_encSweeps kw _ hn

/-- Encryption undoes decryption on two words or more. -/
theorem encryptWords_decryptWords {ws : List Word} (hn : 2 ≤ ws.length) :
    encryptWords kw (decryptWords kw ws) = ws := by
  unfold encryptWords
  rw [decryptWords_length]
  exact encSweeps_decSweeps kw _ hn

/-! ### The byte cipher -/

variable (key : Key)

@[simp] theorem encFrom_length (len i : Nat) (prevOut : Byte) (bs : List Byte) :
    (encFrom key len i prevOut bs).length = bs.length := by
  induction bs generalizing i prevOut with
  | nil => rfl
  | cons b bs ih => simp [encFrom, ih]

@[simp] theorem decFrom_length (len i : Nat) (prevOut : Byte) (bs : List Byte) :
    (decFrom key len i prevOut bs).length = bs.length := by
  induction bs generalizing i prevOut with
  | nil => rfl
  | cons b bs ih => simp [decFrom, ih]

@[simp] theorem encSpan_length (bs : List Byte) : (encSpan key bs).length = bs.length := by simp [encSpan]

@[simp] theorem decSpan_length (bs : List Byte) : (decSpan key bs).length = bs.length := by simp [decSpan]

theorem outRotation_lt (prevOut : Byte) : outRotation prevOut < 8 := by unfold outRotation; omega

theorem decByte_encByte (len i : Nat) (prevOut b : Byte) : decByte key len i prevOut (encByte key len i prevOut b) = b := by
  simp [decByte, encByte, rotl8_rotr8 _ (outRotation_lt prevOut)]

theorem encByte_decByte (len i : Nat) (prevOut c : Byte) : encByte key len i prevOut (decByte key len i prevOut c) = c := by
  simp [decByte, encByte, rotr8_rotl8 _ (outRotation_lt prevOut)]

theorem decFrom_encFrom (len i : Nat) (prevOut : Byte) (bs : List Byte) :
    decFrom key len i prevOut (encFrom key len i prevOut bs) = bs := by
  induction bs generalizing i prevOut with
  | nil => rfl
  | cons b bs ih => simp [encFrom, decFrom, decByte_encByte, ih]

theorem encFrom_decFrom (len i : Nat) (prevOut : Byte) (bs : List Byte) :
    encFrom key len i prevOut (decFrom key len i prevOut bs) = bs := by
  induction bs generalizing i prevOut with
  | nil => rfl
  | cons b bs ih => simp [encFrom, decFrom, encByte_decByte, ih]

/-- Decryption of a span undoes its encryption. -/
theorem decSpan_encSpan (bs : List Byte) : decSpan key (encSpan key bs) = bs := by
  simp [decSpan, encSpan, decFrom_encFrom]

/-- Encryption of a span undoes its decryption. -/
theorem encSpan_decSpan (bs : List Byte) : encSpan key (decSpan key bs) = bs := by
  simp [decSpan, encSpan, encFrom_decFrom]

end Sys2Proof.Machine
end

