-- ==== Sys2Proof/Laws/Memory.lean ====
section
/-! SUPPORT. The laws of buffers: a read after a write, and that every write keeps the canonical form. -/

namespace Sys2Proof.Machine

variable {n : Nat}

@[simp] theorem Memory.get?_nil (i : Nat) : Memory.get? ([] : Memory n) i = none := rfl

/-- A read after a write: the written value at the written index, the old one elsewhere. -/
theorem Memory.get?_put (m : Memory n) (i : Nat) (v : BitVec n) (j : Nat) :
    Memory.get? (Memory.put m i v) j = if j = i then some v else Memory.get? m j := by
  induction m with
  | nil => simp [Memory.put, Memory.get?]
  | cons head m ih =>
    obtain ⟨a, u⟩ := head
    by_cases h1 : i < a
    · simp [Memory.put, Memory.get?, h1]
    · by_cases h2 : i = a
      · subst h2
        by_cases h3 : j = i <;> simp [Memory.put, Memory.get?, h3]
      · simp only [Memory.put, h1, h2, if_false, Memory.get?, ih]
        by_cases h3 : j = a
        · simp [h3, Ne.symm h2]
        · simp [h3]

/-- A read after a write of consecutive elements. -/
theorem Memory.get?_putRange (vs : List (BitVec n)) (m : Memory n) (i j : Nat) :
    Memory.get? (Memory.putRange m i vs) j = if i ≤ j ∧ j < i + vs.length then vs[j - i]? else Memory.get? m j := by
  induction vs generalizing m i with
  | nil => simp [Memory.putRange]
  | cons v vs ih =>
    rw [Memory.putRange, ih, Memory.get?_put]
    by_cases h1 : i + 1 ≤ j ∧ j < i + 1 + vs.length
    · have h2 : i ≤ j ∧ j < i + (v :: vs).length := by simp; omega
      have h3 : j - i = (j - (i + 1)) + 1 := by omega
      rw [if_pos h1, if_pos h2, h3, List.getElem?_cons_succ]
    · by_cases h2 : j = i
      · subst h2; simp
      · have h3 : ¬ (i ≤ j ∧ j < i + (v :: vs).length) := by simp; omega
        simp only [h1, h2, h3, if_false]

/-- A lower start bound is weaker. -/
theorem Memory.wfFrom_mono {lo lo' cap : Nat} {m : Memory n} (h : lo' ≤ lo) (hm : Memory.wfFrom lo cap m = true) :
    Memory.wfFrom lo' cap m = true := by
  cases m with
  | nil => rfl
  | cons head m =>
    obtain ⟨a, u⟩ := head
    simp only [Memory.wfFrom, Bool.and_eq_true, decide_eq_true_eq] at hm ⊢
    exact ⟨⟨by omega, hm.1.2⟩, hm.2⟩

theorem Memory.wfFrom_put {lo cap i : Nat} {m : Memory n} (v : BitVec n) (hlo : lo ≤ i) (hi : i < cap)
    (hm : Memory.wfFrom lo cap m = true) : Memory.wfFrom lo cap (Memory.put m i v) = true := by
  induction m generalizing lo with
  | nil => simp [Memory.put, Memory.wfFrom, hlo, hi]
  | cons head m ih =>
    obtain ⟨a, u⟩ := head
    simp only [Memory.wfFrom, Bool.and_eq_true, decide_eq_true_eq] at hm
    obtain ⟨⟨h1, h2⟩, h3⟩ := hm
    by_cases h4 : i < a
    · simp [Memory.put, h4, Memory.wfFrom, hlo, hi, h2, h3]
    · by_cases h5 : i = a
      · subst h5; simp [Memory.put, Memory.wfFrom, hlo, hi, h3]
      · simp only [Memory.put, h4, h5, if_false, Memory.wfFrom, Bool.and_eq_true, decide_eq_true_eq]
        exact ⟨⟨h1, h2⟩, ih (by omega) h3⟩

/-- A write inside the capacity keeps the canonical form. -/
theorem Memory.wf_put {cap i : Nat} {m : Memory n} (v : BitVec n) (hi : i < cap) (hm : Memory.wf cap m = true) :
    Memory.wf cap (Memory.put m i v) = true :=
  Memory.wfFrom_put v (Nat.zero_le i) hi hm

/-- A write of consecutive elements inside the capacity keeps the canonical form. -/
theorem Memory.wf_putRange {cap : Nat} (vs : List (BitVec n)) {m : Memory n} {i : Nat} (hi : i + vs.length ≤ cap)
    (hm : Memory.wf cap m = true) : Memory.wf cap (Memory.putRange m i vs) = true := by
  induction vs generalizing m i with
  | nil => exact hm
  | cons v vs ih =>
    simp only [List.length_cons] at hi
    exact ih (by omega) (Memory.wf_put v (by omega) hm)

/-- In canonical form nothing is listed below the start bound. -/
theorem Memory.get?_of_lt {lo cap i : Nat} {m : Memory n} (hm : Memory.wfFrom lo cap m = true) (hi : i < lo) :
    Memory.get? m i = none := by
  induction m generalizing lo with
  | nil => rfl
  | cons head m ih =>
    obtain ⟨a, u⟩ := head
    simp only [Memory.wfFrom, Bool.and_eq_true, decide_eq_true_eq] at hm
    have : i ≠ a := by omega
    simp [Memory.get?, this, ih hm.2 (by omega)]

/-- In canonical form nothing is listed at or above the capacity. -/
theorem Memory.get?_of_cap_le {lo cap i : Nat} {m : Memory n} (hm : Memory.wfFrom lo cap m = true) (hi : cap ≤ i) :
    Memory.get? m i = none := by
  induction m generalizing lo with
  | nil => rfl
  | cons head m ih =>
    obtain ⟨a, u⟩ := head
    simp only [Memory.wfFrom, Bool.and_eq_true, decide_eq_true_eq] at hm
    have : i ≠ a := by omega
    simp [Memory.get?, this, ih hm.2]

/-- The form is canonical: two buffers that read alike are the same data. -/
theorem Memory.ext_of_wfFrom {lo cap : Nat} {m₁ m₂ : Memory n} (h₁ : Memory.wfFrom lo cap m₁ = true)
    (h₂ : Memory.wfFrom lo cap m₂ = true) (h : ∀ i, Memory.get? m₁ i = Memory.get? m₂ i) : m₁ = m₂ := by
  induction m₁ generalizing lo m₂ with
  | nil =>
    cases m₂ with
    | nil => rfl
    | cons head m₂ => simpa [Memory.get?] using h head.1
  | cons head₁ m₁ ih =>
    obtain ⟨a₁, u₁⟩ := head₁
    cases m₂ with
    | nil => simpa [Memory.get?] using h a₁
    | cons head₂ m₂ =>
      obtain ⟨a₂, u₂⟩ := head₂
      simp only [Memory.wfFrom, Bool.and_eq_true, decide_eq_true_eq] at h₁ h₂
      have ha : a₁ = a₂ := by
        rcases Nat.lt_trichotomy a₁ a₂ with hlt | heq | hlt
        · have := h a₁
          simp [Memory.get?, Nat.ne_of_lt hlt, Memory.get?_of_lt h₂.2 (show a₁ < a₂ + 1 by omega)] at this
        · exact heq
        · have := h a₂
          simp [Memory.get?, Nat.ne_of_lt hlt, Memory.get?_of_lt h₁.2 (show a₂ < a₁ + 1 by omega)] at this
      subst ha
      have hu : u₁ = u₂ := by simpa [Memory.get?] using h a₁
      subst hu
      rw [ih h₁.2 h₂.2]
      intro i
      by_cases hi : i = a₁
      · subst hi; rw [Memory.get?_of_lt h₁.2 (by omega), Memory.get?_of_lt h₂.2 (by omega)]
      · simpa [Memory.get?, hi] using h i

/-- Two buffers in canonical form that read alike at every index are equal. -/
theorem Memory.ext_of_wf {cap : Nat} {m₁ m₂ : Memory n} (h₁ : Memory.wf cap m₁ = true) (h₂ : Memory.wf cap m₂ = true)
    (h : ∀ i, Memory.get? m₁ i = Memory.get? m₂ i) : m₁ = m₂ :=
  Memory.ext_of_wfFrom h₁ h₂ h

end Sys2Proof.Machine
end

