-- ==== Sys2Proof/Laws/State.lean ====
section
/-! SUPPORT. What each update of the state does to each field: one lemma per field per update, so that no later proof
unfolds a record update; then what the updates that touch no buffer leave of the operand reads. -/

namespace Sys2Proof.Machine

variable (s : State)

/-! ### `State.advance` -/

@[simp] theorem State.advance_params : (s.advance).params = s.params := rfl
@[simp] theorem State.advance_w : (s.advance).w = s.w := rfl
@[simp] theorem State.advance_wcnt : (s.advance).wcnt = s.wcnt := rfl
@[simp] theorem State.advance_b : (s.advance).b = s.b := rfl
@[simp] theorem State.advance_blen : (s.advance).blen = s.blen := rfl
@[simp] theorem State.advance_k : (s.advance).k = s.k := rfl
@[simp] theorem State.advance_keyv : (s.advance).keyv = s.keyv := rfl
@[simp] theorem State.advance_kin : (s.advance).kin = s.kin := rfl
@[simp] theorem State.advance_klen : (s.advance).klen = s.klen := rfl
@[simp] theorem State.advance_busy : (s.advance).busy = s.busy := rfl
@[simp] theorem State.advance_done : (s.advance).done = s.done := rfl
@[simp] theorem State.advance_err : (s.advance).err = s.err := rfl
@[simp] theorem State.advance_hidden : (s.advance).hidden = s.hidden := rfl
@[simp] theorem State.advance_epoch : (s.advance).epoch = s.epoch := rfl
@[simp] theorem State.advance_finished : (s.advance).finished = s.finished := rfl
@[simp] theorem State.advance_script : (s.advance).script = s.script := rfl
@[simp] theorem State.advance_pos : (s.advance).pos = s.pos + 1 := rfl
@[simp] theorem State.advance_readData : (s.advance).readData = s.readData := rfl
@[simp] theorem State.advance_awaiting : (s.advance).awaiting = s.awaiting := rfl

/-! ### `State.readStatus` -/

@[simp] theorem State.readStatus_params : (s.readStatus).params = s.params := rfl
@[simp] theorem State.readStatus_w : (s.readStatus).w = s.w := rfl
@[simp] theorem State.readStatus_wcnt : (s.readStatus).wcnt = s.wcnt := rfl
@[simp] theorem State.readStatus_b : (s.readStatus).b = s.b := rfl
@[simp] theorem State.readStatus_blen : (s.readStatus).blen = s.blen := rfl
@[simp] theorem State.readStatus_k : (s.readStatus).k = s.k := rfl
@[simp] theorem State.readStatus_keyv : (s.readStatus).keyv = s.keyv := rfl
@[simp] theorem State.readStatus_kin : (s.readStatus).kin = s.kin := rfl
@[simp] theorem State.readStatus_klen : (s.readStatus).klen = s.klen := rfl
@[simp] theorem State.readStatus_busy : (s.readStatus).busy = s.busy := rfl
@[simp] theorem State.readStatus_done : (s.readStatus).done = s.done := rfl
@[simp] theorem State.readStatus_err : (s.readStatus).err = s.err := rfl
@[simp] theorem State.readStatus_hidden : (s.readStatus).hidden = s.hidden := rfl
@[simp] theorem State.readStatus_epoch : (s.readStatus).epoch = s.epoch := rfl
@[simp] theorem State.readStatus_finished : (s.readStatus).finished = s.finished := rfl
@[simp] theorem State.readStatus_script : (s.readStatus).script = s.script := rfl
@[simp] theorem State.readStatus_pos : (s.readStatus).pos = s.pos := rfl
@[simp] theorem State.readStatus_readData : (s.readStatus).readData = s.status := rfl
@[simp] theorem State.readStatus_awaiting : (s.readStatus).awaiting = (s.awaiting && !s.done) := rfl

/-! ### `State.await` -/

@[simp] theorem State.await_params : (s.await).params = s.params := rfl
@[simp] theorem State.await_w : (s.await).w = s.w := rfl
@[simp] theorem State.await_wcnt : (s.await).wcnt = s.wcnt := rfl
@[simp] theorem State.await_b : (s.await).b = s.b := rfl
@[simp] theorem State.await_blen : (s.await).blen = s.blen := rfl
@[simp] theorem State.await_k : (s.await).k = s.k := rfl
@[simp] theorem State.await_keyv : (s.await).keyv = s.keyv := rfl
@[simp] theorem State.await_kin : (s.await).kin = s.kin := rfl
@[simp] theorem State.await_klen : (s.await).klen = s.klen := rfl
@[simp] theorem State.await_busy : (s.await).busy = s.busy := rfl
@[simp] theorem State.await_done : (s.await).done = s.done := rfl
@[simp] theorem State.await_err : (s.await).err = s.err := rfl
@[simp] theorem State.await_hidden : (s.await).hidden = s.hidden := rfl
@[simp] theorem State.await_epoch : (s.await).epoch = s.epoch := rfl
@[simp] theorem State.await_finished : (s.await).finished = s.finished := rfl
@[simp] theorem State.await_script : (s.await).script = s.script := rfl
@[simp] theorem State.await_pos : (s.await).pos = s.pos := rfl
@[simp] theorem State.await_readData : (s.await).readData = s.readData := rfl
@[simp] theorem State.await_awaiting : (s.await).awaiting = true := rfl

/-! ### `State.accept` -/

@[simp] theorem State.accept_params : (s.accept).params = s.params := rfl
@[simp] theorem State.accept_w : (s.accept).w = s.w := rfl
@[simp] theorem State.accept_wcnt : (s.accept).wcnt = s.wcnt := rfl
@[simp] theorem State.accept_b : (s.accept).b = s.b := rfl
@[simp] theorem State.accept_blen : (s.accept).blen = s.blen := rfl
@[simp] theorem State.accept_k : (s.accept).k = s.k := rfl
@[simp] theorem State.accept_keyv : (s.accept).keyv = s.keyv := rfl
@[simp] theorem State.accept_kin : (s.accept).kin = s.kin := rfl
@[simp] theorem State.accept_klen : (s.accept).klen = s.klen := rfl
@[simp] theorem State.accept_busy : (s.accept).busy = true := rfl
@[simp] theorem State.accept_done : (s.accept).done = false := rfl
@[simp] theorem State.accept_err : (s.accept).err = 0 := rfl
@[simp] theorem State.accept_hidden : (s.accept).hidden = s.hidden := rfl
@[simp] theorem State.accept_epoch : (s.accept).epoch = s.epoch := rfl
@[simp] theorem State.accept_finished : (s.accept).finished = s.finished := rfl
@[simp] theorem State.accept_script : (s.accept).script = s.script := rfl
@[simp] theorem State.accept_pos : (s.accept).pos = s.pos := rfl
@[simp] theorem State.accept_readData : (s.accept).readData = s.readData := rfl
@[simp] theorem State.accept_awaiting : (s.accept).awaiting = s.awaiting := rfl

/-! ### `State.complete` -/

@[simp] theorem State.complete_params (c : BitVec 4) : (State.complete c s).params = s.params := rfl
@[simp] theorem State.complete_w (c : BitVec 4) : (State.complete c s).w = s.w := rfl
@[simp] theorem State.complete_wcnt (c : BitVec 4) : (State.complete c s).wcnt = s.wcnt := rfl
@[simp] theorem State.complete_b (c : BitVec 4) : (State.complete c s).b = s.b := rfl
@[simp] theorem State.complete_blen (c : BitVec 4) : (State.complete c s).blen = s.blen := rfl
@[simp] theorem State.complete_k (c : BitVec 4) : (State.complete c s).k = s.k := rfl
@[simp] theorem State.complete_keyv (c : BitVec 4) : (State.complete c s).keyv = s.keyv := rfl
@[simp] theorem State.complete_kin (c : BitVec 4) : (State.complete c s).kin = s.kin := rfl
@[simp] theorem State.complete_klen (c : BitVec 4) : (State.complete c s).klen = s.klen := rfl
@[simp] theorem State.complete_busy (c : BitVec 4) : (State.complete c s).busy = false := rfl
@[simp] theorem State.complete_done (c : BitVec 4) : (State.complete c s).done = true := rfl
@[simp] theorem State.complete_err (c : BitVec 4) : (State.complete c s).err = c := rfl
@[simp] theorem State.complete_hidden (c : BitVec 4) : (State.complete c s).hidden = s.hidden := rfl
@[simp] theorem State.complete_epoch (c : BitVec 4) : (State.complete c s).epoch = s.epoch := rfl
@[simp] theorem State.complete_finished (c : BitVec 4) : (State.complete c s).finished = s.finished := rfl
@[simp] theorem State.complete_script (c : BitVec 4) : (State.complete c s).script = s.script := rfl
@[simp] theorem State.complete_pos (c : BitVec 4) : (State.complete c s).pos = s.pos := rfl
@[simp] theorem State.complete_readData (c : BitVec 4) : (State.complete c s).readData = s.readData := rfl
@[simp] theorem State.complete_awaiting (c : BitVec 4) : (State.complete c s).awaiting = s.awaiting := rfl

/-! ### `State.spendHidden` -/

@[simp] theorem State.spendHidden_params : (s.spendHidden).params = s.params := rfl
@[simp] theorem State.spendHidden_w : (s.spendHidden).w = s.w := rfl
@[simp] theorem State.spendHidden_wcnt : (s.spendHidden).wcnt = s.wcnt := rfl
@[simp] theorem State.spendHidden_b : (s.spendHidden).b = s.b := rfl
@[simp] theorem State.spendHidden_blen : (s.spendHidden).blen = s.blen := rfl
@[simp] theorem State.spendHidden_k : (s.spendHidden).k = s.k := rfl
@[simp] theorem State.spendHidden_keyv : (s.spendHidden).keyv = s.keyv := rfl
@[simp] theorem State.spendHidden_kin : (s.spendHidden).kin = s.kin := rfl
@[simp] theorem State.spendHidden_klen : (s.spendHidden).klen = s.klen := rfl
@[simp] theorem State.spendHidden_busy : (s.spendHidden).busy = s.busy := rfl
@[simp] theorem State.spendHidden_done : (s.spendHidden).done = s.done := rfl
@[simp] theorem State.spendHidden_err : (s.spendHidden).err = s.err := rfl
@[simp] theorem State.spendHidden_hidden : (s.spendHidden).hidden = Config.hiddenAfter s.finished := rfl
@[simp] theorem State.spendHidden_epoch : (s.spendHidden).epoch = s.epoch := rfl
@[simp] theorem State.spendHidden_finished : (s.spendHidden).finished = s.finished + 1 := rfl
@[simp] theorem State.spendHidden_script : (s.spendHidden).script = s.script := rfl
@[simp] theorem State.spendHidden_pos : (s.spendHidden).pos = s.pos := rfl
@[simp] theorem State.spendHidden_readData : (s.spendHidden).readData = s.readData := rfl
@[simp] theorem State.spendHidden_awaiting : (s.spendHidden).awaiting = s.awaiting := rfl

/-! ### `State.loadKey` -/

@[simp] theorem State.loadKey_params (key : Key) : (State.loadKey key s).params = s.params := rfl
@[simp] theorem State.loadKey_w (key : Key) : (State.loadKey key s).w = s.w := rfl
@[simp] theorem State.loadKey_wcnt (key : Key) : (State.loadKey key s).wcnt = s.wcnt := rfl
@[simp] theorem State.loadKey_b (key : Key) : (State.loadKey key s).b = s.b := rfl
@[simp] theorem State.loadKey_blen (key : Key) : (State.loadKey key s).blen = s.blen := rfl
@[simp] theorem State.loadKey_k (key : Key) : (State.loadKey key s).k = key := rfl
@[simp] theorem State.loadKey_keyv (key : Key) : (State.loadKey key s).keyv = true := rfl
@[simp] theorem State.loadKey_kin (key : Key) : (State.loadKey key s).kin = s.kin := rfl
@[simp] theorem State.loadKey_klen (key : Key) : (State.loadKey key s).klen = s.klen := rfl
@[simp] theorem State.loadKey_busy (key : Key) : (State.loadKey key s).busy = s.busy := rfl
@[simp] theorem State.loadKey_done (key : Key) : (State.loadKey key s).done = s.done := rfl
@[simp] theorem State.loadKey_err (key : Key) : (State.loadKey key s).err = s.err := rfl
@[simp] theorem State.loadKey_hidden (key : Key) : (State.loadKey key s).hidden = s.hidden := rfl
@[simp] theorem State.loadKey_epoch (key : Key) : (State.loadKey key s).epoch = s.epoch := rfl
@[simp] theorem State.loadKey_finished (key : Key) : (State.loadKey key s).finished = s.finished := rfl
@[simp] theorem State.loadKey_script (key : Key) : (State.loadKey key s).script = s.script := rfl
@[simp] theorem State.loadKey_pos (key : Key) : (State.loadKey key s).pos = s.pos := rfl
@[simp] theorem State.loadKey_readData (key : Key) : (State.loadKey key s).readData = s.readData := rfl
@[simp] theorem State.loadKey_awaiting (key : Key) : (State.loadKey key s).awaiting = s.awaiting := rfl

/-! ### `State.putWords` -/

@[simp] theorem State.putWords_params (ws : List Word) : (State.putWords ws s).params = s.params := rfl
@[simp] theorem State.putWords_w (ws : List Word) : (State.putWords ws s).w = Memory.putRange s.w 0 ws := rfl
@[simp] theorem State.putWords_wcnt (ws : List Word) : (State.putWords ws s).wcnt = s.wcnt := rfl
@[simp] theorem State.putWords_b (ws : List Word) : (State.putWords ws s).b = s.b := rfl
@[simp] theorem State.putWords_blen (ws : List Word) : (State.putWords ws s).blen = s.blen := rfl
@[simp] theorem State.putWords_k (ws : List Word) : (State.putWords ws s).k = s.k := rfl
@[simp] theorem State.putWords_keyv (ws : List Word) : (State.putWords ws s).keyv = s.keyv := rfl
@[simp] theorem State.putWords_kin (ws : List Word) : (State.putWords ws s).kin = s.kin := rfl
@[simp] theorem State.putWords_klen (ws : List Word) : (State.putWords ws s).klen = s.klen := rfl
@[simp] theorem State.putWords_busy (ws : List Word) : (State.putWords ws s).busy = s.busy := rfl
@[simp] theorem State.putWords_done (ws : List Word) : (State.putWords ws s).done = s.done := rfl
@[simp] theorem State.putWords_err (ws : List Word) : (State.putWords ws s).err = s.err := rfl
@[simp] theorem State.putWords_hidden (ws : List Word) : (State.putWords ws s).hidden = s.hidden := rfl
@[simp] theorem State.putWords_epoch (ws : List Word) : (State.putWords ws s).epoch = s.epoch := rfl
@[simp] theorem State.putWords_finished (ws : List Word) : (State.putWords ws s).finished = s.finished := rfl
@[simp] theorem State.putWords_script (ws : List Word) : (State.putWords ws s).script = s.script := rfl
@[simp] theorem State.putWords_pos (ws : List Word) : (State.putWords ws s).pos = s.pos := rfl
@[simp] theorem State.putWords_readData (ws : List Word) : (State.putWords ws s).readData = s.readData := rfl
@[simp] theorem State.putWords_awaiting (ws : List Word) : (State.putWords ws s).awaiting = s.awaiting := rfl

/-! ### `State.putBytes` -/

@[simp] theorem State.putBytes_params (bs : List Byte) : (State.putBytes bs s).params = s.params := rfl
@[simp] theorem State.putBytes_w (bs : List Byte) : (State.putBytes bs s).w = s.w := rfl
@[simp] theorem State.putBytes_wcnt (bs : List Byte) : (State.putBytes bs s).wcnt = s.wcnt := rfl
@[simp] theorem State.putBytes_b (bs : List Byte) : (State.putBytes bs s).b = Memory.putRange s.b 0 bs := rfl
@[simp] theorem State.putBytes_blen (bs : List Byte) : (State.putBytes bs s).blen = s.blen := rfl
@[simp] theorem State.putBytes_k (bs : List Byte) : (State.putBytes bs s).k = s.k := rfl
@[simp] theorem State.putBytes_keyv (bs : List Byte) : (State.putBytes bs s).keyv = s.keyv := rfl
@[simp] theorem State.putBytes_kin (bs : List Byte) : (State.putBytes bs s).kin = s.kin := rfl
@[simp] theorem State.putBytes_klen (bs : List Byte) : (State.putBytes bs s).klen = s.klen := rfl
@[simp] theorem State.putBytes_busy (bs : List Byte) : (State.putBytes bs s).busy = s.busy := rfl
@[simp] theorem State.putBytes_done (bs : List Byte) : (State.putBytes bs s).done = s.done := rfl
@[simp] theorem State.putBytes_err (bs : List Byte) : (State.putBytes bs s).err = s.err := rfl
@[simp] theorem State.putBytes_hidden (bs : List Byte) : (State.putBytes bs s).hidden = s.hidden := rfl
@[simp] theorem State.putBytes_epoch (bs : List Byte) : (State.putBytes bs s).epoch = s.epoch := rfl
@[simp] theorem State.putBytes_finished (bs : List Byte) : (State.putBytes bs s).finished = s.finished := rfl
@[simp] theorem State.putBytes_script (bs : List Byte) : (State.putBytes bs s).script = s.script := rfl
@[simp] theorem State.putBytes_pos (bs : List Byte) : (State.putBytes bs s).pos = s.pos := rfl
@[simp] theorem State.putBytes_readData (bs : List Byte) : (State.putBytes bs s).readData = s.readData := rfl
@[simp] theorem State.putBytes_awaiting (bs : List Byte) : (State.putBytes bs s).awaiting = s.awaiting := rfl

/-! ### `State.setWcnt` -/

@[simp] theorem State.setWcnt_params (n : Nat) : (State.setWcnt n s).params = s.params := rfl
@[simp] theorem State.setWcnt_w (n : Nat) : (State.setWcnt n s).w = s.w := rfl
@[simp] theorem State.setWcnt_wcnt (n : Nat) : (State.setWcnt n s).wcnt = BitVec.ofNat 32 n := rfl
@[simp] theorem State.setWcnt_b (n : Nat) : (State.setWcnt n s).b = s.b := rfl
@[simp] theorem State.setWcnt_blen (n : Nat) : (State.setWcnt n s).blen = s.blen := rfl
@[simp] theorem State.setWcnt_k (n : Nat) : (State.setWcnt n s).k = s.k := rfl
@[simp] theorem State.setWcnt_keyv (n : Nat) : (State.setWcnt n s).keyv = s.keyv := rfl
@[simp] theorem State.setWcnt_kin (n : Nat) : (State.setWcnt n s).kin = s.kin := rfl
@[simp] theorem State.setWcnt_klen (n : Nat) : (State.setWcnt n s).klen = s.klen := rfl
@[simp] theorem State.setWcnt_busy (n : Nat) : (State.setWcnt n s).busy = s.busy := rfl
@[simp] theorem State.setWcnt_done (n : Nat) : (State.setWcnt n s).done = s.done := rfl
@[simp] theorem State.setWcnt_err (n : Nat) : (State.setWcnt n s).err = s.err := rfl
@[simp] theorem State.setWcnt_hidden (n : Nat) : (State.setWcnt n s).hidden = s.hidden := rfl
@[simp] theorem State.setWcnt_epoch (n : Nat) : (State.setWcnt n s).epoch = s.epoch := rfl
@[simp] theorem State.setWcnt_finished (n : Nat) : (State.setWcnt n s).finished = s.finished := rfl
@[simp] theorem State.setWcnt_script (n : Nat) : (State.setWcnt n s).script = s.script := rfl
@[simp] theorem State.setWcnt_pos (n : Nat) : (State.setWcnt n s).pos = s.pos := rfl
@[simp] theorem State.setWcnt_readData (n : Nat) : (State.setWcnt n s).readData = s.readData := rfl
@[simp] theorem State.setWcnt_awaiting (n : Nat) : (State.setWcnt n s).awaiting = s.awaiting := rfl

/-! ### `State.setBlen` -/

@[simp] theorem State.setBlen_params (n : Nat) : (State.setBlen n s).params = s.params := rfl
@[simp] theorem State.setBlen_w (n : Nat) : (State.setBlen n s).w = s.w := rfl
@[simp] theorem State.setBlen_wcnt (n : Nat) : (State.setBlen n s).wcnt = s.wcnt := rfl
@[simp] theorem State.setBlen_b (n : Nat) : (State.setBlen n s).b = s.b := rfl
@[simp] theorem State.setBlen_blen (n : Nat) : (State.setBlen n s).blen = BitVec.ofNat 32 n := rfl
@[simp] theorem State.setBlen_k (n : Nat) : (State.setBlen n s).k = s.k := rfl
@[simp] theorem State.setBlen_keyv (n : Nat) : (State.setBlen n s).keyv = s.keyv := rfl
@[simp] theorem State.setBlen_kin (n : Nat) : (State.setBlen n s).kin = s.kin := rfl
@[simp] theorem State.setBlen_klen (n : Nat) : (State.setBlen n s).klen = s.klen := rfl
@[simp] theorem State.setBlen_busy (n : Nat) : (State.setBlen n s).busy = s.busy := rfl
@[simp] theorem State.setBlen_done (n : Nat) : (State.setBlen n s).done = s.done := rfl
@[simp] theorem State.setBlen_err (n : Nat) : (State.setBlen n s).err = s.err := rfl
@[simp] theorem State.setBlen_hidden (n : Nat) : (State.setBlen n s).hidden = s.hidden := rfl
@[simp] theorem State.setBlen_epoch (n : Nat) : (State.setBlen n s).epoch = s.epoch := rfl
@[simp] theorem State.setBlen_finished (n : Nat) : (State.setBlen n s).finished = s.finished := rfl
@[simp] theorem State.setBlen_script (n : Nat) : (State.setBlen n s).script = s.script := rfl
@[simp] theorem State.setBlen_pos (n : Nat) : (State.setBlen n s).pos = s.pos := rfl
@[simp] theorem State.setBlen_readData (n : Nat) : (State.setBlen n s).readData = s.readData := rfl
@[simp] theorem State.setBlen_awaiting (n : Nat) : (State.setBlen n s).awaiting = s.awaiting := rfl

/-! ### `State.resetEngine` -/

@[simp] theorem State.resetEngine_params : (s.resetEngine).params = s.params := rfl
@[simp] theorem State.resetEngine_w : (s.resetEngine).w = [] := rfl
@[simp] theorem State.resetEngine_wcnt : (s.resetEngine).wcnt = 0 := rfl
@[simp] theorem State.resetEngine_b : (s.resetEngine).b = [] := rfl
@[simp] theorem State.resetEngine_blen : (s.resetEngine).blen = 0 := rfl
@[simp] theorem State.resetEngine_k : (s.resetEngine).k = Vector.replicate 16 0 := rfl
@[simp] theorem State.resetEngine_keyv : (s.resetEngine).keyv = false := rfl
@[simp] theorem State.resetEngine_kin : (s.resetEngine).kin = [] := rfl
@[simp] theorem State.resetEngine_klen : (s.resetEngine).klen = 0 := rfl
@[simp] theorem State.resetEngine_busy : (s.resetEngine).busy = false := rfl
@[simp] theorem State.resetEngine_done : (s.resetEngine).done = false := rfl
@[simp] theorem State.resetEngine_err : (s.resetEngine).err = 0 := rfl
@[simp] theorem State.resetEngine_hidden : (s.resetEngine).hidden = Hidden.zero := rfl
@[simp] theorem State.resetEngine_epoch : (s.resetEngine).epoch = s.epoch + 1 := rfl
@[simp] theorem State.resetEngine_finished : (s.resetEngine).finished = s.finished := rfl
@[simp] theorem State.resetEngine_script : (s.resetEngine).script = s.script := rfl
@[simp] theorem State.resetEngine_pos : (s.resetEngine).pos = s.pos := rfl
@[simp] theorem State.resetEngine_readData : (s.resetEngine).readData = s.readData := rfl
@[simp] theorem State.resetEngine_awaiting : (s.resetEngine).awaiting = false := rfl

/-! ### Operand reads -/

@[simp] theorem State.advance_readB (i : Nat) : (s.advance).readB i = s.readB i := rfl
@[simp] theorem State.advance_readW (j : Nat) : (s.advance).readW j = s.readW j := rfl
@[simp] theorem State.advance_readKin (i : Nat) : (s.advance).readKin i = s.readKin i := rfl
@[simp] theorem State.advance_kw (j : BitVec 2) : (s.advance).kw j = s.kw j := rfl
@[simp] theorem State.advance_bytes : (s.advance).bytes = s.bytes := rfl
@[simp] theorem State.advance_words : (s.advance).words = s.words := rfl
@[simp] theorem State.advance_blenFits : (s.advance).blenFits = s.blenFits := rfl
@[simp] theorem State.advance_wcntFits : (s.advance).wcntFits = s.wcntFits := rfl
@[simp] theorem State.advance_klenFits : (s.advance).klenFits = s.klenFits := rfl
@[simp] theorem State.readStatus_readB (i : Nat) : (s.readStatus).readB i = s.readB i := rfl
@[simp] theorem State.readStatus_readW (j : Nat) : (s.readStatus).readW j = s.readW j := rfl
@[simp] theorem State.readStatus_readKin (i : Nat) : (s.readStatus).readKin i = s.readKin i := rfl
@[simp] theorem State.readStatus_kw (j : BitVec 2) : (s.readStatus).kw j = s.kw j := rfl
@[simp] theorem State.readStatus_bytes : (s.readStatus).bytes = s.bytes := rfl
@[simp] theorem State.readStatus_words : (s.readStatus).words = s.words := rfl
@[simp] theorem State.readStatus_blenFits : (s.readStatus).blenFits = s.blenFits := rfl
@[simp] theorem State.readStatus_wcntFits : (s.readStatus).wcntFits = s.wcntFits := rfl
@[simp] theorem State.readStatus_klenFits : (s.readStatus).klenFits = s.klenFits := rfl
@[simp] theorem State.await_readB (i : Nat) : (s.await).readB i = s.readB i := rfl
@[simp] theorem State.await_readW (j : Nat) : (s.await).readW j = s.readW j := rfl
@[simp] theorem State.await_readKin (i : Nat) : (s.await).readKin i = s.readKin i := rfl
@[simp] theorem State.await_kw (j : BitVec 2) : (s.await).kw j = s.kw j := rfl
@[simp] theorem State.await_bytes : (s.await).bytes = s.bytes := rfl
@[simp] theorem State.await_words : (s.await).words = s.words := rfl
@[simp] theorem State.await_blenFits : (s.await).blenFits = s.blenFits := rfl
@[simp] theorem State.await_wcntFits : (s.await).wcntFits = s.wcntFits := rfl
@[simp] theorem State.await_klenFits : (s.await).klenFits = s.klenFits := rfl
@[simp] theorem State.accept_readB (i : Nat) : (s.accept).readB i = s.readB i := rfl
@[simp] theorem State.accept_readW (j : Nat) : (s.accept).readW j = s.readW j := rfl
@[simp] theorem State.accept_readKin (i : Nat) : (s.accept).readKin i = s.readKin i := rfl
@[simp] theorem State.accept_kw (j : BitVec 2) : (s.accept).kw j = s.kw j := rfl
@[simp] theorem State.accept_bytes : (s.accept).bytes = s.bytes := rfl
@[simp] theorem State.accept_words : (s.accept).words = s.words := rfl
@[simp] theorem State.accept_blenFits : (s.accept).blenFits = s.blenFits := rfl
@[simp] theorem State.accept_wcntFits : (s.accept).wcntFits = s.wcntFits := rfl
@[simp] theorem State.accept_klenFits : (s.accept).klenFits = s.klenFits := rfl
@[simp] theorem State.complete_readB (c : BitVec 4) (i : Nat) : (State.complete c s).readB i = s.readB i := rfl
@[simp] theorem State.complete_readW (c : BitVec 4) (j : Nat) : (State.complete c s).readW j = s.readW j := rfl
@[simp] theorem State.complete_readKin (c : BitVec 4) (i : Nat) : (State.complete c s).readKin i = s.readKin i := rfl
@[simp] theorem State.complete_kw (c : BitVec 4) (j : BitVec 2) : (State.complete c s).kw j = s.kw j := rfl
@[simp] theorem State.complete_bytes (c : BitVec 4) : (State.complete c s).bytes = s.bytes := rfl
@[simp] theorem State.complete_words (c : BitVec 4) : (State.complete c s).words = s.words := rfl
@[simp] theorem State.complete_blenFits (c : BitVec 4) : (State.complete c s).blenFits = s.blenFits := rfl
@[simp] theorem State.complete_wcntFits (c : BitVec 4) : (State.complete c s).wcntFits = s.wcntFits := rfl
@[simp] theorem State.complete_klenFits (c : BitVec 4) : (State.complete c s).klenFits = s.klenFits := rfl
@[simp] theorem State.spendHidden_readB (i : Nat) : (s.spendHidden).readB i = s.readB i := rfl
@[simp] theorem State.spendHidden_readW (j : Nat) : (s.spendHidden).readW j = s.readW j := rfl
@[simp] theorem State.spendHidden_readKin (i : Nat) : (s.spendHidden).readKin i = s.readKin i := rfl
@[simp] theorem State.spendHidden_kw (j : BitVec 2) : (s.spendHidden).kw j = s.kw j := rfl
@[simp] theorem State.spendHidden_bytes : (s.spendHidden).bytes = s.bytes := rfl
@[simp] theorem State.spendHidden_words : (s.spendHidden).words = s.words := rfl
@[simp] theorem State.spendHidden_blenFits : (s.spendHidden).blenFits = s.blenFits := rfl
@[simp] theorem State.spendHidden_wcntFits : (s.spendHidden).wcntFits = s.wcntFits := rfl
@[simp] theorem State.spendHidden_klenFits : (s.spendHidden).klenFits = s.klenFits := rfl
@[simp] theorem State.loadKey_readB (key : Key) (i : Nat) : (State.loadKey key s).readB i = s.readB i := rfl
@[simp] theorem State.loadKey_readW (key : Key) (j : Nat) : (State.loadKey key s).readW j = s.readW j := rfl
@[simp] theorem State.loadKey_readKin (key : Key) (i : Nat) : (State.loadKey key s).readKin i = s.readKin i := rfl
@[simp] theorem State.loadKey_bytes (key : Key) : (State.loadKey key s).bytes = s.bytes := rfl
@[simp] theorem State.loadKey_words (key : Key) : (State.loadKey key s).words = s.words := rfl
@[simp] theorem State.loadKey_blenFits (key : Key) : (State.loadKey key s).blenFits = s.blenFits := rfl
@[simp] theorem State.loadKey_wcntFits (key : Key) : (State.loadKey key s).wcntFits = s.wcntFits := rfl
@[simp] theorem State.loadKey_klenFits (key : Key) : (State.loadKey key s).klenFits = s.klenFits := rfl
@[simp] theorem State.putWords_readB (ws : List Word) (i : Nat) : (State.putWords ws s).readB i = s.readB i := rfl
@[simp] theorem State.putWords_readKin (ws : List Word) (i : Nat) : (State.putWords ws s).readKin i = s.readKin i := rfl
@[simp] theorem State.putWords_kw (ws : List Word) (j : BitVec 2) : (State.putWords ws s).kw j = s.kw j := rfl
@[simp] theorem State.putWords_bytes (ws : List Word) : (State.putWords ws s).bytes = s.bytes := rfl
@[simp] theorem State.putWords_blenFits (ws : List Word) : (State.putWords ws s).blenFits = s.blenFits := rfl
@[simp] theorem State.putWords_wcntFits (ws : List Word) : (State.putWords ws s).wcntFits = s.wcntFits := rfl
@[simp] theorem State.putWords_klenFits (ws : List Word) : (State.putWords ws s).klenFits = s.klenFits := rfl
@[simp] theorem State.putBytes_readW (bs : List Byte) (j : Nat) : (State.putBytes bs s).readW j = s.readW j := rfl
@[simp] theorem State.putBytes_readKin (bs : List Byte) (i : Nat) : (State.putBytes bs s).readKin i = s.readKin i := rfl
@[simp] theorem State.putBytes_kw (bs : List Byte) (j : BitVec 2) : (State.putBytes bs s).kw j = s.kw j := rfl
@[simp] theorem State.putBytes_words (bs : List Byte) : (State.putBytes bs s).words = s.words := rfl
@[simp] theorem State.putBytes_blenFits (bs : List Byte) : (State.putBytes bs s).blenFits = s.blenFits := rfl
@[simp] theorem State.putBytes_wcntFits (bs : List Byte) : (State.putBytes bs s).wcntFits = s.wcntFits := rfl
@[simp] theorem State.putBytes_klenFits (bs : List Byte) : (State.putBytes bs s).klenFits = s.klenFits := rfl
@[simp] theorem State.setWcnt_readB (n : Nat) (i : Nat) : (State.setWcnt n s).readB i = s.readB i := rfl
@[simp] theorem State.setWcnt_readW (n : Nat) (j : Nat) : (State.setWcnt n s).readW j = s.readW j := rfl
@[simp] theorem State.setWcnt_readKin (n : Nat) (i : Nat) : (State.setWcnt n s).readKin i = s.readKin i := rfl
@[simp] theorem State.setWcnt_kw (n : Nat) (j : BitVec 2) : (State.setWcnt n s).kw j = s.kw j := rfl
@[simp] theorem State.setWcnt_bytes (n : Nat) : (State.setWcnt n s).bytes = s.bytes := rfl
@[simp] theorem State.setWcnt_blenFits (n : Nat) : (State.setWcnt n s).blenFits = s.blenFits := rfl
@[simp] theorem State.setWcnt_klenFits (n : Nat) : (State.setWcnt n s).klenFits = s.klenFits := rfl
@[simp] theorem State.setBlen_readB (n : Nat) (i : Nat) : (State.setBlen n s).readB i = s.readB i := rfl
@[simp] theorem State.setBlen_readW (n : Nat) (j : Nat) : (State.setBlen n s).readW j = s.readW j := rfl
@[simp] theorem State.setBlen_readKin (n : Nat) (i : Nat) : (State.setBlen n s).readKin i = s.readKin i := rfl
@[simp] theorem State.setBlen_kw (n : Nat) (j : BitVec 2) : (State.setBlen n s).kw j = s.kw j := rfl
@[simp] theorem State.setBlen_words (n : Nat) : (State.setBlen n s).words = s.words := rfl
@[simp] theorem State.setBlen_wcntFits (n : Nat) : (State.setBlen n s).wcntFits = s.wcntFits := rfl
@[simp] theorem State.setBlen_klenFits (n : Nat) : (State.setBlen n s).klenFits = s.klenFits := rfl

end Sys2Proof.Machine
end

