-- ==== Sys2Proof/Laws/Operands.lean ====
section
/-! SUPPORT. The operands: their lengths and elements, what a write to the front of a buffer reads back as, and the
packing of bytes into words. -/

namespace Sys2Proof.Machine

/-! ### Lengths and elements of the operands -/

@[simp] theorem State.bytes_length (s : State) : s.bytes.length = s.blen.toNat := by simp [State.bytes]

@[simp] theorem State.words_length (s : State) : s.words.length = s.wcnt.toNat := by simp [State.words]

theorem State.bytes_getD (s : State) {i : Nat} (hi : i < s.blen.toNat) (d : Byte) : s.bytes.getD i d = s.readB i := by
  simp [State.bytes, List.getD_eq_getElem?_getD, hi]

theorem State.words_getD (s : State) {j : Nat} (hj : j < s.wcnt.toNat) (d : Word) : s.words.getD j d = s.readW j := by
  simp [State.words, List.getD_eq_getElem?_getD, hj]

/-! ### Reads after writes to the front of a buffer -/

/-- `B` after a write to its front (spec/40_wordcodec.md R108). -/
theorem State.putBytes_readB (bs : List Byte) (s : State) (i : Nat) :
    (State.putBytes bs s).readB i = if i < bs.length then bs.getD i 0 else s.readB i := by
  by_cases h : i < bs.length <;> simp [State.readB, State.putBytes, Memory.get?_putRange, h]

/-- `W` after a write to its front (spec/40_wordcodec.md R102). -/
theorem State.putWords_readW (ws : List Word) (s : State) (j : Nat) :
    (State.putWords ws s).readW j = if j < ws.length then ws.getD j 0 else s.readW j := by
  by_cases h : j < ws.length <;> simp [State.readW, State.putWords, Memory.get?_putRange, h]

/-- The byte operand after a write that covers it. -/
theorem State.putBytes_bytes {bs : List Byte} {s : State} (h : bs.length = s.blen.toNat) :
    (State.putBytes bs s).bytes = bs := by
  apply List.ext_getElem
  · simp [h]
  · intro i h1 h2
    simp [State.bytes, State.putBytes_readB, h2]

/-- The word operand after a write that covers it. -/
theorem State.putWords_words {ws : List Word} {s : State} (h : ws.length = s.wcnt.toNat) :
    (State.putWords ws s).words = ws := by
  apply List.ext_getElem
  · simp [h]
  · intro i h1 h2
    simp [State.words, State.putWords_readW, h2]

/-! ### Packing (spec/40_wordcodec.md R100, R103) -/

@[simp] theorem packWords_length (bs : List Byte) : (packWords bs).length = (bs.length + 3) / 4 := by simp [packWords]

theorem packWords_getD (bs : List Byte) {j : Nat} (hj : j < (bs.length + 3) / 4) (d : Word) :
    (packWords bs).getD j d =
      leWord (bs.getD (4 * j) 0) (bs.getD (4 * j + 1) 0) (bs.getD (4 * j + 2) 0) (bs.getD (4 * j + 3) 0) := by
  simp [packWords, List.getD_eq_getElem?_getD, hj]

@[simp] theorem unpackWords_nil : unpackWords [] = [] := rfl

@[simp] theorem unpackWords_cons (v : Word) (ws : List Word) : unpackWords (v :: ws) = leBytes v ++ unpackWords ws := rfl

@[simp] theorem unpackWords_length (ws : List Word) : (unpackWords ws).length = 4 * ws.length := by
  induction ws with
  | nil => rfl
  | cons v ws ih => simp [ih]; omega

/-- Byte `k` of word `j` stands at index `4j + k` of the unpacked bytes. -/
theorem unpackWords_getD (ws : List Word) {j k : Nat} (hj : j < ws.length) (hk : k < 4) :
    (unpackWords ws).getD (4 * j + k) 0 = leByte (ws.getD j 0) k := by
  induction ws generalizing j with
  | nil => simp at hj
  | cons v ws ih =>
    cases j with
    | zero =>
      rw [unpackWords_cons, List.getD_append _ _ _ _ (by simpa using hk)]
      simpa using leBytes_getD v hk
    | succ j =>
      have hj' : j < ws.length := by simpa using hj
      rw [unpackWords_cons, List.getD_append_right _ _ _ _ (by simp; omega)]
      have : 4 * (j + 1) + k - (leBytes v).length = 4 * j + k := by simp; omega
      rw [this, ih hj']
      simp

/-- Packing undoes unpacking. -/
theorem packWords_unpackWords (ws : List Word) : packWords (unpackWords ws) = ws := by
  apply List.ext_getElem
  · simp; omega
  · intro j h1 h2
    have h3 : j < ((unpackWords ws).length + 3) / 4 := by simpa using h1
    have h4 := packWords_getD (unpackWords ws) h3 0
    have e (k : Nat) (hk : k < 4) := unpackWords_getD ws h2 hk
    have e0 : (unpackWords ws).getD (4 * j) 0 = leByte (ws.getD j 0) 0 := e 0 (by decide)
    rw [e0, e 1 (by decide), e 2 (by decide), e 3 (by decide), leWord_leByte, List.getD_eq_getElem _ _ h1,
      List.getD_eq_getElem _ _ h2] at h4
    exact h4

/-- Unpacking undoes packing on whole words. -/
theorem unpackWords_packWords {bs : List Byte} (h : bs.length % 4 = 0) : unpackWords (packWords bs) = bs := by
  apply List.ext_getElem
  · simp; omega
  · intro i h1 h2
    have h3 : i / 4 < (bs.length + 3) / 4 := by omega
    have h4 : i / 4 < (packWords bs).length := by simpa using h3
    have h5 := unpackWords_getD (packWords bs) h4 (show i % 4 < 4 by omega)
    have h6 : 4 * (i / 4) + i % 4 = i := by omega
    rw [h6, packWords_getD bs h3] at h5
    have h7 : (unpackWords (packWords bs)).getD i 0 = bs.getD i 0 := by
      rw [h5]
      have : i % 4 = 0 ∨ i % 4 = 1 ∨ i % 4 = 2 ∨ i % 4 = 3 := by omega
      rcases this with hk | hk | hk | hk <;> rw [hk] <;> simp <;> congr 1 <;> congr 1 <;> omega
    rwa [List.getD_eq_getElem _ _ h1, List.getD_eq_getElem _ _ h2] at h7

/-! ### What the shared operations can answer -/

/-- A cipher command's three outcomes, in the order of the checks (spec/60_exceptions.md R208). -/
theorem cipherAdmission_cases (fits : State → Bool) (body : State → State) (s : State) :
    (fits s = false ∧ cipherAdmission fits body s = raise .allocationFailure s) ∨
    (fits s = true ∧ s.keyv = false ∧ cipherAdmission fits body s = raise .keyTooShort s) ∨
    (fits s = true ∧ s.keyv = true ∧ cipherAdmission fits body s = succeed (body s)) := by
  unfold cipherAdmission
  cases h1 : fits s
  · exact .inl ⟨rfl, by simp⟩
  · cases h2 : s.keyv
    · exact .inr (.inl ⟨rfl, rfl, by simp⟩)
    · exact .inr (.inr ⟨rfl, rfl, by simp⟩)

/-- An admitted cipher command succeeds. -/
theorem cipherAdmission_of_admitted {fits : State → Bool} {body : State → State} {s : State} (h1 : fits s = true)
    (h2 : s.keyv = true) : cipherAdmission fits body s = succeed (body s) := by
  simp [cipherAdmission, h1, h2]

/-- A block command on two words or more. -/
theorem State.permuteWords_of_two_le {perm : (BitVec 2 → Word) → List Word → List Word} {s : State}
    (h : 2 ≤ s.wcnt.toNat) : State.permuteWords perm s = s.putWords (perm s.kw s.words) := by
  simp [State.permuteWords, Nat.not_lt.mpr h]

/-- A block command on fewer than two words (spec/41_xxtea_core.md R123). -/
theorem State.permuteWords_of_lt_two {perm : (BitVec 2 → Word) → List Word → List Word} {s : State}
    (h : s.wcnt.toNat < 2) : State.permuteWords perm s = s := by
  simp [State.permuteWords, h]

@[simp] theorem State.blenFits_iff (s : State) : s.blenFits = true ↔ s.blen.toNat ≤ s.params.bcap := by
  simp [State.blenFits]

@[simp] theorem State.wcntFits_iff (s : State) : s.wcntFits = true ↔ s.wcnt.toNat ≤ s.params.bcap / 4 + 1 :=
  decide_eq_true_iff

@[simp] theorem State.klenFits_iff (s : State) : s.klenFits = true ↔ s.klen.toNat ≤ s.params.kcap := by
  simp [State.klenFits]

end Sys2Proof.Machine
end

