-- ==== Sys2Proof/Laws/Regions.lean ====
section
/-! SUPPORT. The stages of CHENC and CHDEC region by region: a stage transforms its own region from its own bytes and
leaves every disjoint region alone (spec/43_chunked_engine.md R160, R167). -/

namespace Sys2Proof.Machine

/-- `len` bytes of a byte string from `off`. -/
def slice (off len : Nat) (bs : List Byte) : List Byte := (bs.drop off).take len

theorem slice_length {off len : Nat} {bs : List Byte} (h : off + len ≤ bs.length) : (slice off len bs).length = len := by
  simp [slice]; omega

theorem slice_getElem? (off len : Nat) (bs : List Byte) (i : Nat) :
    (slice off len bs)[i]? = if i < len then bs[off + i]? else none := by
  simp [slice, List.getElem?_take]

/-- A byte string is determined by a slice at each of its bytes. -/
theorem getElem?_of_slice {off len i : Nat} {bs cs : List Byte} (h : slice off len bs = slice off len cs)
    (h1 : off ≤ i) (h2 : i < off + len) : bs[i]? = cs[i]? := by
  have h3 := congrArg (fun l => l[i - off]?) h
  simp only [slice_getElem?, show i - off < len by omega, if_true, show off + (i - off) = i by omega] at h3
  exact h3

section Region

variable {off len : Nat} {f : List Byte → List Byte} {bs : List Byte}

theorem onRegion_getElem? (hf : (f (slice off len bs)).length = len) (hlen : off + len ≤ bs.length) (i : Nat) :
    (onRegion off len f bs)[i]? = if off ≤ i ∧ i < off + len then (f (slice off len bs))[i - off]? else bs[i]? := by
  unfold onRegion
  rw [show (bs.drop off).take len = slice off len bs from rfl]
  have h1 : (bs.take off).length = off := by simp; omega
  rcases Nat.lt_or_ge i off with h | h
  · rw [List.append_assoc, List.getElem?_append_left (by omega)]
    simp [h, Nat.not_le.mpr h]
  · rcases Nat.lt_or_ge i (off + len) with h' | h'
    · rw [List.getElem?_append_left (by simp [hf]; omega), List.getElem?_append_right (by omega), h1]
      simp [h, h']
    · rw [List.getElem?_append_right (by simp [hf]; omega)]
      simp only [List.length_append, h1, hf, List.getElem?_drop, show off + len + (i - (off + len)) = i by omega]
      simp [Nat.not_lt.mpr h']

theorem onRegion_length (hf : (f (slice off len bs)).length = len) (hlen : off + len ≤ bs.length) :
    (onRegion off len f bs).length = bs.length := by
  unfold onRegion
  rw [show (bs.drop off).take len = slice off len bs from rfl]
  simp [hf]; omega

/-- A stage's own region. -/
theorem slice_onRegion_self (hf : (f (slice off len bs)).length = len) (hlen : off + len ≤ bs.length) :
    slice off len (onRegion off len f bs) = f (slice off len bs) := by
  apply List.ext_getElem?
  intro i
  rw [slice_getElem?, onRegion_getElem? hf hlen]
  by_cases h : i < len
  · simp [h]
  · simp [h, List.getElem?_eq_none (show (f (slice off len bs)).length ≤ i by omega)]

/-- A region disjoint from a stage's. -/
theorem slice_onRegion_disjoint {off' len' : Nat} (hf : (f (slice off len bs)).length = len)
    (hlen : off + len ≤ bs.length) (hd : off' + len' ≤ off ∨ off + len ≤ off') :
    slice off' len' (onRegion off len f bs) = slice off' len' bs := by
  apply List.ext_getElem?
  intro i
  rw [slice_getElem?, slice_getElem?, onRegion_getElem? hf hlen]
  by_cases h : i < len'
  · have : ¬ (off ≤ off' + i ∧ off' + i < off + len) := by omega
    simp [h, this]
  · simp [h]

end Region

/-- What one direction's permutation and byte cipher must do: keep the length. -/
structure LengthKeeping (perm : List Word → List Word) (span : List Byte → List Byte) : Prop where
  perm_length : ∀ ws, (perm ws).length = ws.length
  span_length : ∀ bs, (span bs).length = bs.length

theorem lengthKeeping_encrypt (kw : BitVec 2 → Word) (key : Key) : LengthKeeping (encryptWords kw) (encSpan key) :=
  ⟨encryptWords_length kw, encSpan_length key⟩

theorem lengthKeeping_decrypt (kw : BitVec 2 → Word) (key : Key) : LengthKeeping (decryptWords kw) (decSpan key) :=
  ⟨decryptWords_length kw, decSpan_length key⟩

section Stages

variable {perm : List Word → List Word} {span : List Byte → List Byte} (hk : LengthKeeping perm span)
include hk

theorem wordStage_region_length {off n : Nat} {bs : List Byte} (h : off + 4 * n ≤ bs.length) :
    (unpackWords (perm (packWords (slice off (4 * n) bs)))).length = 4 * n := by
  rw [unpackWords_length, hk.perm_length, packWords_length, slice_length h]; omega

theorem wordStage_length {off n : Nat} {bs : List Byte} (h : off + 4 * n ≤ bs.length) :
    (wordStage perm off n bs).length = bs.length :=
  onRegion_length (wordStage_region_length hk h) h

theorem slice_wordStage_self {off n : Nat} {bs : List Byte} (h : off + 4 * n ≤ bs.length) :
    slice off (4 * n) (wordStage perm off n bs) = unpackWords (perm (packWords (slice off (4 * n) bs))) :=
  slice_onRegion_self (wordStage_region_length hk h) h

theorem slice_wordStage_disjoint {off n off' len' : Nat} {bs : List Byte} (h : off + 4 * n ≤ bs.length)
    (hd : off' + len' ≤ off ∨ off + 4 * n ≤ off') :
    slice off' len' (wordStage perm off n bs) = slice off' len' bs :=
  slice_onRegion_disjoint (wordStage_region_length hk h) h hd

/-- The window stages, all at once: length, windows done, and everything from the first window not done on. -/
theorem windowStages_spec {m : Nat} {bs : List Byte} (h : 64 * m ≤ bs.length) :
    (windowStages perm m bs).length = bs.length ∧
    (∀ k, k < m → slice (64 * k) 64 (windowStages perm m bs) = unpackWords (perm (packWords (slice (64 * k) 64 bs)))) ∧
    (∀ off len, 64 * m ≤ off → slice off len (windowStages perm m bs) = slice off len bs) := by
  induction m with
  | zero => exact ⟨rfl, by simp, fun _ _ _ => rfl⟩
  | succ m ih =>
    obtain ⟨ih1, ih2, ih3⟩ := ih (by omega)
    have hstep : windowStages perm (m + 1) bs = wordStage perm (64 * m) 16 (windowStages perm m bs) := by
      simp [windowStages, List.range_succ]
    have hr : 64 * m + 4 * 16 ≤ (windowStages perm m bs).length := by omega
    rw [hstep]
    refine ⟨by rw [wordStage_length hk hr, ih1], ?_, ?_⟩
    · intro k hkm
      by_cases hkm' : k = m
      · subst hkm'
        rw [show (64 : Nat) = 4 * 16 by rfl] at *
        rw [slice_wordStage_self hk hr, ih3 _ _ (by omega)]
      · rw [slice_wordStage_disjoint hk hr (by omega), ih2 k (by omega)]
    · intro off len hoff
      rw [slice_wordStage_disjoint hk hr (by omega), ih3 _ _ (by omega)]

/-- `transform` region by region: its length, its windows, its sub-block and its tail. -/
theorem transform_spec (bs : List Byte) :
    (transform perm span bs).length = bs.length ∧
    (∀ k, k < (partition bs.length).fullBlocks →
      slice (64 * k) 64 (transform perm span bs) = unpackWords (perm (packWords (slice (64 * k) 64 bs)))) ∧
    (1 < (partition bs.length).subWords →
      slice (64 * (partition bs.length).fullBlocks) (partition bs.length).subLen (transform perm span bs) =
        unpackWords (perm (packWords
          (slice (64 * (partition bs.length).fullBlocks) (partition bs.length).subLen bs)))) ∧
    ((partition bs.length).tailLen ≠ 0 →
      slice (64 * (partition bs.length).fullBlocks + (partition bs.length).subLen) (partition bs.length).tailLen
          (transform perm span bs) =
        span (slice (64 * (partition bs.length).fullBlocks + (partition bs.length).subLen)
          (partition bs.length).tailLen bs)) := by
  have hdef : transform perm span bs = tailStage span (partition bs.length)
      (subBlockStage perm (partition bs.length) (windowStages perm (partition bs.length).fullBlocks bs)) := rfl
  have hsub : 1 < (partition bs.length).subWords → (partition bs.length).subLen = 4 * (partition bs.length).subWords := by
    intro h; simp only [partition] at h ⊢; rw [if_pos h]
  have hfull : 64 * (partition bs.length).fullBlocks + (partition bs.length).subLen + (partition bs.length).tailLen
      = bs.length := by
    simp only [partition]; split <;> omega
  rw [hdef]
  generalize partition bs.length = q at *
  obtain ⟨w1, w2, w3⟩ := windowStages_spec hk (m := q.fullBlocks) (bs := bs) (by omega)
  generalize windowStages perm q.fullBlocks bs = ws at *
  have s1 : (subBlockStage perm q ws).length = bs.length ∧
      (∀ k, k < q.fullBlocks → slice (64 * k) 64 (subBlockStage perm q ws) = slice (64 * k) 64 ws) ∧
      (1 < q.subWords → slice (64 * q.fullBlocks) q.subLen (subBlockStage perm q ws) =
        unpackWords (perm (packWords (slice (64 * q.fullBlocks) q.subLen ws)))) ∧
      (∀ off len, 64 * q.fullBlocks + q.subLen ≤ off → slice off len (subBlockStage perm q ws) = slice off len ws) := by
    unfold subBlockStage
    by_cases h : 1 < q.subWords
    · have hr : 64 * q.fullBlocks + 4 * q.subWords ≤ ws.length := by have := hsub h; omega
      rw [if_pos h, hsub h]
      exact ⟨by rw [wordStage_length hk hr, w1], fun k hkq => slice_wordStage_disjoint hk hr (by omega),
        fun _ => slice_wordStage_self hk hr, fun off len ho => slice_wordStage_disjoint hk hr (by omega)⟩
    · rw [if_neg h]
      exact ⟨w1, fun _ _ => rfl, fun h' => absurd h' h, fun _ _ _ => rfl⟩
  obtain ⟨b1, b2, b3, b4⟩ := s1
  generalize subBlockStage perm q ws = cs at *
  unfold tailStage
  by_cases h : q.tailLen ≠ 0
  · have hr : 64 * q.fullBlocks + q.subLen + q.tailLen ≤ cs.length := by omega
    have hf : (span (slice (64 * q.fullBlocks + q.subLen) q.tailLen cs)).length = q.tailLen := by
      rw [hk.span_length, slice_length hr]
    rw [if_pos h]
    refine ⟨by rw [onRegion_length hf hr, b1], ?_, ?_, ?_⟩
    · intro k hkq
      rw [slice_onRegion_disjoint hf hr (by omega), b2 k hkq, w2 k hkq]
    · intro h2
      rw [slice_onRegion_disjoint hf hr (by omega), b3 h2, w3 _ _ (by omega)]
    · intro _
      rw [slice_onRegion_self hf hr, b4 _ _ (by omega), w3 _ _ (by omega)]
  · rw [if_neg h]
    exact ⟨b1, fun k hkq => by rw [b2 k hkq, w2 k hkq], fun h2 => by rw [b3 h2, w3 _ _ (by omega)],
      fun h' => absurd h' h⟩

end Stages

/-- Two transforms that undo each other region by region undo each other. -/
theorem transform_transform {perm perm' : List Word → List Word} {span span' : List Byte → List Byte}
    (hk : LengthKeeping perm span) (hk' : LengthKeeping perm' span')
    (hp : ∀ ws : List Word, 2 ≤ ws.length → perm' (perm ws) = ws) (hs : ∀ bs, span' (span bs) = bs) (bs : List Byte) :
    transform perm' span' (transform perm span bs) = bs := by
  obtain ⟨l1, w1, b1, t1⟩ := transform_spec hk bs
  obtain ⟨l2, w2, b2, t2⟩ := transform_spec hk' (transform perm span bs)
  rw [l1] at w2 b2 t2 l2
  have hsubLen : 1 < (partition bs.length).subWords →
      (partition bs.length).subLen = 4 * (partition bs.length).subWords := by
    intro h; simp only [partition] at h ⊢; rw [if_pos h]
  have hfull : 64 * (partition bs.length).fullBlocks + (partition bs.length).subLen + (partition bs.length).tailLen
      = bs.length := by
    simp only [partition]; split <;> omega
  have hnosub : ¬ 1 < (partition bs.length).subWords → (partition bs.length).subLen = 0 := by
    intro h; simp only [partition] at h ⊢; rw [if_neg h]
  generalize partition bs.length = q at *
  have hword : ∀ region : List Byte, region.length % 4 = 0 → 8 ≤ region.length →
      unpackWords (perm' (packWords (unpackWords (perm (packWords region))))) = region := by
    intro region h4 h8
    rw [packWords_unpackWords, hp _ (by simp; omega), unpackWords_packWords h4]
  apply List.ext_getElem?
  intro i
  rcases Nat.lt_or_ge i (64 * q.fullBlocks) with h | h
  · have hkq : i / 64 < q.fullBlocks := by omega
    have hr : 64 * (i / 64) + 64 ≤ bs.length := by omega
    refine getElem?_of_slice (off := 64 * (i / 64)) (len := 64) ?_ (by omega) (by omega)
    rw [w2 _ hkq, w1 _ hkq]
    exact hword _ (by rw [slice_length hr]) (by rw [slice_length hr]; omega)
  · rcases Nat.lt_or_ge i (64 * q.fullBlocks + q.subLen) with h' | h'
    · have h1 : 1 < q.subWords := by
        by_contra hc; have := hnosub hc; omega
      have hr : 64 * q.fullBlocks + q.subLen ≤ bs.length := by omega
      refine getElem?_of_slice (off := 64 * q.fullBlocks) (len := q.subLen) ?_ h h'
      rw [b2 h1, b1 h1]
      have := hsubLen h1
      exact hword _ (by rw [slice_length hr]; omega) (by rw [slice_length hr]; omega)
    · rcases Nat.lt_or_ge i bs.length with h'' | h''
      · have h1 : q.tailLen ≠ 0 := by omega
        refine getElem?_of_slice (off := 64 * q.fullBlocks + q.subLen) (len := q.tailLen) ?_ h' (by omega)
        rw [t2 h1, t1 h1, hs]
      · rw [List.getElem?_eq_none (by omega), List.getElem?_eq_none (by omega)]

end Sys2Proof.Machine
end

