-- ==== Sys2Proof/Laws/Commands.lean ====
section
/-! SUPPORT. What a command can answer, said once: it takes one of the engine's faults, or it succeeds with its effect. -/

namespace Sys2Proof.Machine

/-! ### The fields of the two outcomes -/

/-- Taking a fault changes BUSY, DONE and ERR and nothing else (spec/60_exceptions.md R204). -/
theorem raise_eq (f : EngineFault) (s : State) :
    raise f s = .next { s with busy := false, done := true, err := f.code } := rfl

/-- Success changes BUSY, DONE, ERR and the hidden registers of the state the effect left. -/
theorem succeed_eq (s : State) :
    succeed s = .next { s with
      busy := false, done := true, err := 0
      hidden := Config.hiddenAfter s.finished, finished := s.finished + 1 } := rfl

/-- No fault has code 0 (spec/60_exceptions.md R200). -/
@[simp] theorem EngineFault.code_ne_zero (f : EngineFault) : f.code ≠ 0 := by cases f <;> decide

/-- The codes of different causes differ. -/
theorem EngineFault.code_injective {f g : EngineFault} (h : f.code = g.code) : f = g := by
  cases f <;> cases g <;> first | rfl | (exact absurd h (by decide))

/-- A fault other than IllegalCommand has a code of 1 to 4. -/
theorem EngineFault.code_le_four {f : EngineFault} (h : f ≠ .illegalCommand) : f.code.toNat ≤ 4 := by
  cases f <;> first | decide | (exact absurd rfl h)

/-! ### The effect of an admitted command -/

/-- When a command meets no fault (spec/60_exceptions.md R202, R203, R205, R206). -/
def admitted : Instr → State → Bool
  | .pack, s => s.blenFits
  | .packL, s => s.blenFits
  | .unpack, s => s.wcntFits && decide (4 * s.wcnt.toNat ≤ s.params.bcap)
  | .unpackL, s => s.wcntFits && decide (s.wcnt.toNat ≠ 0) && headerOk s.wcnt.toNat (s.readW (s.wcnt.toNat - 1)).toNat
  | .xxenc, s => s.wcntFits && s.keyv
  | .xxdec, s => s.wcntFits && s.keyv
  | .bsenc, s => s.blenFits && s.keyv
  | .bsdec, s => s.blenFits && s.keyv
  | .chenc, s => s.blenFits && s.keyv
  | .chdec, s => s.blenFits && s.keyv
  | .keyldPad, s => s.klenFits
  | .keyldRaw, s => s.klenFits && decide (s.klen.toNat % 8 = 0) && decide (16 ≤ s.klen.toNat)

/-- What a command that meets no fault does, before its completion. -/
def commandEffect : Instr → State → State
  | .pack, s => s.storeWords (packWords s.bytes)
  | .packL, s => s.storeWords (packWords s.bytes ++ [s.blen])
  | .unpack, s => s.storeBytes (unpackWords s.words)
  | .unpackL, s => s.storeBytes ((unpackWords s.words).take (s.readW (s.wcnt.toNat - 1)).toNat)
  | .xxenc, s => s.permuteWords encryptWords
  | .xxdec, s => s.permuteWords decryptWords
  | .bsenc, s => s.putBytes (encSpan s.k s.bytes)
  | .bsdec, s => s.putBytes (decSpan s.k s.bytes)
  | .chenc, s => s.putBytes (transform (encryptWords s.kw) (encSpan s.k) s.bytes)
  | .chdec, s => s.putBytes (transform (decryptWords s.kw) (decSpan s.k) s.bytes)
  | .keyldPad, s => s.loadKey (padKey s)
  | .keyldRaw, s => s.loadKey (rawKey s)

/-- A command that meets no fault succeeds with its effect. -/
theorem exec_of_admitted {i : Instr} {s : State} (h : admitted i s = true) : exec i s = succeed (commandEffect i s) := by
  cases i <;> simp only [admitted, Bool.and_eq_true, decide_eq_true_eq] at h
  case pack => simp [exec, execPack, commandEffect, h]
  case packL => simp [exec, execPackL, commandEffect, h]
  case unpack => simp [exec, execUnpack, commandEffect, h.1, Nat.not_lt.mpr h.2]
  case unpackL => simp [exec, execUnpackL, commandEffect, h.1.1, h.1.2, h.2]
  case xxenc => simp [exec, execXxenc, commandEffect, cipherAdmission, h.1, h.2]
  case xxdec => simp [exec, execXxdec, commandEffect, cipherAdmission, h.1, h.2]
  case bsenc => simp [exec, execBsenc, commandEffect, cipherAdmission, h.1, h.2]
  case bsdec => simp [exec, execBsdec, commandEffect, cipherAdmission, h.1, h.2]
  case chenc => simp [exec, execChenc, commandEffect, cipherAdmission, h.1, h.2]
  case chdec => simp [exec, execChdec, commandEffect, cipherAdmission, h.1, h.2]
  case keyldPad => simp [exec, execKeyldPad, commandEffect, h]
  case keyldRaw => simp [exec, execKeyldRaw, commandEffect, h.1.1, h.1.2, Nat.not_lt.mpr h.2]

/-- A cipher command that is not admitted takes one of the two faults of its admission. -/
theorem cipherAdmission_of_not_admitted {fits : State → Bool} {body : State → State} {s : State}
    (h : fits s = false ∨ s.keyv = false) :
    ∃ f, f ≠ EngineFault.illegalCommand ∧ cipherAdmission fits body s = raise f s := by
  rcases cipherAdmission_cases fits body s with ⟨-, he⟩ | ⟨-, -, he⟩ | ⟨h1, h2, -⟩
  · exact ⟨.allocationFailure, by decide, he⟩
  · exact ⟨.keyTooShort, by decide, he⟩
  · simp [h1, h2] at h

/-- A command that meets a fault takes it. -/
theorem exec_of_not_admitted {i : Instr} {s : State} (h : admitted i s = false) :
    ∃ f, f ≠ EngineFault.illegalCommand ∧ exec i s = raise f s := by
  cases i <;> simp only [admitted, Bool.and_eq_false_iff, decide_eq_false_iff_not] at h
  case pack => exact ⟨.allocationFailure, by decide, by simp [exec, execPack, h]⟩
  case packL => exact ⟨.allocationFailure, by decide, by simp [exec, execPackL, h]⟩
  case unpack =>
    refine ⟨.allocationFailure, by decide, ?_⟩
    rcases h with h | h
    · simp [exec, execUnpack, h]
    · simp [exec, execUnpack, Nat.not_le.mp h]
  case unpackL =>
    by_cases h1 : s.wcntFits = false
    · exact ⟨.allocationFailure, by decide, by simp [exec, execUnpackL, h1]⟩
    · refine ⟨.corruptLengthHeader, by decide, ?_⟩
      by_cases h2 : s.wcnt.toNat = 0
      · simp [exec, execUnpackL, h1, h2]
      · have h3 : headerOk s.wcnt.toNat (s.readW (s.wcnt.toNat - 1)).toNat = false := by
          rcases h with (h | h) | h
          · exact absurd h h1
          · exact absurd h2 h
          · exact h
        simp [exec, execUnpackL, h1, h2, h3]
  case keyldPad => exact ⟨.allocationFailure, by decide, by simp [exec, execKeyldPad, h]⟩
  case keyldRaw =>
    by_cases h1 : s.klenFits = false
    · exact ⟨.allocationFailure, by decide, by simp [exec, execKeyldRaw, h1]⟩
    · by_cases h2 : s.klen.toNat % 8 = 0
      · have h3 : s.klen.toNat < 16 := by
          rcases h with (h | h) | h
          · exact absurd h h1
          · exact absurd h2 h
          · exact Nat.not_le.mp h
        exact ⟨.keyTooShort, by decide, by simp [exec, execKeyldRaw, h1, h2, h3]⟩
      · exact ⟨.invalidKeyLength, by decide, by simp [exec, execKeyldRaw, h1, h2]⟩
  case xxenc => simp only [exec, execXxenc]; exact cipherAdmission_of_not_admitted h
  case xxdec => simp only [exec, execXxdec]; exact cipherAdmission_of_not_admitted h
  case bsenc => simp only [exec, execBsenc]; exact cipherAdmission_of_not_admitted h
  case bsdec => simp only [exec, execBsdec]; exact cipherAdmission_of_not_admitted h
  case chenc => simp only [exec, execChenc]; exact cipherAdmission_of_not_admitted h
  case chdec => simp only [exec, execChdec]; exact cipherAdmission_of_not_admitted h

/-- What a command can answer. -/
theorem exec_cases (i : Instr) (s : State) :
    (admitted i s = true ∧ exec i s = succeed (commandEffect i s)) ∨
    (admitted i s = false ∧ ∃ f, f ≠ EngineFault.illegalCommand ∧ exec i s = raise f s) := by
  cases h : admitted i s
  · exact .inr ⟨rfl, exec_of_not_admitted h⟩
  · exact .inl ⟨rfl, exec_of_admitted h⟩

/-- Every command answers a next state: no fault or refusal of the machine (spec/60_exceptions.md R204). -/
theorem exec_next (i : Instr) (s : State) : ∃ t, exec i s = .next t := by
  rcases exec_cases i s with ⟨-, h⟩ | ⟨-, f, -, h⟩
  · exact ⟨_, h⟩
  · exact ⟨_, h⟩

/-- The effect's fields that no command changes: the parameters, `KIN`, `KLEN` and the host's side. -/
theorem commandEffect_frame (i : Instr) (s : State) :
    (commandEffect i s).params = s.params ∧ (commandEffect i s).kin = s.kin ∧ (commandEffect i s).klen = s.klen ∧
    (commandEffect i s).epoch = s.epoch ∧ (commandEffect i s).script = s.script ∧ (commandEffect i s).pos = s.pos ∧
    (commandEffect i s).readData = s.readData ∧ (commandEffect i s).awaiting = s.awaiting ∧
    (commandEffect i s).finished = s.finished := by
  cases i <;> simp [commandEffect, State.storeWords, State.storeBytes, State.permuteWords] <;> split <;> simp

end Sys2Proof.Machine
end

