-- ==== Sys2Proof/Laws/Decode.lean ====
section
/-! SUPPORT. The fields of a command word determine it (spec/30_encoding.md R81). -/

namespace Sys2Proof

/-- Two words with the same fields are the same word. -/
theorem word_eq_of_fields {v w : Word} (h1 : v.extractLsb' 8 24 = w.extractLsb' 8 24)
    (h2 : v.extractLsb' 2 2 = w.extractLsb' 2 2) (h3 : fieldFam v = fieldFam w) (h4 : fieldMod v = fieldMod w)
    (h5 : fieldDir v = fieldDir w) : v = w := by
  have e1 := congrArg BitVec.toNat h1
  have e2 := congrArg BitVec.toNat h2
  have e3 := congrArg BitVec.toNat h3
  have e4 : v.toNat / 2 % 2 = w.toNat / 2 % 2 := by
    have := congrArg Bool.toNat h4
    simpa only [fieldMod, BitVec.getLsbD, Nat.toNat_testBit, Nat.pow_one] using this
  have e5 : v.toNat % 2 = w.toNat % 2 := by
    have := congrArg Bool.toNat h5
    simpa only [fieldDir, BitVec.getLsbD, Nat.toNat_testBit, Nat.pow_zero, Nat.div_one] using this
  simp only [fieldFam, BitVec.extractLsb'_toNat, Nat.shiftRight_eq_div_pow] at e1 e2 e3
  apply BitVec.eq_of_toNat_eq
  have := v.isLt
  have := w.isLt
  omega

end Sys2Proof
end

