-- ==== Sys2Proof/Laws/Host.lean ====
section
/-! SUPPORT. What a step can do, said once: which host line it performed and what came of it; and where a host access
lands. -/

namespace Sys2Proof.Machine

/-- The word-sized registers lie at their offsets only (spec/20_memory.md R60). -/
theorem alignedWord_iff (width : Width) (o : Nat) : alignedWord width o = true ↔ width = .word ∧ o % 4 = 0 := by
  simp [alignedWord]

theorem byteOrWord_iff (width : Width) (o : Nat) :
    byteOrWord width o = true ↔ width = .byte ∨ (width = .word ∧ o % 4 = 0) := by
  simp [byteOrWord, alignedWord_iff]

/-- How many elements of a byte space an access covers. -/
def Width.bytes : Width → Nat
  | .byte => 1
  | .half => 2
  | .word => 4

@[simp] theorem writtenBytes_length_byte (v : Word) : (writtenBytes .byte v).length = 1 := rfl

@[simp] theorem writtenBytes_length_word (v : Word) : (writtenBytes .word v).length = 4 := rfl

/-- A listed access of a buffer stays inside it, for admissible parameters (spec/20_memory.md R55, R60). -/
theorem resolve_in_range {p : Params} (hp : p.wellFormed = true) {width : Width} {offset : BitVec 18} {l : Loc}
    (h : resolve p width offset = .loc l) :
    (∀ i, l = .b i → (width = .byte ∨ width = .word) ∧ i + width.bytes ≤ p.bcap) ∧
    (∀ i, l = .kin i → (width = .byte ∨ width = .word) ∧ i + width.bytes ≤ p.kcap) ∧
    (∀ j, l = .w j → j < p.wcap) := by
  simp only [Params.wellFormed, Params.bcapAligned, Params.bcapInRange, Params.kcapAligned, Params.kcapInRange,
    Params.lanesInRange, Bool.and_eq_true, beq_iff_eq, decide_eq_true_eq] at hp
  obtain ⟨⟨⟨⟨hp1, hp2, hp3⟩, hp4⟩, hp5, hp6⟩, hp7⟩ := hp
  unfold resolve at h
  simp only at h
  have hreg : ∀ q, (∀ i, registerAt q ≠ .b i) ∧ (∀ i, registerAt q ≠ .kin i) ∧ (∀ j, registerAt q ≠ .w j) := by
    intro q; unfold registerAt; split <;> simp
  split at h
  · split at h
    · cases h
      exact ⟨fun i hi => absurd hi ((hreg _).1 i), fun i hi => absurd hi ((hreg _).2.1 i),
        fun j hj => absurd hj ((hreg _).2.2 j)⟩
    · cases h
  · split at h
    · rename_i h1
      split at h
      · rename_i h2
        have h := Resolved.loc.inj h
        subst h
        refine ⟨fun i hi => (by cases hi), fun i hi => ?_, fun j hj => (by cases hj)⟩
        have hi' := Loc.kin.inj hi
        rcases (byteOrWord_iff _ _).mp h2 with rfl | ⟨rfl, h3⟩
        · exact ⟨.inl rfl, by simp only [Width.bytes]; omega⟩
        · exact ⟨.inr rfl, by simp only [Width.bytes]; omega⟩
      · cases h
    · split at h
      · rename_i h1
        split at h
        · rename_i h2
          have h := Resolved.loc.inj h
          subst h
          refine ⟨fun i hi => ?_, fun i hi => (by cases hi), fun j hj => (by cases hj)⟩
          have hi' := Loc.b.inj hi
          rcases (byteOrWord_iff _ _).mp h2 with rfl | ⟨rfl, h3⟩
          · exact ⟨.inl rfl, by simp only [Width.bytes]; omega⟩
          · exact ⟨.inr rfl, by simp only [Width.bytes]; omega⟩
        · cases h
      · split at h
        · rename_i h1
          split at h
          · cases h
            refine ⟨fun i hi => (by cases hi), fun i hi => (by cases hi), fun j hj => ?_⟩
            have hj' := Loc.w.inj hj
            omega
          · cases h
        · cases h

/-- Only the 32-bit access at offset 0 names `CMD` (spec/20_memory.md R60). -/
theorem resolve_cmd {p : Params} {width : Width} {offset : BitVec 18} (h : resolve p width offset = .loc .cmd) :
    width = .word ∧ offset = 0 := by
  unfold resolve at h
  simp only at h
  split at h
  · split at h
    · rename_i h1 h2
      obtain ⟨hw, ho⟩ := (alignedWord_iff _ _).mp h2
      refine ⟨hw, ?_⟩
      have h3 : offset.toNat / 4 = 0 := by
        generalize hq : offset.toNat / 4 = q at h
        unfold registerAt at h
        split at h <;> first | rfl | (simp at h)
      apply BitVec.eq_of_toNat_eq
      simp; omega
    · cases h
  · repeat' split at h
    all_goals simp at h

/-- Only the 32-bit access at offset 4 names `STATUS` (spec/20_memory.md R60). -/
theorem resolve_status {p : Params} {width : Width} {offset : BitVec 18} (h : resolve p width offset = .loc .status) :
    width = .word ∧ offset = 4 := by
  unfold resolve at h
  simp only at h
  split at h
  · split at h
    · rename_i h1 h2
      obtain ⟨hw, ho⟩ := (alignedWord_iff _ _).mp h2
      refine ⟨hw, ?_⟩
      have h3 : offset.toNat / 4 = 1 := by
        generalize hq : offset.toNat / 4 = q at h
        unfold registerAt at h
        split at h <;> first | rfl | (simp at h)
      apply BitVec.eq_of_toNat_eq
      simp; omega
    · cases h
  · repeat' split at h
    all_goals simp at h

/-- Nothing bars the host exactly when no command is running and the host waits for none. -/
@[simp] theorem State.barred_eq_none (s : State) : s.barred = none ↔ s.busy = false ∧ s.awaiting = false := by
  unfold State.barred
  cases s.busy <;> cases s.awaiting <;> simp

/-- What a step can do. -/
theorem step_cases {s t : State} (h : step s = .next t) :
    ((fetchLine s = none ∨ fetchLine s = some .stop) ∧ t = s) ∨
    (∃ name, fetchLine s = some (.label name) ∧ t = s.advance) ∨
    (fetchLine s = some .reset ∧ t = s.advance.resetEngine) ∨
    (∃ name k, fetchLine s = some (.berr name) ∧ t = { s.readStatus with pos := k }) ∨
    (∃ width offset, fetchLine s = some (.read width offset) ∧ resolve s.params width offset = .loc .status ∧
      t = s.advance.readStatus) ∨
    (∃ width offset l, fetchLine s = some (.read width offset) ∧ resolve s.params width offset = .loc l ∧
      s.barred = none ∧ t = { s.advance with readData := readLoc width s l }) ∨
    (∃ width offset v l, fetchLine s = some (.write width offset v) ∧ resolve s.params width offset = .loc l ∧
      s.barred = none ∧ writeLoc width v s.advance l = .next t) := by
  unfold step hostStep at h
  cases hf : fetchLine s with
  | none => rw [hf] at h; cases h; exact .inl ⟨.inl rfl, rfl⟩
  | some line =>
    rw [hf] at h
    cases line with
    | stop => cases h; exact .inl ⟨.inr rfl, rfl⟩
    | label name => cases h; exact .inr (.inl ⟨name, rfl, rfl⟩)
    | reset => cases h; exact .inr (.inr (.inl ⟨rfl, rfl⟩))
    | berr name =>
      refine .inr (.inr (.inr (.inl ?_)))
      simp only [runLine, hostBranch] at h
      split at h
      · cases h; exact ⟨name, _, rfl, rfl⟩
      · split at h
        · cases h; exact ⟨name, _, rfl, rfl⟩
        · cases h
    | read width offset =>
      simp only [runLine, hostRead] at h
      split at h
      · rename_i l hl
        split at h
        · rename_i he
          subst he
          cases h; exact .inr (.inr (.inr (.inr (.inl ⟨width, offset, rfl, hl, rfl⟩))))
        · split at h
          · cases h
          · rename_i hb
            cases h; exact .inr (.inr (.inr (.inr (.inr (.inl ⟨width, offset, l, rfl, hl, hb, rfl⟩)))))
      · cases h
      · cases h
    | write width offset v =>
      refine .inr (.inr (.inr (.inr (.inr (.inr ?_)))))
      simp only [runLine, hostWrite] at h
      split at h
      · rename_i l hl
        split at h
        · cases h
        · rename_i hb; exact ⟨width, offset, v, l, rfl, hl, hb, h⟩
      · cases h
      · cases h

/-- What a write that is no command does: it stores in one place, or is ignored. -/
theorem writeLoc_cases {width : Width} {v : Word} {s t : State} {l : Loc} (h : writeLoc width v s l = .next t) :
    (l = .cmd ∧ issueCommand v s.await = .next t) ∨ t = s ∨ t = { s with blen := v } ∨ t = { s with wcnt := v } ∨
    t = { s with klen := v } ∨
    (∃ i, l = .kin i ∧ t = { s with kin := Memory.putRange s.kin i (writtenBytes width v) }) ∨
    (∃ i, l = .b i ∧ t = { s with b := Memory.putRange s.b i (writtenBytes width v) }) ∨
    (∃ j, l = .w j ∧ t = { s with w := Memory.put s.w j v }) := by
  cases l <;> simp only [writeLoc, Host.Outcome.next.injEq] at h <;> try subst h
  case cmd => exact .inl ⟨rfl, h⟩
  all_goals simp

/-- What a write to `CMD` does. -/
theorem issueCommand_cases (v : Word) (s : State) :
    (∃ i, decode v = .ok i ∧ issueCommand v s = exec i s.accept) ∨
    (∃ e, decode v = .error e ∧ issueCommand v s = raise .illegalCommand s.accept) := by
  unfold issueCommand
  cases decode v with
  | ok i => exact .inl ⟨i, rfl, rfl⟩
  | error e => exact .inr ⟨e, rfl, rfl⟩

/-- A write to `CMD` always answers a next state. -/
theorem issueCommand_next (v : Word) (s : State) : ∃ t, issueCommand v s = .next t := by
  rcases issueCommand_cases v s with ⟨i, -, h⟩ | ⟨e, -, h⟩
  · rw [h]; exact exec_next i _
  · exact ⟨_, h⟩

/-- The line just put at a place of a script stands there (log 1). -/
@[simp] theorem setLine_getElem? (script : List HostLine) (n : Nat) (line : HostLine) :
    (setLine script n line)[n]? = some line := by
  induction n generalizing script with
  | zero => cases script <;> rfl
  | succ n ih => cases script <;> simpa [setLine] using ih _

end Sys2Proof.Machine
end

