-- ==== Sys2Proof/Laws/PerInstr.lean ====
section
/-! SUPPORT. Facts about every instruction as syntax, one lemma per constructor. -/

namespace Sys2Proof.Laws.Encoding

/-- An instruction is well formed, is listed among all instructions, and its command word keeps the fields ZERO and
ZERO2 clear and names a family of spec/30_encoding.md R81. -/
def Statement (i : Instr) : Prop :=
  i.wellFormed = true ∧ i ∈ Instr.all ∧ zeroFieldsClear (encode i) = true ∧
    1 ≤ (fieldFam (encode i)).toNat ∧ (fieldFam (encode i)).toNat ≤ 5

theorem pack : Statement .pack := by unfold Statement; decide
theorem unpack : Statement .unpack := by unfold Statement; decide
theorem packL : Statement .packL := by unfold Statement; decide
theorem unpackL : Statement .unpackL := by unfold Statement; decide
theorem xxenc : Statement .xxenc := by unfold Statement; decide
theorem xxdec : Statement .xxdec := by unfold Statement; decide
theorem bsenc : Statement .bsenc := by unfold Statement; decide
theorem bsdec : Statement .bsdec := by unfold Statement; decide
theorem chenc : Statement .chenc := by unfold Statement; decide
theorem chdec : Statement .chdec := by unfold Statement; decide
theorem keyldPad : Statement .keyldPad := by unfold Statement; decide
theorem keyldRaw : Statement .keyldRaw := by unfold Statement; decide

end Sys2Proof.Laws.Encoding
end

