-- ==== Sys2Proof/Laws/Safety.lean ====
section
/-! SUPPORT. A host that keeps spec/70_reset_and_hazards.md R240: what its script holds at and after the present line. -/

namespace Sys2Proof.Machine

/-- The present line is the first of what is left of the script. -/
theorem drop_of_fetchLine {s : State} {line : HostLine} (h : fetchLine s = some line) :
    s.script.drop s.pos = line :: s.script.drop (s.pos + 1) := by
  obtain ⟨hlt, hget⟩ := List.getElem?_eq_some_iff.mp h
  rw [List.drop_eq_getElem_cons hlt, hget]

/-- After a write to `CMD` such a script reads `STATUS` before it accesses anything else. -/
theorem pollsAfterCommands_getElem? {script : List HostLine} (h : pollsAfterCommands script = true) {n : Nat}
    {line : HostLine} (hn : script[n]? = some line) (hc : line.writesCmd = true) :
    readsStatusNext (script.drop (n + 1)) = true := by
  induction script generalizing n with
  | nil => simp at hn
  | cons first rest ih =>
    simp only [pollsAfterCommands, Bool.and_eq_true, Bool.or_eq_true, Bool.not_eq_true'] at h
    cases n with
    | zero =>
      obtain rfl := Option.some.inj hn
      simpa [hc] using h.1
    | succ n => exact ih h.2 hn

/-- A command neither ends nor starts the host's wait. -/
theorem exec_awaiting {i : Instr} {s t : State} (h : exec i s = .next t) : t.awaiting = s.awaiting := by
  rcases exec_cases i s with ⟨-, e⟩ | ⟨-, f, -, e⟩
  · rw [e] at h; cases h; exact (commandEffect_frame i s).2.2.2.2.2.2.2.1
  · rw [e] at h; cases h; rfl

end Sys2Proof.Machine
end

