-- ==== Sys2Proof/Laws/Script.lean ====
section
/-! SUPPORT. Where an index of the host-script notation lands (spec/30_encoding.md R87): on its own element inside the
buffer's capacity, on a reserved offset outside it (log 18). -/

namespace Sys2Proof.Machine

/-- The offset of an element: its own place, or the reserved offset 0x30. -/
theorem Script.offsetIn_toNat {base limit size i : Nat} (h : limit ≤ 2 ^ 18) :
    (Script.offsetIn base limit size i).toNat = if base + size * i < limit then base + size * i else 0x30 := by
  unfold Script.offsetIn
  split
  · rw [BitVec.toNat_ofNat, Nat.mod_eq_of_lt (by omega)]
  · rfl

/-- The bounds that admissible parameters meet (spec/00_scope.md R9). -/
theorem Params.bounds {p : Params} (hp : p.wellFormed = true) : p.kcap ≤ 64 ∧ p.bcap ≤ 65536 ∧ p.wcap ≤ 16385 := by
  simp only [Params.wellFormed, Params.bcapAligned, Params.bcapInRange, Params.kcapAligned, Params.kcapInRange,
    Params.lanesInRange, Bool.and_eq_true, beq_iff_eq, decide_eq_true_eq] at hp
  unfold Params.wcap
  omega

/-- An index of `B`: the byte of that index, or a reserved offset. -/
theorem resolve_offsetB {p : Params} (hp : p.wellFormed = true) (i : Nat) :
    resolve p .byte (Script.offsetB i) = if i < p.bcap then .loc (.b i) else .reserved := by
  have hb := Params.bounds hp
  have ho : (Script.offsetB i).toNat = _ := Script.offsetIn_toNat (by decide)
  unfold resolve
  simp only [ho, byteOrWord, alignedWord]
  by_cases h : 0x10000 + 1 * i < 0x20000
  · rw [if_pos h, if_neg (by omega), if_neg (by omega)]
    by_cases hi : i < p.bcap
    · rw [if_pos (by omega), if_pos hi]
      simp
    · rw [if_neg (by omega), if_neg (by omega), if_neg hi]
  · rw [if_neg h, if_neg (by decide), if_neg (by omega), if_neg (by omega), if_neg (by omega), if_neg (by omega)]

/-- An index of `KIN`: the byte of that index, or a reserved offset. -/
theorem resolve_offsetKin {p : Params} (hp : p.wellFormed = true) (i : Nat) :
    resolve p .byte (Script.offsetKin i) = if i < p.kcap then .loc (.kin i) else .reserved := by
  have hb := Params.bounds hp
  have ho : (Script.offsetKin i).toNat = _ := Script.offsetIn_toNat (by decide)
  unfold resolve
  simp only [ho, byteOrWord, alignedWord]
  by_cases h : 0x00040 + 1 * i < 0x10000
  · rw [if_pos h, if_neg (by omega)]
    by_cases hi : i < p.kcap
    · rw [if_pos (by omega), if_pos hi]
      simp
    · rw [if_neg (by omega), if_neg (by omega), if_neg (by omega), if_neg hi]
  · rw [if_neg h, if_neg (by decide), if_neg (by omega), if_neg (by omega), if_neg (by omega), if_neg (by omega)]

/-- An index of `W`: the word of that index, or a reserved offset. -/
theorem resolve_offsetW {p : Params} (hp : p.wellFormed = true) (j : Nat) :
    resolve p .word (Script.offsetW j) = if j < p.wcap then .loc (.w j) else .reserved := by
  have hb := Params.bounds hp
  have ho : (Script.offsetW j).toNat = _ := Script.offsetIn_toNat (by decide)
  unfold resolve
  simp only [ho, byteOrWord, alignedWord]
  by_cases h : 0x20000 + 4 * j < 0x40000
  · rw [if_pos h, if_neg (by omega), if_neg (by omega), if_neg (by omega)]
    by_cases hj : j < p.wcap
    · rw [if_pos (by omega), if_pos hj, if_pos (by simp)]
      congr 2; omega
    · rw [if_neg (by omega), if_neg hj]
  · rw [if_neg h, if_neg (by decide), if_neg (by omega), if_neg (by omega), if_neg (by omega), if_neg (by omega)]

end Sys2Proof.Machine
end

