-- ==== Sys2Proof/Tests/Slice0.lean ====
section
/-! SUPPORT. Tests: ill-formed parameters refused; command words written out bit by bit; one step of each command on
values taken from the spec's own examples and vectors (each names its source); and, for every obligation with
hypotheses, a concrete state and operands that meet them all. -/

namespace Sys2Proof.Tests

open Sys2Proof Sys2Proof.Machine

/-! ## Well-formedness -/

theorem test_params_suggested_accepted : Params.suggested.wellFormed = true := by decide
theorem test_params_bounds_accepted :
    (⟨128, 16, 1⟩ : Params).wellFormed = true ∧ (⟨65536, 64, 7⟩ : Params).wellFormed = true := by decide
/-- R9: BCAP a multiple of 4. -/
theorem test_params_bcap_unaligned_refused : (⟨130, 32, 1⟩ : Params).wellFormed = false := by decide
/-- R9: 128 <= BCAP <= 65536. -/
theorem test_params_bcap_out_of_range_refused :
    (⟨124, 32, 1⟩ : Params).wellFormed = false ∧ (⟨65540, 32, 1⟩ : Params).wellFormed = false := by decide
/-- R9: KCAP a multiple of 8. -/
theorem test_params_kcap_unaligned_refused : (⟨4096, 20, 1⟩ : Params).wellFormed = false := by decide
/-- R9: 16 <= KCAP <= 64. -/
theorem test_params_kcap_out_of_range_refused :
    (⟨4096, 8, 1⟩ : Params).wellFormed = false ∧ (⟨4096, 72, 1⟩ : Params).wellFormed = false := by decide
/-- R9: NLANES from 1 up. -/
theorem test_params_no_lane_refused : (⟨4096, 32, 0⟩ : Params).wellFormed = false := by decide

/-! ## Decoding: the words of R81, written field by field as ZERO, FAM, ZERO2, MOD, DIR -/

theorem test_decode_pack : decode 0b000000000000000000000000_0001_00_0_0 = .ok .pack := by decide
theorem test_decode_unpack : decode 0b000000000000000000000000_0001_00_0_1 = .ok .unpack := by decide
theorem test_decode_packL : decode 0b000000000000000000000000_0001_00_1_0 = .ok .packL := by decide
theorem test_decode_unpackL : decode 0b000000000000000000000000_0001_00_1_1 = .ok .unpackL := by decide
theorem test_decode_xxenc : decode 0b000000000000000000000000_0010_00_0_0 = .ok .xxenc := by decide
theorem test_decode_xxdec : decode 0b000000000000000000000000_0010_00_0_1 = .ok .xxdec := by decide
theorem test_decode_bsenc : decode 0b000000000000000000000000_0011_00_0_0 = .ok .bsenc := by decide
theorem test_decode_bsdec : decode 0b000000000000000000000000_0011_00_0_1 = .ok .bsdec := by decide
theorem test_decode_chenc : decode 0b000000000000000000000000_0100_00_0_0 = .ok .chenc := by decide
theorem test_decode_chdec : decode 0b000000000000000000000000_0100_00_0_1 = .ok .chdec := by decide
theorem test_decode_keyldPad : decode 0b000000000000000000000000_0101_00_0_0 = .ok .keyldPad := by decide
theorem test_decode_keyldRaw : decode 0b000000000000000000000000_0101_00_1_0 = .ok .keyldRaw := by decide

/-- V80: the illegal words the spec lists. -/
theorem test_decode_illegal_words :
    [(0x00000000 : Word), 0x00000001, 0x00000014, 0x00000018, 0x00000022, 0x00000023, 0x00000032, 0x00000033,
      0x00000042, 0x00000043, 0x00000051, 0x00000053, 0x00000060, 0x000000f0, 0x00000110, 0x80000010, 0xffffffff].all
      (fun w => decide (decode w = .error (.illegalCommand w))) = true := by decide

/-- A table row's word reaches the decoder, and the decoder's bytes are little-endian (R50). -/
theorem test_decode_table_word :
    decodeTableWord 32 0x52 = some .keyldRaw ∧ decodeTableWord 8 0x41 = some .chdec ∧
      decodeTableWord 32 0x53 = none ∧ decodeBytes [0x52, 0, 0] = .error .truncated := by decide

/-! ## States and keys of the spec's vectors -/

/-- KZ, the all-zero key. -/
def keyZ : Key := Vector.replicate 16 0
/-- K1, `00 01 .. 0f`. -/
def key1 : Key := Vector.ofFn fun i => BitVec.ofNat 8 i.val
/-- KB, the key of R144's example. -/
def keyB : Key :=
  #v[0x3c, 0xa5, 0x0f, 0xf0, 0x81, 0x7e, 0x55, 0xaa, 0x01, 0x80, 0xfe, 0x7f, 0x33, 0xcc, 0x99, 0x66]

/-- After reset, with bytes in `B` and their count in `BLEN`. -/
def bytesState (bs : List Byte) : State := (State.reset.putBytes bs).setBlen bs.length
/-- After reset, with words in `W` and their count in `WCNT`. -/
def wordsState (ws : List Word) : State := (State.reset.putWords ws).setWcnt ws.length
/-- After reset, with bytes in `KIN` and their count in `KLEN`. -/
def kinState (bs : List Byte) : State :=
  { State.reset with kin := Memory.putRange [] 0 bs, klen := BitVec.ofNat 32 bs.length }
/-- A state whose host's next action is the given line. -/
def hostLine (line : HostLine) (s : State) : State := { s with script := [line] }
/-- The data ramp `00 01 02 ..` of the spec's vectors. -/
def ramp (n : Nat) : List Byte := (List.range n).map (BitVec.ofNat 8)

/-- What is observed of an outcome that is a next state. -/
def observe {α : Type} (f : State → α) : Host.Outcome State Fault Refusal → Option α
  | .next t => some (f t)
  | .fault _ => none
  | .refused _ => none

/-! ## One step of each command -/

/-- V70: five bytes. -/
theorem test_pack_five_bytes :
    observe (fun t => (t.words, t.wcnt)) (exec .pack (bytesState [1, 2, 3, 4, 5])) =
      some ([0x04030201, 0x00000005], 2) := by decide
/-- V70: the high bytes of the last word are zero. -/
theorem test_pack_pads_with_zero :
    observe (fun t => t.words) (exec .pack (bytesState [0xff, 0xff, 0xff, 0xff, 0xff, 0xff, 0xff])) =
      some [0xffffffff, 0x00ffffff] := by decide
/-- V70: the length word. -/
theorem test_packL_three_bytes :
    observe (fun t => (t.words, t.wcnt)) (exec .packL (bytesState [1, 2, 3])) =
      some ([0x00030201, 0x00000003], 2) := by decide
/-- V81: from reset, PACK.L writes one zero word. -/
theorem test_packL_empty : observe (fun t => (t.words, t.err)) (exec .packL State.reset) = some ([0], 0) := by decide
/-- V72: the least significant byte first. -/
theorem test_unpack_order :
    observe (fun t => (t.bytes, t.blen)) (exec .unpack (wordsState [0xdeadbeef])) =
      some ([0xef, 0xbe, 0xad, 0xde], 4) := by decide
/-- V72: `WCNT = WCAP` does not fit the byte buffer. -/
theorem test_unpack_wcap_fails :
    observe (fun t => t.err) (exec .unpack { State.reset with wcnt := 1025 }) = some 3 := by decide
/-- V73, last row: the dropped bytes are not examined. -/
theorem test_unpackL_drops_bytes :
    observe (fun t => (t.bytes, t.err)) (exec .unpackL (wordsState [0x04030201, 0xaabbcc05, 5])) =
      some ([1, 2, 3, 4, 5], 0) := by decide
/-- V73: with one word only length 0 passes; the lower bound does not wrap. -/
theorem test_unpackL_header_bound :
    observe (fun t => t.err) (exec .unpackL (wordsState [0])) = some 0 ∧
      observe (fun t => t.err) (exec .unpackL (wordsState [1])) = some 2 ∧
      observe (fun t => t.err) (exec .unpackL (wordsState [0x04030201, 0xfffffffd])) = some 2 := by decide

set_option maxRecDepth 100000 in
/-- V31: two words, key K1. -/
theorem test_xxenc_two_words :
    observe (fun t => t.words) (exec .xxenc ((wordsState [1, 2]).loadKey key1)) =
      some [0x859d388c, 0x09c28523] := by decide
set_option maxRecDepth 100000 in
/-- V33: three words, the smallest block with distinct neighbours. -/
theorem test_xxenc_three_words :
    observe (fun t => t.words) (exec .xxenc ((wordsState [1, 2, 3]).loadKey key1)) =
      some [0x17e133af, 0x2f98eddd, 0x208a7224] := by decide
set_option maxRecDepth 100000 in
/-- V33, decryption. -/
theorem test_xxdec_three_words :
    observe (fun t => t.words) (exec .xxdec ((wordsState [1, 2, 3]).loadKey key1)) =
      some [0x67bd33c7, 0xc2bb8bef, 0xc7764276] := by decide
/-- V39: one word is left alone, successfully. -/
theorem test_xxdec_one_word :
    observe (fun t => (t.words, t.err)) (exec .xxdec ((wordsState [0xdeadbeef]).loadKey key1)) =
      some ([0xdeadbeef], 0) := by decide
/-- V21, row 3: both additions wrap, and `t3 = t4 = 0`. -/
theorem test_mx_wraps :
    mx (fun _ => 0xffffffff) 0xffffffff 0xffffffff 0xffffffff 3 3 = 0xd8000012 := by decide

/-- V42: seven bytes, key KB; both rotations by 0 occur. -/
theorem test_bsenc_seven_bytes :
    observe (fun t => t.bytes) (exec .bsenc ((bytesState [0x10, 0x11, 0x12, 0x13, 0x14, 0x15, 0x16]).loadKey keyB)) =
      some [0x2f, 0x1d, 0x89, 0xa4, 0xeb, 0x2e, 0xec] := by decide
/-- V41: three bytes, key K1. -/
theorem test_bsdec_three_bytes :
    observe (fun t => t.bytes) (exec .bsdec ((bytesState [0x10, 0x11, 0x12]).loadKey key1)) =
      some [0xf8, 0xc2, 0xc2] := by decide

set_option maxRecDepth 100000 in
/-- V53: one window of 64 bytes, then six bytes by the byte cipher; the last six of the 70 bytes. -/
theorem test_chenc_tail_of_seventy :
    observe (fun t => (t.bytes.take 4, t.bytes.drop 64)) (exec .chenc ((bytesState (ramp 70)).loadKey key1)) =
      some ([0x18, 0x60, 0xff, 0xba], [0x70, 0x10, 0x80, 0x61, 0x35, 0x1c]) := by decide
set_option maxRecDepth 100000 in
/-- V57: eight bytes take the word stage. -/
theorem test_chenc_eight_bytes :
    observe (fun t => t.bytes) (exec .chenc ((bytesState (ramp 8)).loadKey key1)) =
      some [0x1f, 0x6a, 0xcf, 0x9e, 0x18, 0xe5, 0xc6, 0xcf] := by decide
set_option maxRecDepth 100000 in
/-- V55: a word stage and a byte stage, key KA (the padded key of "abc"). -/
theorem test_chdec_nine_bytes :
    observe (fun t => t.bytes)
        (exec .chdec ((bytesState (ramp 9)).loadKey #v[0x61, 0x62, 0x63, 0, 0, 0, 0, 0, 0, 0, 0, 0, 0, 0, 0, 0])) =
      some [0x4b, 0x66, 0xaf, 0xc4, 0xb7, 0x46, 0x94, 0xb0, 0x28] := by decide

/-- V60, row 5: bytes after the first zero byte are dropped. -/
theorem test_keyldPad_stops_at_zero :
    observe (fun t => (t.kw 0, t.kw 1, t.keyv)) (exec .keyldPad (kinState [0x61, 0x62, 0, 0x63, 0x64])) =
      some (0x00006261, 0, true) := by decide
/-- V60, row 10: only the first 16 of 20 bytes count. -/
theorem test_keyldPad_twenty_bytes :
    observe (fun t => (t.kw 0, t.kw 3)) (exec .keyldPad (kinState ((ramp 21).drop 1))) =
      some (0x04030201, 0x100f0e0d) := by decide
/-- V61: a 24-byte raw key, its first 16 bytes. -/
theorem test_keyldRaw_twenty_four_bytes :
    observe (fun t => (t.kw 0, t.kw 3, t.err)) (exec .keyldRaw (kinState ((ramp 184).drop 160))) =
      some (0xa3a2a1a0, 0xafaeadac, 0) := by decide
/-- V61, V83: lengths 12, 8 and 33. -/
theorem test_keyldRaw_faults :
    [12, 8, 33].map (fun n => observe (fun t => t.err) (exec .keyldRaw { State.reset with klen := n })) =
      [some 1, some 4, some 3] := by decide

/-- V80, V84: `STATUS` after an illegal word, without and with a key. -/
theorem test_step_illegal_word :
    observe State.status (step (hostLine (.write .word 0 0x22) State.reset)) = some 0x502 ∧
      observe State.status (step (hostLine (.write .word 0 0) (State.reset.loadKey key1))) = some 0x506 := by decide
/-- V81: a cipher command without a key. -/
theorem test_step_key_too_short :
    observe State.status (step (hostLine (.write .word 0 0x40) State.reset)) = some 0x402 := by decide
/-- R53, R60: a 32-bit read of `B`. -/
theorem test_step_reads_bytes_as_a_word :
    observe (fun t => t.readData) (step (hostLine (.read .word 0x10000) (bytesState [0x11, 0x22, 0x33, 0x44]))) =
      some 0x44332211 := by decide
/-- The word put where the next step takes its command from is what that step runs, from reset. -/
theorem test_step_runs_the_fetch_word :
    observe State.status (step (State.reset.withFetchWord 32 0x50)) = some 0x6 ∧
      observe State.status (step (State.reset.withFetchWord 32 0x13)) = some 0x202 := by decide

/-! ## Witnesses: for each obligation with hypotheses, concrete inputs that meet them together, clause by clause -/

theorem witness_DecodeOfEncodeIsTheCommand : Instr.keyldRaw.wellFormed = true := by decide

/-- One word for each clause, at its boundary: bit 8, bit 2, family 0, family 6, family 2 to 4 with MOD, family 5 with
DIR. -/
theorem witness_ReservedEncodingsAreIllegal :
    (0x100 : Word).toNat / 2 ^ 8 ≠ 0 ∧ (0x14 : Word).toNat / 2 ^ 2 % 4 ≠ 0 ∧ (0x0 : Word).toNat / 2 ^ 4 % 16 = 0 ∧
      6 ≤ (0x60 : Word).toNat / 2 ^ 4 % 16 ∧
      (2 ≤ (0x22 : Word).toNat / 2 ^ 4 % 16 ∧ (0x22 : Word).toNat / 2 ^ 4 % 16 ≤ 4 ∧ (0x22 : Word).toNat / 2 % 2 = 1) ∧
      (2 ≤ (0x43 : Word).toNat / 2 ^ 4 % 16 ∧ (0x43 : Word).toNat / 2 ^ 4 % 16 ≤ 4 ∧ (0x43 : Word).toNat / 2 % 2 = 1) ∧
      ((0x51 : Word).toNat / 2 ^ 4 % 16 = 5 ∧ (0x51 : Word).toNat % 2 = 1) := by decide

theorem witness_StepRunsTheWrittenCommand :
    let s := hostLine (.write .word 0 0x20) State.reset
    s.busy = false ∧ s.awaiting = false ∧ fetchLine s = some (.write .word 0 0x20) ∧ decode 0x20 = .ok .xxenc := by decide

theorem witness_IllegalWordFaultsAndChangesOnlyStatus : ∀ i : Instr, (0x22 : Word) ≠ encode i := by
  intro i; cases i <;> decide

theorem witness_FaultChangesOnlyStatus :
    (∃ t, exec .xxenc State.reset = .next t ∧ t.err ≠ 0) ∧ ∃ t, issueCommand 0x22 State.reset = .next t ∧ t.err ≠ 0 :=
  ⟨⟨_, rfl, by decide⟩, ⟨_, rfl, by decide⟩⟩

/-- The capacity is the last length that fits, and one more is the first that does not, for each length register. -/
theorem witness_AllocationFailureExactly :
    (∃ t, exec .pack { State.reset with blen := 4097 } = .next t ∧ t.err = 3) ∧
      (∃ t, exec .unpack { State.reset with wcnt := 1025 } = .next t ∧ t.err = 3) ∧
      (∃ t, exec .xxenc { State.reset with wcnt := 1026 } = .next t ∧ t.err = 3) ∧
      (∃ t, exec .xxenc { State.reset with wcnt := 1025 } = .next t ∧ t.err ≠ 3) ∧
      (∃ t, exec .keyldPad { State.reset with klen := 33 } = .next t ∧ t.err = 3) ∧
      ∃ t, exec .keyldRaw { State.reset with klen := 31 } = .next t ∧ t.err ≠ 3 :=
  ⟨⟨_, rfl, by decide⟩, ⟨_, rfl, by decide⟩, ⟨_, rfl, by decide⟩, ⟨_, rfl, by decide⟩, ⟨_, rfl, by decide⟩,
    ⟨_, rfl, by decide⟩⟩

theorem witness_KeyTooShortExactly :
    (∃ t, exec .chenc { State.reset with blen := 4096 } = .next t ∧ t.err ≠ 3 ∧ t.err = 4) ∧
      (∃ t, exec .keyldRaw { State.reset with klen := 8 } = .next t ∧ t.err ≠ 3 ∧ t.err = 4) ∧
      ∃ t, exec .pack State.reset = .next t ∧ t.err ≠ 3 ∧ t.err ≠ 4 :=
  ⟨⟨_, rfl, by decide⟩, ⟨_, rfl, by decide⟩, ⟨_, rfl, by decide⟩⟩

theorem witness_InvalidKeyLengthExactly :
    (∃ t, exec .keyldRaw { State.reset with klen := 31 } = .next t ∧ t.err = 1) ∧
      ∃ t, exec .keyldRaw { State.reset with klen := 33 } = .next t ∧ t.err ≠ 1 :=
  ⟨⟨_, rfl, by decide⟩, ⟨_, rfl, by decide⟩⟩

theorem witness_CorruptLengthHeaderExactly :
    (∃ t, exec .unpackL State.reset = .next t ∧ t.err = 2) ∧
      (∃ t, exec .unpackL (wordsState [7, 5]) = .next t ∧ t.err = 2) ∧
      ∃ t, exec .unpackL (wordsState [7, 4]) = .next t ∧ t.err ≠ 2 :=
  ⟨⟨_, rfl, by decide⟩, ⟨_, rfl, by decide⟩, ⟨_, rfl, by decide⟩⟩

/-- One state for each clause, in order. -/
theorem witness_FaultPriority :
    State.reset.params.kcap < (33 : Word).toNat ∧
      ((31 : Word).toNat ≤ State.reset.params.kcap ∧ (31 : Word).toNat % 8 ≠ 0) ∧
      ((8 : Word).toNat ≤ State.reset.params.kcap ∧ (8 : Word).toNat % 8 = 0 ∧ (8 : Word).toNat < 16) ∧
      (Instr.chdec ∈ [Instr.bsenc, .bsdec, .chenc, .chdec] ∧ State.reset.params.bcap < (4097 : Word).toNat) ∧
      (Instr.bsenc ∈ [Instr.bsenc, .bsdec, .chenc, .chdec] ∧ (4096 : Word).toNat ≤ State.reset.params.bcap ∧
        State.reset.keyv = false) ∧
      (Instr.xxdec ∈ [Instr.xxenc, .xxdec] ∧ State.reset.params.bcap / 4 + 1 < (1026 : Word).toNat) ∧
      (Instr.xxenc ∈ [Instr.xxenc, .xxdec] ∧ (1025 : Word).toNat ≤ State.reset.params.bcap / 4 + 1 ∧
        State.reset.keyv = false) := by decide

/-- The full buffer, and one byte more. -/
theorem witness_PackWritesLittleEndianWords :
    State.reset.params.bcap < (4097 : Word).toNat ∧ (4096 : Word).toNat ≤ State.reset.params.bcap := by decide

theorem witness_PackLAppendsTheByteLength :
    State.reset.params.bcap < (4097 : Word).toNat ∧ (4096 : Word).toNat ≤ State.reset.params.bcap := by decide

/-- One word too many for `W`, one too many for `B`, and the most that fit. -/
theorem witness_UnpackWritesFourBytesAWord :
    let p := State.reset.params
    p.wellFormed = true ∧ p.bcap / 4 + 1 < (1026 : Word).toNat ∧ p.bcap < 4 * (1025 : Word).toNat ∧
      (1024 : Word).toNat ≤ p.bcap / 4 + 1 ∧ 4 * (1024 : Word).toNat ≤ p.bcap := by decide

/-- Too many words; none; a length one too small and one too large; the longest and the shortest length the last word
may declare, and the one-word case. -/
theorem witness_UnpackLWritesTheDeclaredBytes :
    State.reset.params.bcap / 4 + 1 < (1026 : Word).toNat ∧
      State.reset.wcnt.toNat ≤ State.reset.params.bcap / 4 + 1 ∧ State.reset.wcnt.toNat = 0 ∧
      [[(7 : Word), 8, 4], [7, 8, 9]].all (fun ws =>
        let s := wordsState ws
        decide (s.wcnt.toNat ≤ s.params.bcap / 4 + 1 ∧ s.wcnt.toNat ≠ 0 ∧
          ((s.readW (s.wcnt.toNat - 1)).toNat + 3 < 4 * (s.wcnt.toNat - 1) ∨
            4 * (s.wcnt.toNat - 1) < (s.readW (s.wcnt.toNat - 1)).toNat))) = true ∧
      [[(7 : Word), 8, 8], [7, 8, 5], [0]].all (fun ws =>
        let s := wordsState ws
        decide (s.wcnt.toNat ≤ s.params.bcap / 4 + 1 ∧ s.wcnt.toNat ≠ 0 ∧
          4 * (s.wcnt.toNat - 1) ≤ (s.readW (s.wcnt.toNat - 1)).toNat + 3 ∧
          (s.readW (s.wcnt.toNat - 1)).toNat ≤ 4 * (s.wcnt.toNat - 1))) = true := by decide

theorem witness_PackedBytesComeBack :
    let s := { State.reset with blen := 4096 }
    s.params.wellFormed = true ∧ s.blen.toNat ≤ s.params.bcap := by decide

theorem witness_UnpackedWordsComeBack :
    let s := { State.reset with wcnt := 1024 }
    let s' := wordsState [7, 8, 5]
    (s.params.wellFormed = true ∧ s.wcnt.toNat < s.params.bcap / 4 + 1) ∧
      s'.params.wellFormed = true ∧ s'.wcnt.toNat ≤ s'.params.bcap / 4 + 1 ∧ s'.wcnt.toNat ≠ 0 ∧
      4 * (s'.wcnt.toNat - 1) ≤ (s'.readW (s'.wcnt.toNat - 1)).toNat + 3 ∧
      (s'.readW (s'.wcnt.toNat - 1)).toNat ≤ 4 * (s'.wcnt.toNat - 1) := by decide

theorem witness_FewerThanTwoWordsIsANoOp :
    let s := { State.reset.loadKey key1 with wcnt := 1 }
    s.wcnt.toNat ≤ s.params.bcap / 4 + 1 ∧ s.keyv = true ∧ s.wcnt.toNat < 2 := by decide

/-- The smallest and the largest block. -/
theorem witness_XxencRunsTheForwardSweeps :
    let s := { State.reset.loadKey key1 with wcnt := 2 }
    let s' := { State.reset.loadKey key1 with wcnt := 1025 }
    (s.wcnt.toNat ≤ s.params.bcap / 4 + 1 ∧ s.keyv = true ∧ 2 ≤ s.wcnt.toNat) ∧
      s'.wcnt.toNat ≤ s'.params.bcap / 4 + 1 ∧ s'.keyv = true ∧ 2 ≤ s'.wcnt.toNat := by decide

theorem witness_XxdecRunsTheBackwardSweeps :
    let s := { State.reset.loadKey key1 with wcnt := 1025 }
    s.wcnt.toNat ≤ s.params.bcap / 4 + 1 ∧ s.keyv = true ∧ 2 ≤ s.wcnt.toNat := by decide

theorem witness_WordCipherInverts :
    let s := { State.reset.loadKey keyZ with wcnt := 1025 }
    s.wcnt.toNat ≤ s.params.bcap / 4 + 1 ∧ s.keyv = true := by decide

theorem witness_BsencRunsTheSteps :
    let s := { State.reset.loadKey keyB with blen := 4096 }
    s.blen.toNat ≤ s.params.bcap ∧ s.keyv = true := by decide

theorem witness_BsdecRunsTheSteps :
    let s := { State.reset.loadKey keyB with blen := 7 }
    s.blen.toNat ≤ s.params.bcap ∧ s.keyv = true := by decide

theorem witness_ByteCipherInverts :
    let s := { State.reset.loadKey keyB with blen := 4096 }
    s.blen.toNat ≤ s.params.bcap ∧ s.keyv = true := by decide

/-- All three kinds of region: one window, 15 words, three bytes. -/
theorem witness_ChencRunsTheStages :
    let s := { State.reset.loadKey key1 with blen := 127 }
    s.blen.toNat ≤ s.params.bcap ∧ s.keyv = true ∧ 0 < s.blen.toNat / 64 ∧ 1 < Ref.subWords s.blen.toNat := by decide

theorem witness_ChdecRunsTheStages :
    let s := { State.reset.loadKey key1 with blen := 127 }
    s.blen.toNat ≤ s.params.bcap ∧ s.keyv = true ∧ 0 < s.blen.toNat / 64 ∧ 1 < Ref.subWords s.blen.toNat := by decide

theorem witness_ChunkedCipherInverts :
    let s := { State.reset.loadKey key1 with blen := 4096 }
    s.blen.toNat ≤ s.params.bcap ∧ s.keyv = true := by decide

set_option maxRecDepth 100000 in
/-- 65 bytes, and the same bytes cut down to 64. -/
theorem witness_WindowsDoNotDependOnTheRest :
    let s := (bytesState (ramp 65)).loadKey key1
    let s' := { s with blen := 64 }
    s.blen.toNat ≤ s.params.bcap ∧ s'.blen.toNat ≤ s'.params.bcap ∧ s.keyv = true ∧ s'.keyv = true ∧ s.k = s'.k ∧
      s'.blen.toNat = 64 * (s.blen.toNat / 64) ∧ (∀ i, i < s'.blen.toNat → s.readB i = s'.readB i) ∧
      (∃ t, exec .chenc s = .next t) ∧ ∃ t', exec .chenc s' = .next t' := by
  refine ⟨by decide, by decide, rfl, rfl, rfl, by decide, fun _ _ => rfl, ?_, ?_⟩
  · exact exec_next .chenc _
  · exact exec_next .chenc _

/-- One byte more than the capacity, and the capacity. -/
theorem witness_KeyldPadLoadsThePaddedKey :
    State.reset.params.kcap < (33 : Word).toNat ∧ (32 : Word).toNat ≤ State.reset.params.kcap := by decide

/-- For each clause in order: 33; 31; 8; and the shortest and, at the capacity, the longest raw key. -/
theorem witness_KeyldRawLoadsSixteenBytes :
    let p := State.reset.params
    p.kcap < (33 : Word).toNat ∧ ((31 : Word).toNat ≤ p.kcap ∧ (31 : Word).toNat % 8 ≠ 0) ∧
      ((8 : Word).toNat ≤ p.kcap ∧ (8 : Word).toNat % 8 = 0 ∧ (8 : Word).toNat < 16) ∧
      [(16 : Word), 32].all (fun n => decide (n.toNat ≤ p.kcap ∧ n.toNat % 8 = 0 ∧ 16 ≤ n.toNat)) = true := by decide

/-- A key load that changes the key, and a reset that takes it away. -/
theorem witness_KeyChangesOnlyByLoadOrReset :
    let s := hostLine (.write .word 0 0x50) (kinState [0x61])
    let s' := hostLine .reset (State.reset.loadKey key1)
    (∃ t, step s = .next t ∧ ¬ Ref.SameKey s t) ∧ ∃ t, step s' = .next t ∧ s'.keyv = true ∧ t.keyv = false :=
  ⟨⟨_, rfl, fun h => absurd h.2 (by decide)⟩, ⟨_, rfl, rfl, rfl⟩⟩

/-- A success and a fault. -/
theorem witness_FrameOfPack :
    (∃ t, exec .pack (bytesState [1, 2, 3]) = .next t ∧ t.err = 0) ∧
      ∃ t, exec .packL { State.reset with blen := 4097 } = .next t ∧ t.err ≠ 0 :=
  ⟨⟨_, rfl, rfl⟩, ⟨_, rfl, by decide⟩⟩

theorem witness_FrameOfUnpack :
    State.reset.params.wellFormed = true ∧ (∃ t, exec .unpackL (wordsState [7, 4]) = .next t ∧ t.err = 0) ∧
      ∃ t, exec .unpackL (wordsState [7, 5]) = .next t ∧ t.err ≠ 0 :=
  ⟨by decide, ⟨_, rfl, rfl⟩, ⟨_, rfl, by decide⟩⟩

theorem witness_FrameOfWordCipher :
    (∃ t, exec .xxenc { State.reset.loadKey key1 with wcnt := 1 } = .next t ∧ t.err = 0) ∧
      ∃ t, exec .xxdec State.reset = .next t ∧ t.err ≠ 0 :=
  ⟨⟨_, rfl, rfl⟩, ⟨_, rfl, by decide⟩⟩

theorem witness_FrameOfByteCiphers :
    (∃ t, exec .bsenc ((bytesState [1, 2, 3]).loadKey key1) = .next t ∧ t.err = 0) ∧
      ∃ t, exec .chdec State.reset = .next t ∧ t.err ≠ 0 :=
  ⟨⟨_, rfl, rfl⟩, ⟨_, rfl, by decide⟩⟩

theorem witness_FrameOfKeyLoads :
    (∃ t, exec .keyldPad (kinState [0x61]) = .next t ∧ t.err = 0) ∧
      ∃ t, exec .keyldRaw { State.reset with klen := 12 } = .next t ∧ t.err ≠ 0 :=
  ⟨⟨_, rfl, rfl⟩, ⟨_, rfl, by decide⟩⟩

/-- The second and the last entry of the map. -/
theorem witness_RegisterReadsFollowTheMap :
    let s := hostLine (.read .word 0x04) (State.reset.loadKey key1)
    s.busy = false ∧ s.awaiting = false ∧ fetchLine s = some (.read .word 0x04) ∧
      ((0x04 : BitVec 18), s.status) ∈ [((0x00 : BitVec 18), (0 : Word)), (0x04, s.status), (0x08, s.blen),
        (0x0C, s.wcnt), (0x10, s.klen), (0x14, BitVec.ofNat 32 s.params.bcap),
        (0x18, BitVec.ofNat 32 (s.params.bcap / 4 + 1)), (0x1C, BitVec.ofNat 32 s.params.kcap), (0x20, s.kw 0),
        (0x24, s.kw 1), (0x28, s.kw 2), (0x2C, s.kw 3)] := by
  refine ⟨rfl, rfl, rfl, ?_⟩
  simp

/-- The last byte and the last word of each window. -/
theorem witness_BufferReadsFollowTheMap :
    let line (width : Width) (o : Nat) := hostLine (.read width (BitVec.ofNat 18 o)) State.reset
    (State.reset.busy = false ∧ State.reset.awaiting = false ∧ State.reset.params.wellFormed = true) ∧
      (4095 < State.reset.params.bcap ∧
        fetchLine (line .byte (0x10000 + 4095)) = some (.read .byte (BitVec.ofNat 18 (0x10000 + 4095)))) ∧
      (4 * 1023 < State.reset.params.bcap ∧
        fetchLine (line .word (0x10000 + 4 * 1023)) = some (.read .word (BitVec.ofNat 18 (0x10000 + 4 * 1023)))) ∧
      (31 < State.reset.params.kcap ∧
        fetchLine (line .byte (0x40 + 31)) = some (.read .byte (BitVec.ofNat 18 (0x40 + 31)))) ∧
      (4 * 7 < State.reset.params.kcap ∧
        fetchLine (line .word (0x40 + 4 * 7)) = some (.read .word (BitVec.ofNat 18 (0x40 + 4 * 7)))) ∧
      1024 < State.reset.params.bcap / 4 + 1 ∧
        fetchLine (line .word (0x20000 + 4 * 1024)) = some (.read .word (BitVec.ofNat 18 (0x20000 + 4 * 1024))) := by
  decide

theorem witness_LengthRegisterWritesStore :
    [(0x08 : BitVec 18), 0x0C, 0x10].all (fun o =>
      let s := hostLine (.write .word o 0xffffffff) State.reset
      decide (s.busy = false ∧ s.awaiting = false ∧ fetchLine s = some (.write .word o 0xffffffff))) = true := by decide

theorem witness_ReadOnlyRegistersIgnoreWrites :
    [(0x04 : BitVec 18), 0x2C].all (fun o =>
      let s := hostLine (.write .word o 0xffffffff) State.reset
      decide (s.busy = false ∧ s.awaiting = false ∧ o ∈ [(0x04 : BitVec 18), 0x14, 0x18, 0x1C, 0x20, 0x24, 0x28, 0x2C] ∧
        fetchLine s = some (.write .word o 0xffffffff))) = true := by decide

/-- The last element of each window. -/
theorem witness_BufferWritesStore :
    let line (width : Width) (o : Nat) := hostLine (.write width (BitVec.ofNat 18 o) 0x5a) State.reset
    (State.reset.busy = false ∧ State.reset.awaiting = false ∧ State.reset.params.wellFormed = true) ∧
      (4095 < State.reset.params.bcap ∧
        fetchLine (line .byte (0x10000 + 4095)) = some (.write .byte (BitVec.ofNat 18 (0x10000 + 4095)) 0x5a)) ∧
      (31 < State.reset.params.kcap ∧
        fetchLine (line .byte (0x40 + 31)) = some (.write .byte (BitVec.ofNat 18 (0x40 + 31)) 0x5a)) ∧
      1024 < State.reset.params.bcap / 4 + 1 ∧
        fetchLine (line .word (0x20000 + 4 * 1024)) =
          some (.write .word (BitVec.ofNat 18 (0x20000 + 4 * 1024)) 0x5a) := by
  decide

theorem witness_WordWritesToByteBuffersAreLittleEndian :
    let line (o : Nat) := hostLine (.write .word (BitVec.ofNat 18 o) 0x04030201) State.reset
    (State.reset.busy = false ∧ State.reset.awaiting = false ∧ State.reset.params.wellFormed = true) ∧
      (4 * 1023 < State.reset.params.bcap ∧
        fetchLine (line (0x10000 + 4 * 1023)) =
          some (.write .word (BitVec.ofNat 18 (0x10000 + 4 * 1023)) 0x04030201)) ∧
      4 * 7 < State.reset.params.kcap ∧
        fetchLine (line (0x40 + 4 * 7)) = some (.write .word (BitVec.ofNat 18 (0x40 + 4 * 7)) 0x04030201) := by
  decide

/-- The first clause: both ends of each reserved range. -/
theorem witness_AccessesOutsideTheInterfaceStop_reserved :
    let p := State.reset.params
    p.wellFormed = true ∧
      fetchLine (hostLine (.read .word 0x30) State.reset) = some (.read .word 0x30) ∧
      [(0x30 : BitVec 18), 0x3F, 0x60, 0xFFFF, 0x11000, 0x1FFFF, 0x21004, 0x3FFFF].all (fun o =>
        decide ((0x30 ≤ o.toNat ∧ o.toNat < 0x40) ∨ (0x40 + p.kcap ≤ o.toNat ∧ o.toNat < 0x10000) ∨
          (0x10000 + p.bcap ≤ o.toNat ∧ o.toNat < 0x20000) ∨ 0x20000 + 4 * (p.bcap / 4 + 1) ≤ o.toNat)) = true := by
  decide

/-- The second clause: a register by byte, `KIN` and `B` by an unaligned word and a half word, `W` by byte. -/
theorem witness_AccessesOutsideTheInterfaceStop_unlisted :
    let p := State.reset.params
    fetchLine (hostLine (.read .byte 0x2F) State.reset) = some (.read .byte 0x2F) ∧
      [((0x2F : BitVec 18), Width.byte), (0x41, .word), (0x5F, .half), (0x10FFF, .word), (0x21003, .byte)].all (fun a =>
        decide ((a.1.toNat < 0x30 ∨ (0x40 ≤ a.1.toNat ∧ a.1.toNat < 0x40 + p.kcap) ∨
            (0x10000 ≤ a.1.toNat ∧ a.1.toNat < 0x10000 + p.bcap) ∨
            (0x20000 ≤ a.1.toNat ∧ a.1.toNat < 0x20000 + 4 * (p.bcap / 4 + 1))) ∧
          (a.2 = .half ∨ (a.2 = .word ∧ a.1.toNat % 4 ≠ 0) ∨
            (a.2 = .byte ∧ (a.1.toNat < 0x30 ∨ 0x20000 ≤ a.1.toNat))))) = true := by
  decide

/-- The third clause: the last listed access of each kind, while BUSY is 1. -/
theorem witness_AccessesOutsideTheInterfaceStop_busy :
    let s := { hostLine (.read .word 0x2C) State.reset with busy := true }
    let p := s.params
    s.busy = true ∧ fetchLine s = some (.read .word 0x2C) ∧ HostLine.read .word 0x2C ≠ .read .word 0x04 ∧
      Ref.Listed p .word 0x2C ∧ Ref.Listed p .word 0x21000 ∧ Ref.Listed p .byte 0x5F ∧ Ref.Listed p .word 0x10FFC := by decide

/-- The host waits to read DONE, the engine being idle again, and its next action is the given line. -/
def waiting (line : HostLine) : State := { hostLine line State.reset with awaiting := true, done := true }

/-- A write to CMD; the accesses barred after it, from another write to CMD and a write to STATUS to the last byte of B; the
read of STATUS; and the three ends of the wait. -/
theorem witness_OnlyStatusUntilDoneIsRead :
    (State.reset.busy = false ∧ State.reset.awaiting = false ∧
      fetchLine (hostLine (.write .word 0 0x10) State.reset) = some (.write .word 0 0x10)) ∧
    [((0x00 : BitVec 18), Width.word), (0x04, .word), (0x21000, .word), (0x40, .byte), (0x10FFF, .byte)].all (fun a =>
      let line := HostLine.write a.2 a.1 1
      let s := waiting line
      decide (s.params.wellFormed = true ∧ s.busy = false ∧ s.awaiting = true ∧ fetchLine s = some line ∧
        line ≠ .read .word 0x04) && decide (Ref.Listed s.params a.2 a.1)) = true ∧
    [HostLine.read .word 0x04, .berr 3, .reset].all (fun line =>
      decide (fetchLine (waiting line) = some line ∧ (waiting line).awaiting = true ∧
        observe (fun t => t.awaiting) (step (waiting line)) = some false)) = true :=
  ⟨by decide, by decide, by decide⟩

/-- R240: after a CMD write a read of B stops, a read of STATUS does not. -/
theorem test_read_before_done_is_read :
    step (waiting (.read .byte 0x10000)) = .refused .accessBeforeDone ∧
      observe (fun t => t.readData) (step (waiting (.read .word 0x04))) = some 2 := ⟨rfl, by decide⟩

/-- A busy state too may be reset. -/
theorem witness_ResetActionClearsTheRegisters :
    fetchLine { hostLine .reset (State.reset.loadKey key1) with busy := true } = some .reset := by decide

/-- A branch not taken; one taken to the second line; one to a label that stands nowhere; a label line; END and the end
of the script. -/
theorem witness_HostControlLinesFollowTheNotation :
    let s := { State.reset with script := [.berr 7, .label 7] }
    let s' := { State.reset with script := [.berr 7, .stop], err := 5 }
    (fetchLine s = some (.berr 7) ∧ s.err = 0) ∧
      (fetchLine { s with err := 5 } = some (.berr 7) ∧ ({ s with err := 5 } : State).err ≠ 0 ∧
        s.script[1]? = some (.label 7) ∧ ∀ j, j < 1 → s.script[j]? ≠ some (.label 7)) ∧
      (fetchLine s' = some (.berr 7) ∧ s'.err ≠ 0 ∧ ∀ j : Nat, s'.script[j]? ≠ some (.label 7)) ∧
      fetchLine { s with pos := 1 } = some (.label 7) ∧ fetchLine { s' with pos := 1 } = some .stop ∧
      fetchLine State.reset = none := by
  refine ⟨by decide, by decide, ⟨rfl, by decide, ?_⟩, rfl, rfl, rfl⟩
  intro j
  match j with
  | 0 => decide
  | 1 => decide
  | j + 2 => simp

theorem witness_EveryStepKeepsTheInvariant :
    let s := hostLine (.write .word 0 0x50) (kinState [0x61, 0x62, 0x63])
    s.Inv ∧ ∃ t, step s = .next t := ⟨by decide, _, rfl⟩

/-- A script with every kind of line; the BERR line after the CMD write reads STATUS. -/
theorem witness_LegalScriptsNeverStop :
    let s := { State.reset with script :=
      [.write .word 0 0x41, .berr 1, .write .byte 0x10FFF 0x5a, .read .word 0x21000, .reset, .label 1, .stop] }
    s.Inv ∧ s.ScriptLegal := by decide

/-- A host that waits, before a label and the read of STATUS. -/
theorem witness_LegalScriptsNeverStop_waiting :
    let s := { State.reset with
      script := [.write .word 0 0x10, .label 1, .read .word 0x04, .read .word 0x20000]
      pos := 1, awaiting := true, done := true }
    s.Inv ∧ s.ScriptLegal := by decide

/-- R240: a script that reads B, or writes CMD again, right after a CMD write is not legal. -/
theorem test_script_without_poll_is_not_legal :
    ¬ ({ State.reset with script := [.write .word 0 0x10, .read .word 0x10000] } : State).ScriptLegal ∧
      ¬ ({ State.reset with script := [.write .word 0 0x10, .write .word 0 0x11] } : State).ScriptLegal := by decide

/-- Two states that differ in a hidden register, the free-value counter and the number of lanes. -/
theorem witness_HiddenStateAndLanesNeverMatter :
    let s := hostLine (.write .word 0 0x50) State.reset
    let s' := { s with hidden := { Hidden.zero with sum := 5 }, finished := 3, params := ⟨4096, 32, 2⟩ }
    s ≠ s' ∧ Ref.forget s = Ref.forget s' ∧ ∃ t, step s = .next t := ⟨by decide, by decide, _, rfl⟩

/-- R87, R60: an index inside the buffer names its own element. -/
theorem test_notation_index :
    Script.wrW 3 [5] = [.write .word 0x2000C 5] ∧ Script.wrB 0x107 [9] = [.write .byte 0x10107 9] ∧
    Script.wrKin 1 [9] = [.write .byte 0x41 9] := by decide

/-- Log 18: an index outside the buffer's area reaches neither CMD nor another buffer. -/
theorem test_notation_index_outside :
    Script.wrW 32768 [5] = [.write .word 0x30 5] ∧ Script.wrKin 0xFFC0 [5] = [.write .byte 0x30 5] := by decide

end Sys2Proof.Tests
end

-- Proofs: the machine's invariant
section
/-! SUPPORT. The machine's invariant (`State.Inv`): what each operation keeps of its three parts, and that every step
keeps the whole. -/

namespace Sys2Proof.Machine

/-! ### Admissible parameters and codes -/

/-- `BCAP` is a multiple of 4 (spec/00_scope.md R9). -/
theorem Params.bcap_mod_four {p : Params} (hp : p.wellFormed = true) : p.bcap % 4 = 0 := by
  simp only [Params.wellFormed, Params.bcapAligned, Bool.and_eq_true, beq_iff_eq] at hp
  omega

/-- Every fault has one of the codes of spec/60_exceptions.md R200. -/
theorem EngineFault.code_le_five (f : EngineFault) : f.code.toNat ≤ 5 := by cases f <;> decide

/-- The length a good header declares fits in the words before the header (spec/40_wordcodec.md R104). -/
theorem le_of_headerOk {wcnt len : Nat} (h : headerOk wcnt len = true) : len + 4 ≤ 4 * wcnt := by
  simp only [headerOk, Bool.and_eq_true, decide_eq_true_eq] at h
  omega

/-! ### Storage -/

variable {s t : State}

/-- Words that fit in `W`, put at its front, keep every buffer in canonical form. -/
theorem storageLegal_putWords {ws : List Word} (h : s.StorageLegal) (hl : ws.length ≤ s.params.wcap) :
    (s.putWords ws).StorageLegal := by
  obtain ⟨hp, hw, hb, hkin⟩ := h
  exact ⟨hp, Memory.wf_putRange ws ((Nat.zero_add _).trans_le hl) hw, hb, hkin⟩

/-- Bytes that fit in `B`, put at its front, keep every buffer in canonical form. -/
theorem storageLegal_putBytes {bs : List Byte} (h : s.StorageLegal) (hl : bs.length ≤ s.params.bcap) :
    (s.putBytes bs).StorageLegal := by
  obtain ⟨hp, hw, hb, hkin⟩ := h
  exact ⟨hp, hw, Memory.wf_putRange bs ((Nat.zero_add _).trans_le hl) hb, hkin⟩

/-- A block command on words inside the capacity keeps every buffer in canonical form. -/
theorem storageLegal_permuteWords {perm : (BitVec 2 → Word) → List Word → List Word} (h : s.StorageLegal)
    (hperm : ∀ kw ws, (perm kw ws).length = ws.length) (hfits : s.wcntFits = true) :
    (s.permuteWords perm).StorageLegal := by
  rcases Nat.lt_or_ge s.wcnt.toNat 2 with hn | hn
  · rwa [State.permuteWords_of_lt_two hn]
  · rw [State.permuteWords_of_two_le hn]
    exact storageLegal_putWords h (by rw [hperm, State.words_length]; exact s.wcntFits_iff.mp hfits)

/-- The chunked engine keeps every buffer in canonical form: `transform` keeps the length. -/
theorem storageLegal_transform {perm : List Word → List Word} {span : List Byte → List Byte} (h : s.StorageLegal)
    (hk : LengthKeeping perm span) (hfits : s.blenFits = true) :
    (s.putBytes (transform perm span s.bytes)).StorageLegal :=
  storageLegal_putBytes h (by rw [(transform_spec hk _).1, State.bytes_length]; exact s.blenFits_iff.mp hfits)

/-- What an admitted command writes stays inside the buffer it writes. -/
theorem storageLegal_commandEffect {i : Instr} (h : s.StorageLegal) (ha : admitted i s = true) :
    (commandEffect i s).StorageLegal := by
  have ⟨hp, _⟩ := h
  have h4 := Params.bcap_mod_four hp
  cases i <;>
    simp only [admitted, Bool.and_eq_true, decide_eq_true_eq, State.blenFits_iff, State.wcntFits_iff] at ha
  case pack =>
    exact storageLegal_putWords (ws := packWords s.bytes) h
      (by simp only [packWords_length, State.bytes_length, Params.wcap]; omega)
  case packL =>
    exact storageLegal_putWords (ws := packWords s.bytes ++ [s.blen]) h
      (by
        simp only [List.length_append, List.length_singleton, packWords_length, State.bytes_length, Params.wcap]
        omega)
  case unpack =>
    exact storageLegal_putBytes (bs := unpackWords s.words) h
      (by simp only [unpackWords_length, State.words_length]; omega)
  case unpackL =>
    have hlen := le_of_headerOk ha.2
    exact storageLegal_putBytes (bs := (unpackWords s.words).take _) h (by rw [List.length_take]; omega)
  case xxenc => exact storageLegal_permuteWords h encryptWords_length (s.wcntFits_iff.mpr ha.1)
  case xxdec => exact storageLegal_permuteWords h decryptWords_length (s.wcntFits_iff.mpr ha.1)
  case bsenc => exact storageLegal_putBytes h (by simpa using ha.1)
  case bsdec => exact storageLegal_putBytes h (by simpa using ha.1)
  case chenc => exact storageLegal_transform h (lengthKeeping_encrypt s.kw s.k) (s.blenFits_iff.mpr ha.1)
  case chdec => exact storageLegal_transform h (lengthKeeping_decrypt s.kw s.k) (s.blenFits_iff.mpr ha.1)
  case keyldPad => exact h
  case keyldRaw => exact h

/-! ### The key -/

/-- A command leaves the key register alone, or leaves a valid key in it (spec/10_state.md R24, R25). -/
theorem commandEffect_key (i : Instr) (s : State) :
    ((commandEffect i s).k = s.k ∧ (commandEffect i s).keyv = s.keyv) ∨ (commandEffect i s).keyv = true := by
  cases i
  case keyldPad => exact .inr rfl
  case keyldRaw => exact .inr rfl
  case xxenc => simp only [commandEffect, State.permuteWords]; split <;> simp
  case xxdec => simp only [commandEffect, State.permuteWords]; split <;> simp
  all_goals exact .inl ⟨rfl, rfl⟩

/-- A command keeps the key register zero until a key is valid. -/
theorem keyLegal_commandEffect {i : Instr} (h : s.KeyLegal) : (commandEffect i s).KeyLegal := by
  intro hkeyv
  rcases commandEffect_key i s with ⟨hk, hv⟩ | hv
  · rw [hk]; exact h (hv ▸ hkeyv)
  · simp [hv] at hkeyv

/-! ### Commands -/

/-- Completion with an existing code makes `STATUS` legal, whatever it was before (spec/10_state.md R29). -/
theorem statusLegal_complete {code : BitVec 4} (h : code.toNat ≤ 5) (s : State) : (s.complete code).StatusLegal :=
  ⟨rfl, h, fun hd => by simp at hd⟩

/-- Taking a fault meets the invariant. -/
theorem inv_raise {f : EngineFault} (hk : s.KeyLegal) (hs : s.StorageLegal) (h : raise f s = .next t) : t.Inv := by
  cases h
  exact ⟨statusLegal_complete f.code_le_five s, hk, hs⟩

/-- The execution of a command, on whose completion the invariant holds. -/
theorem inv_exec {i : Instr} (hk : s.KeyLegal) (hs : s.StorageLegal) (h : exec i s = .next t) : t.Inv := by
  rcases exec_cases i s with ⟨ha, he⟩ | ⟨-, f, -, he⟩
  · rw [he] at h
    cases h
    exact ⟨statusLegal_complete (by decide) _, keyLegal_commandEffect hk, storageLegal_commandEffect hs ha⟩
  · exact inv_raise hk hs (he ▸ h)

/-- The issue of any word keeps the key and the storage legal and ends with a legal `STATUS`. -/
theorem inv_issueCommand {v : Word} (hk : s.KeyLegal) (hs : s.StorageLegal) (h : issueCommand v s = .next t) :
    t.Inv := by
  rcases issueCommand_cases v s with ⟨i, -, he⟩ | ⟨e, -, he⟩
  · exact inv_exec (s := s.accept) hk hs (he ▸ h)
  · exact inv_raise (s := s.accept) hk hs (he ▸ h)

/-! ### Host actions -/

/-- The state reset leaves meets the invariant, for admissible parameters. -/
theorem inv_afterReset {p : Params} (hp : p.wellFormed = true) (epoch : Nat) : (State.afterReset p epoch).Inv :=
  ⟨⟨rfl, Nat.zero_le 5, fun _ => ⟨rfl, rfl⟩⟩, fun _ => rfl, hp, rfl, rfl, rfl⟩

/-- A read of `STATUS` keeps the invariant: it can only end the host's wait. -/
theorem inv_readStatus (h : s.Inv) : s.readStatus.Inv := by
  obtain ⟨⟨hbusy, herr, hdone⟩, hks⟩ := h
  refine ⟨⟨hbusy, herr, fun hd => ?_⟩, hks⟩
  obtain ⟨he, hw⟩ := hdone hd
  exact ⟨he, by simp [hw]⟩

/-- The bytes of a listed write of a byte space. -/
theorem writtenBytes_length {width : Width} (h : width = .byte ∨ width = .word) (v : Word) :
    (writtenBytes width v).length = width.bytes := by
  rcases h with rfl | rfl <;> rfl

/-- A listed write keeps the invariant: it stores inside a buffer, sets a length or issues a command. -/
theorem inv_writeLoc {width : Width} {offset : BitVec 18} {v : Word} {l : Loc} (h : s.Inv)
    (hl : resolve s.params width offset = .loc l) (hw : writeLoc width v s l = .next t) : t.Inv := by
  have ⟨hstatus, hk, hstorage⟩ := h
  have ⟨hp, hmw, hmb, hmkin⟩ := hstorage
  obtain ⟨inB, inKin, inW⟩ := resolve_in_range hp hl
  rcases writeLoc_cases hw with
    ⟨-, hc⟩ | rfl | rfl | rfl | rfl | ⟨i, rfl, rfl⟩ | ⟨i, rfl, rfl⟩ | ⟨j, rfl, rfl⟩
  · exact inv_issueCommand (s := s.await) hk hstorage hc
  · exact h
  · exact h
  · exact h
  · exact h
  · obtain ⟨hwidth, hi⟩ := inKin i rfl
    exact ⟨hstatus, hk, hp, hmw, hmb, Memory.wf_putRange _ (by rw [writtenBytes_length hwidth]; exact hi) hmkin⟩
  · obtain ⟨hwidth, hi⟩ := inB i rfl
    exact ⟨hstatus, hk, hp, hmw, Memory.wf_putRange _ (by rw [writtenBytes_length hwidth]; exact hi) hmb, hmkin⟩
  · exact ⟨hstatus, hk, hp, Memory.wf_put v (inW j rfl) hmw, hmb, hmkin⟩

/-- Every step keeps the invariant. -/
theorem inv_step (h : s.Inv) (hstep : step s = .next t) : t.Inv := by
  have ⟨_, _, hp, _⟩ := h
  rcases step_cases hstep with ⟨-, rfl⟩ | ⟨name, -, rfl⟩ | ⟨-, rfl⟩ | ⟨name, k, -, rfl⟩ | ⟨width, offset, -, -, rfl⟩ |
    ⟨width, offset, l, -, -, -, rfl⟩ | ⟨width, offset, v, l, -, hl, -, hw⟩
  · exact h
  · exact h
  · exact inv_afterReset hp (s.epoch + 1)
  · exact inv_readStatus h
  · exact inv_readStatus (s := s.advance) h
  · exact h
  · exact inv_writeLoc (s := s.advance) h hl hw

end Sys2Proof.Machine

open Sys2Proof Sys2Proof.Machine

/-- Settles O56, by the cases of a step. -/
theorem everyStepKeepsTheInvariant : Obligations.EveryStepKeepsTheInvariant := by
  unfold Obligations.EveryStepKeepsTheInvariant
  exact fun _ _ => inv_step

/-- Settles O55: the suggested parameters are admissible. -/
theorem resetMeetsTheInvariant : Obligations.ResetMeetsTheInvariant := by
  unfold Obligations.ResetMeetsTheInvariant
  exact inv_afterReset (p := Params.suggested) (by decide) 0
end

-- Proofs: what no visible outcome depends on
section
/-! SUPPORT. The step seen without the hidden registers, the counter of their free values and the number of lanes
(`Ref.forget`): every operation answers the same visible outcome for a state and for what `forget` leaves of it. -/

namespace Sys2Proof.Machine

open Sys2Proof.Ref

/-- An outcome without the parts no result may depend on; a stop stays as it is. -/
def visible : Host.Outcome State Fault Refusal → Host.Outcome State Fault Refusal
  | .next s => .next (forget s)
  | .fault r => .fault r
  | .refused r => .refused r

@[simp] theorem visible_next (s : State) : visible (.next s) = .next (forget s) := rfl

/-- The outcomes that look like a next state are the next states. -/
theorem visible_eq_next {o : Host.Outcome State Fault Refusal} {u : State} (h : visible o = .next u) :
    ∃ t, o = .next t ∧ forget t = u := by
  cases o with
  | next t => exact ⟨t, rfl, Host.Outcome.next.inj h⟩
  | fault r => cases h
  | refused r => cases h

/-- Two branches that look alike on each side of one test look alike. -/
theorem visible_ite {c : Prop} [Decidable c] {a a' b b' : Host.Outcome State Fault Refusal}
    (ha : visible a = visible a') (hb : visible b = visible b') :
    visible (if c then a else b) = visible (if c then a' else b') := by
  split
  · exact ha
  · exact hb

variable (s : State)

/-! ### The reads of a state without its hidden part -/

@[simp] theorem forget_words : (forget s).words = s.words := rfl
@[simp] theorem forget_kw : (forget s).kw = s.kw := rfl
@[simp] theorem forget_script : (forget s).script = s.script := rfl
@[simp] theorem forget_barred : (forget s).barred = s.barred := rfl
@[simp] theorem forget_fetchLine : fetchLine (forget s) = fetchLine s := rfl

/-- The address map does not depend on the number of lanes (spec/20_memory.md R60). -/
@[simp] theorem resolve_forget (width : Width) (offset : BitVec 18) :
    resolve (forget s).params width offset = resolve s.params width offset := rfl

/-- No read shows what `forget` leaves out (spec/20_memory.md R60). -/
@[simp] theorem readLoc_forget (width : Width) (l : Loc) : readLoc width (forget s) l = readLoc width s l := by
  cases l <;> rfl

/-! ### Commands -/

@[simp] theorem putWords_forget (ws : List Word) : (forget s).putWords ws = forget (s.putWords ws) := rfl

/-- A block command commutes with leaving out the hidden part. -/
theorem permuteWords_forget (perm : (BitVec 2 → Word) → List Word → List Word) :
    (forget s).permuteWords perm = forget (s.permuteWords perm) := by
  rcases Nat.lt_or_ge s.wcnt.toNat 2 with hn | hn
  · rw [State.permuteWords_of_lt_two hn, State.permuteWords_of_lt_two (s := forget s) hn]
  · rw [State.permuteWords_of_two_le hn, State.permuteWords_of_two_le (s := forget s) hn]
    rw [forget_kw, forget_words, putWords_forget]

/-- A cipher command whose check and effect do not see the hidden part. -/
theorem visible_cipherAdmission_forget {fits : State → Bool} {body : State → State}
    (hfits : fits (forget s) = fits s) (hbody : body (forget s) = forget (body s)) :
    visible (cipherAdmission fits body (forget s)) = visible (cipherAdmission fits body s) := by
  unfold cipherAdmission
  rw [hfits, hbody]
  exact visible_ite rfl (visible_ite rfl rfl)

/-- A cipher command over the bytes of `B`: its effect is a function of the key and of those bytes. -/
theorem visible_byteCipher_forget (f : Key → List Byte → List Byte) :
    visible (cipherAdmission State.blenFits (fun t => t.putBytes (f t.k t.bytes)) (forget s)) =
      visible (cipherAdmission State.blenFits (fun t => t.putBytes (f t.k t.bytes)) s) :=
  visible_cipherAdmission_forget s rfl rfl

/-- Every command takes the same fault or has the same visible effect. -/
theorem visible_exec_forget (i : Instr) : visible (exec i (forget s)) = visible (exec i s) := by
  cases i
  case pack => exact visible_ite rfl rfl
  case packL => exact visible_ite rfl rfl
  case unpack => exact visible_ite rfl (visible_ite rfl rfl)
  case unpackL => exact visible_ite rfl (visible_ite rfl (visible_ite rfl rfl))
  case xxenc => exact visible_cipherAdmission_forget s rfl (permuteWords_forget s _)
  case xxdec => exact visible_cipherAdmission_forget s rfl (permuteWords_forget s _)
  case bsenc => exact visible_byteCipher_forget s encSpan
  case bsdec => exact visible_byteCipher_forget s decSpan
  case chenc => exact visible_byteCipher_forget s (fun k => transform (encryptWords (Key.word k)) (encSpan k))
  case chdec => exact visible_byteCipher_forget s (fun k => transform (decryptWords (Key.word k)) (decSpan k))
  case keyldPad => exact visible_ite rfl rfl
  case keyldRaw => exact visible_ite rfl (visible_ite rfl (visible_ite rfl rfl))

theorem visible_issueCommand_forget (v : Word) : visible (issueCommand v (forget s)) = visible (issueCommand v s) := by
  unfold issueCommand
  cases decode v with
  | ok i => exact visible_exec_forget s.accept i
  | error e => rfl

/-! ### Host actions -/

theorem visible_writeLoc_forget (width : Width) (v : Word) (l : Loc) :
    visible (writeLoc width v (forget s) l) = visible (writeLoc width v s l) := by
  cases l
  case cmd => exact visible_issueCommand_forget s.await v
  all_goals rfl

theorem visible_hostWrite_forget (width : Width) (offset : BitVec 18) (v : Word) :
    visible (hostWrite width offset v (forget s)) = visible (hostWrite width offset v s) := by
  unfold hostWrite
  rw [resolve_forget, forget_barred]
  cases resolve s.params width offset with
  | loc l =>
    cases s.barred with
    | none => exact visible_writeLoc_forget s.advance width v l
    | some r => rfl
  | reserved => rfl
  | unlisted => rfl

theorem visible_hostRead_forget (width : Width) (offset : BitVec 18) :
    visible (hostRead width offset (forget s)) = visible (hostRead width offset s) := by
  unfold hostRead
  rw [resolve_forget, forget_barred]
  cases resolve s.params width offset with
  | loc l =>
    refine visible_ite rfl ?_
    cases s.barred with
    | none => simp only [readLoc_forget]; rfl
    | some r => rfl
  | reserved => rfl
  | unlisted => rfl

theorem visible_hostBranch_forget (name : Nat) :
    visible (hostBranch name (forget s)) = visible (hostBranch name s) := by
  unfold hostBranch
  refine visible_ite rfl ?_
  rw [forget_script]
  cases labelFrom name 0 s.script with
  | some k => rfl
  | none => rfl

theorem visible_runLine_forget (line : HostLine) : visible (runLine line (forget s)) = visible (runLine line s) := by
  cases line with
  | write width offset v => exact visible_hostWrite_forget s width offset v
  | read width offset => exact visible_hostRead_forget s width offset
  | reset => rfl
  | berr name => exact visible_hostBranch_forget s name
  | label name => rfl
  | stop => rfl

/-- A step looks the same from a state and from what `forget` leaves of it; so does a stop. -/
theorem visible_step_forget : visible (step (forget s)) = visible (step s) := by
  unfold step hostStep
  rw [forget_fetchLine]
  cases fetchLine s with
  | some line => exact visible_runLine_forget s line
  | none => rfl

end Sys2Proof.Machine

open Sys2Proof Sys2Proof.Machine

/-- Settles O58: both steps look like the step of what `forget` leaves of either state. -/
theorem hiddenStateAndLanesNeverMatter : Obligations.HiddenStateAndLanesNeverMatter := by
  unfold Obligations.HiddenStateAndLanesNeverMatter
  intro s s' t hforget hstep
  have hvisible : visible (step s') = .next (Ref.forget t) := by
    rw [← visible_step_forget s', ← hforget, visible_step_forget s, hstep, visible_next]
  obtain ⟨t', hstep', ht'⟩ := visible_eq_next hvisible
  exact ⟨t', hstep', ht'.symm⟩
end

-- Proofs: the write of a command word
section
/-! SUPPORT. The step at which the host writes a word to `CMD` (spec/10_state.md R29, R30). -/

namespace Sys2Proof.Machine

/-- The 32-bit access at offset 0 names `CMD` (spec/20_memory.md R60). -/
theorem resolve_word_zero (p : Params) : resolve p .word 0 = .loc .cmd := rfl

/-- The write to `CMD`, when nothing bars it, is the issue of the word, the host one line further and
waiting. -/
theorem step_of_cmd_write {s : State} {w : Word} (hbusy : s.busy = false) (hawaiting : s.awaiting = false)
    (hline : fetchLine s = some (.write .word 0 w)) : step s = issueCommand w s.advance.await := by
  have hbarred : s.barred = none := s.barred_eq_none.mpr ⟨hbusy, hawaiting⟩
  simp only [step, hostStep, hline, runLine, hostWrite, resolve_word_zero, hbarred, writeLoc]

/-- The issue of a command's word is its acceptance and execution. -/
theorem issueCommand_of_decode {w : Word} {i : Instr} (h : decode w = .ok i) (s : State) :
    issueCommand w s = exec i s.accept := by
  simp only [issueCommand, h]

end Sys2Proof.Machine

open Sys2Proof Sys2Proof.Machine

/-- Settles O5: the step is the issue of the word, and the issue of a command's word its execution. -/
theorem stepRunsTheWrittenCommand : Obligations.StepRunsTheWrittenCommand := by
  unfold Obligations.StepRunsTheWrittenCommand
  refine ⟨fun s w hbusy hawaiting hline => step_of_cmd_write hbusy hawaiting hline, ?_⟩
  intro s w i hbusy hawaiting hline hdecode
  rw [step_of_cmd_write hbusy hawaiting hline]
  exact issueCommand_of_decode hdecode s.advance.await
end

-- Proofs: the byte rotations
section
/-! SUPPORT. The byte rotations as arithmetic (spec/00_scope.md R13). -/

namespace Sys2Proof.Machine

/-- A rotation by 0 is the identity (spec/00_scope.md R13). -/
theorem rotl8_zero (b : Byte) : rotl8 b 0 = b := by
  have hout : b >>> 8 = 0 := BitVec.ushiftRight_eq_zero (by decide)
  simp [rotl8, hout]

/-- A right rotation is the left rotation by the rest of the byte. -/
theorem rotr8_eq_rotl8_sub (b : Byte) {r : Nat} (hr : r ≤ 8) : rotr8 b r = rotl8 b (8 - r) := by
  unfold rotr8 rotl8
  rw [BitVec.or_comm, Nat.sub_sub_self hr]

/-- A left rotation by 8 is the identity. -/
theorem rotl8_eight (b : Byte) : rotl8 b 8 = b := by
  have hout : b <<< 8 = 0 := BitVec.shiftLeft_eq_zero (by decide)
  simp [rotl8, hout]

/-- The bits rotated out at the top lie below the shifted ones, so that "or" is a sum (spec/00_scope.md R13). -/
theorem rotl8_toNat (b : Byte) {r : Nat} (hr : r ≤ 8) :
    (rotl8 b r).toNat = b.toNat * 2 ^ r % 256 + b.toNat / 2 ^ (8 - r) := by
  have hsplit : 256 = 2 ^ (8 - r) * 2 ^ r := by rw [← pow_add, Nat.sub_add_cancel hr]; rfl
  have hlow : b.toNat / 2 ^ (8 - r) < 2 ^ r := Nat.div_lt_of_lt_mul (hsplit ▸ b.isLt)
  have hhigh : b.toNat * 2 ^ r % 256 = (b.toNat % 2 ^ (8 - r)) <<< r := by
    rw [hsplit, Nat.mul_mod_mul_right, Nat.shiftLeft_eq]
  simp only [rotl8, BitVec.toNat_or, BitVec.toNat_shiftLeft, BitVec.toNat_ushiftRight, Nat.shiftRight_eq_div_pow,
    Nat.shiftLeft_eq b.toNat]
  rw [show 2 ^ 8 = 256 by rfl, hhigh, Nat.shiftLeft_add_eq_or_of_lt hlow]

end Sys2Proof.Machine

open Sys2Proof Sys2Proof.Machine

/-- Settles O27: a right rotation by `r` is a left one by `8 - r`, and a left one has the rule's arithmetic. -/
theorem byteRotations : Obligations.ByteRotations := by
  unfold Obligations.ByteRotations
  intro b
  have hzero : rotr8 b 0 = b := (rotr8_eq_rotl8_sub b (Nat.zero_le 8)).trans (rotl8_eight b)
  refine ⟨rotl8_zero b, hzero, fun r h1 h7 => ⟨rotl8_toNat b (by omega), ?_⟩,
    fun r h7 => ⟨rotl8_rotr8 b (by omega), ?_⟩⟩
  · rw [rotr8_eq_rotl8_sub b (by omega), rotl8_toNat b (Nat.sub_le 8 r), Nat.sub_sub_self (by omega), Nat.add_comm]
  · rcases Nat.eq_zero_or_pos r with rfl | hpos
    · exact hzero.trans (rotl8_zero b).symm
    · rw [rotr8_eq_rotl8_sub b (by omega), Nat.mod_eq_of_lt (by omega)]
end

-- Proofs: how a command completes
section
/-! SUPPORT. The state a command leaves (spec/10_state.md R29; spec/60_exceptions.md R204), and `STATUS` as a number
(spec/10_state.md R28). -/

namespace Sys2Proof.Machine

/-- A command leaves its effect, completed with code 0, or the state it was issued in, completed with a fault's code. -/
theorem exec_next_cases {i : Instr} {s t : State} (h : exec i s = .next t) :
    t = (commandEffect i s).spendHidden.complete 0 ∨
      ∃ f, f ≠ EngineFault.illegalCommand ∧ t = s.complete f.code := by
  rcases exec_cases i s with ⟨-, he⟩ | ⟨-, f, hf, he⟩
  · exact .inl (Host.Outcome.next.inj (h.symm.trans he))
  · exact .inr ⟨f, hf, Host.Outcome.next.inj (h.symm.trans he)⟩

/-- Bits put above `n` others weigh `2 ^ n`. -/
theorem toNat_append_eq_add {m n : Nat} (x : BitVec m) (y : BitVec n) :
    (x ++ y).toNat = x.toNat * 2 ^ n + y.toNat := by
  rw [BitVec.toNat_append, ← Nat.shiftLeft_add_eq_or_of_lt y.isLt, Nat.shiftLeft_eq]

end Sys2Proof.Machine

open Sys2Proof Sys2Proof.Machine

/-- Settles O8: a command takes one of the faults 1 to 4 or ends with code 0. -/
theorem everyCommandCompletes : Obligations.EveryCommandCompletes := by
  unfold Obligations.EveryCommandCompletes
  intro i s
  obtain ⟨t, ht⟩ := exec_next i s
  refine ⟨t, ht, ?_⟩
  rcases exec_next_cases ht with rfl | ⟨f, hf, rfl⟩
  · exact ⟨rfl, rfl, Nat.zero_le 4⟩
  · exact ⟨rfl, rfl, EngineFault.code_le_four hf⟩

/-- Settles O7: each field weighs the power of two of the bits below it. -/
theorem statusRegisterLayout : Obligations.StatusRegisterLayout := by
  unfold Obligations.StatusRegisterLayout
  intro s
  simp only [State.status, statusWord, toNat_append_eq_add, BitVec.toNat_ofBool, BitVec.toNat_ofNat]
  omega
end

-- Proofs: what the ciphers and the key loads leave alone
section
/-! SUPPORT. The frames of spec/10_state.md R34: a cipher writes only the front of its buffer, no longer than its operand;
a key load writes only the key. -/

namespace Sys2Proof.Machine

open Sys2Proof.Ref

/-! ### Frames of the writing operations -/

variable (s : State)

/-- Completion changes `STATUS` only (spec/60_exceptions.md R204). -/
theorem sameButStatus_complete (code : BitVec 4) : SameButStatus s (s.complete code) :=
  ⟨fun _ => rfl, rfl, fun _ => rfl, rfl, ⟨fun _ => rfl, rfl⟩, ⟨rfl, rfl⟩, rfl, rfl, rfl, rfl, rfl, rfl⟩

/-- A write to the front of `W` changes `W` only. -/
theorem allButW_putWords (ws : List Word) : AllButW s (s.putWords ws) :=
  ⟨s.putWords_readB ws, rfl, ⟨s.putWords_readKin ws, rfl⟩, ⟨rfl, rfl⟩, rfl, rfl, rfl, rfl, rfl, rfl⟩

/-- A write to the front of `B` changes `B` only. -/
theorem allButB_putBytes (bs : List Byte) : AllButB s (s.putBytes bs) :=
  ⟨s.putBytes_readW bs, rfl, ⟨s.putBytes_readKin bs, rfl⟩, ⟨rfl, rfl⟩, rfl, rfl, rfl, rfl, rfl, rfl⟩

/-- A load of the key changes the key only. -/
theorem allButKey_loadKey (key : Key) : AllButKey s (s.loadKey key) :=
  ⟨s.loadKey_readB key, rfl, s.loadKey_readW key, rfl, ⟨s.loadKey_readKin key, rfl⟩, rfl, rfl, rfl, rfl, rfl, rfl⟩

/-- Words from the end of a write to the front of `W` on (spec/40_wordcodec.md R102). -/
theorem putWords_readW_of_le {ws : List Word} {j : Nat} (h : ws.length ≤ j) : (s.putWords ws).readW j = s.readW j := by
  rw [State.putWords_readW, if_neg (Nat.not_lt.mpr h)]

/-- Bytes from the end of a write to the front of `B` on (spec/40_wordcodec.md R108). -/
theorem putBytes_readB_of_le {bs : List Byte} {i : Nat} (h : bs.length ≤ i) : (s.putBytes bs).readB i = s.readB i := by
  rw [State.putBytes_readB, if_neg (Nat.not_lt.mpr h)]

/-! ### What each command writes -/

variable {s} {i : Instr}

/-- A block command writes at most the words of its operand, none when it is a no-op. -/
theorem permuteWords_eq_putWords {perm : (BitVec 2 → Word) → List Word → List Word}
    (hperm : ∀ kw ws, (perm kw ws).length = ws.length) :
    ∃ ws : List Word, ws.length ≤ s.wcnt.toNat ∧ s.permuteWords perm = s.putWords ws := by
  rcases Nat.lt_or_ge s.wcnt.toNat 2 with hn | hn
  · exact ⟨[], Nat.zero_le _, State.permuteWords_of_lt_two hn⟩
  · exact ⟨_, by rw [hperm, State.words_length], State.permuteWords_of_two_le hn⟩

/-- XXENC and XXDEC write words below WCNT. -/
theorem commandEffect_eq_putWords (hi : i = .xxenc ∨ i = .xxdec) :
    ∃ ws : List Word, ws.length ≤ s.wcnt.toNat ∧ commandEffect i s = s.putWords ws := by
  rcases hi with rfl | rfl
  · exact permuteWords_eq_putWords encryptWords_length
  · exact permuteWords_eq_putWords decryptWords_length

/-- The ciphers of the byte buffer write as many bytes as they read. -/
theorem commandEffect_eq_putBytes (hi : i = .bsenc ∨ i = .bsdec ∨ i = .chenc ∨ i = .chdec) :
    ∃ bs : List Byte, bs.length = s.blen.toNat ∧ commandEffect i s = s.putBytes bs := by
  have hbytes := s.bytes_length
  rcases hi with rfl | rfl | rfl | rfl
  · exact ⟨_, (encSpan_length s.k s.bytes).trans hbytes, rfl⟩
  · exact ⟨_, (decSpan_length s.k s.bytes).trans hbytes, rfl⟩
  · exact ⟨_, (transform_spec (lengthKeeping_encrypt s.kw s.k) s.bytes).1.trans hbytes, rfl⟩
  · exact ⟨_, (transform_spec (lengthKeeping_decrypt s.kw s.k) s.bytes).1.trans hbytes, rfl⟩

/-- KEYLD.PAD and KEYLD.RAW write a key. -/
theorem commandEffect_eq_loadKey (hi : i = .keyldPad ∨ i = .keyldRaw) : ∃ key, commandEffect i s = s.loadKey key := by
  rcases hi with rfl | rfl
  · exact ⟨_, rfl⟩
  · exact ⟨_, rfl⟩

end Sys2Proof.Machine

open Sys2Proof Sys2Proof.Machine

/-- Settles O42: on success words below WCNT are put, on a fault nothing is. -/
theorem frameOfWordCipher : Obligations.FrameOfWordCipher := by
  unfold Obligations.FrameOfWordCipher
  intro i s t hi h
  rcases exec_next_cases h with rfl | ⟨f, -, rfl⟩
  · obtain ⟨ws, hlen, he⟩ := commandEffect_eq_putWords (s := s) hi
    rw [he]
    exact ⟨allButW_putWords s ws, rfl, fun j hj => putWords_readW_of_le s (hlen.trans hj), fun herr => absurd rfl herr⟩
  · obtain ⟨hB, hblen, hW, hwcnt, hrest⟩ := sameButStatus_complete s f.code
    exact ⟨⟨hB, hblen, hrest⟩, hwcnt, fun j _ => hW j, fun _ => hW⟩

/-- Settles O43: on success as many bytes as BLEN says are put, on a fault none is. -/
theorem frameOfByteCiphers : Obligations.FrameOfByteCiphers := by
  unfold Obligations.FrameOfByteCiphers
  intro i s t hi h
  rcases exec_next_cases h with rfl | ⟨f, -, rfl⟩
  · obtain ⟨bs, hlen, he⟩ := commandEffect_eq_putBytes (s := s) hi
    rw [he]
    exact ⟨allButB_putBytes s bs, rfl, fun j hj => putBytes_readB_of_le s (hlen.trans_le hj),
      fun herr => absurd rfl herr⟩
  · obtain ⟨hB, hblen, hW, hwcnt, hrest⟩ := sameButStatus_complete s f.code
    exact ⟨⟨hW, hwcnt, hrest⟩, hblen, fun j _ => hB j, fun _ => hB⟩

/-- Settles O44: on success a key is loaded, on a fault, whose code is not 0, none is. -/
theorem frameOfKeyLoads : Obligations.FrameOfKeyLoads := by
  unfold Obligations.FrameOfKeyLoads
  intro i s t hi h
  rcases exec_next_cases h with rfl | ⟨f, -, rfl⟩
  · obtain ⟨key, he⟩ := commandEffect_eq_loadKey (s := s) hi
    rw [he]
    exact ⟨allButKey_loadKey s key, fun herr => absurd rfl herr, fun _ => rfl⟩
  · obtain ⟨hB, hblen, hW, hwcnt, hinput, hkey, hhost⟩ := sameButStatus_complete s f.code
    exact ⟨⟨hB, hblen, hW, hwcnt, hinput, hhost⟩, fun _ => hkey, fun herr => absurd herr f.code_ne_zero⟩
end

-- Proofs: which words are commands
section
/-! SUPPORT. A word that decodes to a command is that command's word (spec/30_encoding.md R81, R82). -/

namespace Sys2Proof

theorem zeroFieldsClear_iff (w : Word) :
    zeroFieldsClear w = true ↔ w.extractLsb' 8 24 = 0#24 ∧ w.extractLsb' 2 2 = 0#2 := by
  simp [zeroFieldsClear]

/-- Every command's word keeps the fields ZERO and ZERO2 clear. -/
theorem zeroFieldsClear_encode (i : Instr) : zeroFieldsClear (encode i) = true := by cases i <;> rfl

/-- The fields a command is read from are those of its word. -/
theorem fields_of_decodeFields {fam : BitVec 4} {md dir : Bool} {i : Instr} (h : decodeFields fam md dir = some i) :
    fam = fieldFam (encode i) ∧ md = fieldMod (encode i) ∧ dir = fieldDir (encode i) := by
  have key : ∀ (fam : BitVec 4) (md dir : Bool), ∀ i ∈ decodeFields fam md dir,
      fam = fieldFam (encode i) ∧ md = fieldMod (encode i) ∧ dir = fieldDir (encode i) := by decide
  exact key fam md dir i h

/-- A word that decodes has clear zero fields and the fields of a command. -/
theorem decode_eq_ok_iff (w : Word) (i : Instr) :
    decode w = .ok i ↔
      zeroFieldsClear w = true ∧ decodeFields (fieldFam w) (fieldMod w) (fieldDir w) = some i := by
  unfold decode
  cases zeroFieldsClear w <;> cases decodeFields (fieldFam w) (fieldMod w) (fieldDir w) <;> simp

/-- The decoder accepts no word but the commands' own. -/
theorem eq_encode_of_decode {w : Word} {i : Instr} (h : decode w = .ok i) : w = encode i := by
  obtain ⟨hzero, hfields⟩ := (decode_eq_ok_iff w i).mp h
  obtain ⟨hfam, hmod, hdir⟩ := fields_of_decodeFields hfields
  obtain ⟨hz, hz2⟩ := (zeroFieldsClear_iff w).mp hzero
  obtain ⟨hi, hi2⟩ := (zeroFieldsClear_iff (encode i)).mp (zeroFieldsClear_encode i)
  exact word_eq_of_fields (hz.trans hi.symm) (hz2.trans hi2.symm) hfam hmod hdir

end Sys2Proof
end

-- Proofs: when the key changes
section
/-! SUPPORT. What each operation does to K and KEYV, up to a whole step (spec/10_state.md R24, R25). -/

namespace Sys2Proof.Machine

open Sys2Proof.Ref

variable {s t : State}

/-- XXENC and XXDEC write words only. -/
theorem wordCipher_sameKey (s : State) {i : Instr} (hi : i = .xxenc ∨ i = .xxdec) : SameKey s (commandEffect i s) := by
  obtain ⟨ws, -, he⟩ := commandEffect_eq_putWords (s := s) hi
  rw [he]
  exact ⟨rfl, rfl⟩

/-- A command leaves the key alone, or it is a key load and leaves a valid one. -/
theorem exec_key {i : Instr} (h : exec i s = .next t) :
    SameKey s t ∨ ((i = .keyldPad ∨ i = .keyldRaw) ∧ t.keyv = true) := by
  rcases exec_next_cases h with rfl | ⟨f, -, rfl⟩
  · cases i
    case keyldPad => exact .inr ⟨.inl rfl, rfl⟩
    case keyldRaw => exact .inr ⟨.inr rfl, rfl⟩
    case xxenc => exact .inl (wordCipher_sameKey s (.inl rfl))
    case xxdec => exact .inl (wordCipher_sameKey s (.inr rfl))
    all_goals exact .inl ⟨rfl, rfl⟩
  · exact .inl ⟨rfl, rfl⟩

/-- A word written to `CMD` leaves the key alone, or it is the word of a key load. -/
theorem issueCommand_key {v : Word} (h : issueCommand v s = .next t) :
    SameKey s t ∨ ∃ i, (i = .keyldPad ∨ i = .keyldRaw) ∧ v = encode i ∧ t.keyv = true := by
  rcases issueCommand_cases v s with ⟨i, hdecode, he⟩ | ⟨e, -, he⟩
  · rcases exec_key (he ▸ h) with hsame | ⟨hi, hkeyv⟩
    · exact .inl hsame
    · exact .inr ⟨i, hi, eq_encode_of_decode hdecode, hkeyv⟩
  · cases he ▸ h
    exact .inl ⟨rfl, rfl⟩

/-- A host write leaves the key alone, or it writes the word of a key load to `CMD`. -/
theorem writeLoc_key {width : Width} {v : Word} {l : Loc} (h : writeLoc width v s l = .next t) :
    SameKey s t ∨ ∃ i, (i = .keyldPad ∨ i = .keyldRaw) ∧ l = .cmd ∧ v = encode i ∧ t.keyv = true := by
  rcases writeLoc_cases h with ⟨hl, hissue⟩ | rfl | rfl | rfl | rfl | ⟨i, -, rfl⟩ | ⟨i, -, rfl⟩ | ⟨j, -, rfl⟩
  · rcases issueCommand_key hissue with hsame | ⟨i, hi, hv, hkeyv⟩
    · exact .inl hsame
    · exact .inr ⟨i, hi, hl, hv, hkeyv⟩
  all_goals exact .inl ⟨rfl, rfl⟩

/-- A step leaves the key alone, or it is a reset, or it runs a key load and leaves a valid key. -/
theorem step_key (h : step s = .next t) :
    SameKey s t ∨ fetchLine s = some .reset ∨
      ∃ i, (i = .keyldPad ∨ i = .keyldRaw) ∧ fetchLine s = some (.write .word 0 (encode i)) ∧ t.keyv = true := by
  rcases step_cases h with ⟨-, rfl⟩ | ⟨name, -, rfl⟩ | ⟨hline, -⟩ | ⟨name, k, -, rfl⟩ | ⟨width, offset, -, -, rfl⟩ |
    ⟨width, offset, l, -, -, -, rfl⟩ | ⟨width, offset, v, l, hline, hl, -, hw⟩
  case inr.inr.inl => exact .inr (.inl hline)
  case inr.inr.inr.inr.inr.inr =>
    rcases writeLoc_key hw with hsame | ⟨i, hi, rfl, rfl, hkeyv⟩
    · exact .inl hsame
    · obtain ⟨rfl, rfl⟩ := resolve_cmd hl
      exact .inr (.inr ⟨i, hi, hline, hkeyv⟩)
  all_goals exact .inl ⟨rfl, rfl⟩

end Sys2Proof.Machine

open Sys2Proof Sys2Proof.Machine

/-- Settles O39, by what a step does to the key: a key load leaves KEYV 1, so only reset makes it fall. -/
theorem keyChangesOnlyByLoadOrReset : Obligations.KeyChangesOnlyByLoadOrReset := by
  unfold Obligations.KeyChangesOnlyByLoadOrReset
  intro s t h
  rcases step_key h with hsame | hreset | ⟨i, hi, hline, hkeyv⟩
  · refine ⟨fun hchanged => absurd hsame hchanged, fun hbefore hafter => ?_⟩
    obtain ⟨-, hkeyv⟩ := hsame
    rw [hkeyv, hbefore] at hafter
    cases hafter
  · exact ⟨fun _ => .inl hreset, fun _ _ => hreset⟩
  · refine ⟨fun _ => .inr ?_, fun _ hafter => ?_⟩
    · rcases hi with rfl | rfl
      · exact .inl hline
      · exact .inr hline
    · rw [hkeyv] at hafter
      cases hafter
end

-- Proofs: writes to the registers, and their reset values
section
/-! SUPPORT. The host's writes to the register area of the window (spec/20_memory.md R60). -/

namespace Sys2Proof.Machine

/-- An aligned 32-bit access below offset 0x30 names the register of that word offset. -/
theorem resolve_register (p : Params) {offset : BitVec 18} (hlow : offset.toNat < 0x30)
    (haligned : offset.toNat % 4 = 0) : resolve p .word offset = .loc (registerAt (offset.toNat / 4)) := by
  simp [resolve, alignedWord, hlow, haligned]

/-- The places that ignore a write (spec/10_state.md R28, R31; the key words: log 9). -/
def Loc.readOnly : Loc → Bool
  | .status => true
  | .bcapr => true
  | .wcapr => true
  | .kcapr => true
  | .kw _ => true
  | _ => false

/-- A write to a read-only place changes nothing. -/
theorem writeLoc_of_readOnly {l : Loc} (h : l.readOnly = true) (width : Width) (v : Word) (s : State) :
    writeLoc width v s l = .next s := by
  cases l
  case status | bcapr | wcapr | kcapr | kw => rfl
  all_goals cases h

/-- A listed write does what its place says, when nothing bars it, and the host goes one line further. -/
theorem step_of_listed_write {s : State} {width : Width} {offset : BitVec 18} {v : Word} {l : Loc}
    (hbusy : s.busy = false) (hawaiting : s.awaiting = false)
    (hline : fetchLine s = some (.write width offset v)) (hl : resolve s.params width offset = .loc l) :
    step s = writeLoc width v s.advance l := by
  have hbarred : s.barred = none := s.barred_eq_none.mpr ⟨hbusy, hawaiting⟩
  simp only [step, hostStep, hline, runLine, hostWrite, hl, hbarred]

/-- A 32-bit write to a register offset does what that register says. -/
theorem step_of_register_write {s : State} {offset : BitVec 18} {v : Word} (hbusy : s.busy = false)
    (hawaiting : s.awaiting = false) (hline : fetchLine s = some (.write .word offset v))
    (hlow : offset.toNat < 0x30) (haligned : offset.toNat % 4 = 0) :
    step s = writeLoc .word v s.advance (registerAt (offset.toNat / 4)) :=
  step_of_listed_write hbusy hawaiting hline (resolve_register s.params hlow haligned)

end Sys2Proof.Machine

open Sys2Proof Sys2Proof.Machine

/-- Settles O47: the three offsets name BLEN, WCNT and KLEN. -/
theorem lengthRegisterWritesStore : Obligations.LengthRegisterWritesStore := by
  unfold Obligations.LengthRegisterWritesStore
  intro s v hbusy hawaiting
  exact ⟨fun hline => step_of_register_write hbusy hawaiting hline (by decide) (by decide),
    fun hline => step_of_register_write hbusy hawaiting hline (by decide) (by decide),
    fun hline => step_of_register_write hbusy hawaiting hline (by decide) (by decide)⟩

/-- Settles O48: each offset names a register or key word that ignores a write. -/
theorem readOnlyRegistersIgnoreWrites : Obligations.ReadOnlyRegistersIgnoreWrites := by
  unfold Obligations.ReadOnlyRegistersIgnoreWrites
  intro s offset v hbusy hawaiting hoffset hline
  have hnamed : ∀ o ∈ [(0x04 : BitVec 18), 0x14, 0x18, 0x1C, 0x20, 0x24, 0x28, 0x2C],
      o.toNat < 0x30 ∧ o.toNat % 4 = 0 ∧ (registerAt (o.toNat / 4)).readOnly = true := by
    simp only [List.forall_mem_cons, List.not_mem_nil, false_implies, implies_true]
    decide
  obtain ⟨hlow, haligned, hreadOnly⟩ := hnamed offset hoffset
  rw [step_of_register_write hbusy hawaiting hline hlow haligned]
  exact writeLoc_of_readOnly hreadOnly .word v s.advance

/-- Settles O52: the registers of `State.afterReset` are zero, and the suggested capacities fit in 32 bits. -/
theorem resetState : Obligations.ResetState := by
  unfold Obligations.ResetState
  exact ⟨rfl, rfl, rfl, rfl, fun i => Vector.getElem_replicate i.isLt, rfl, rfl, rfl, rfl⟩
end

-- Proofs: the areas of the host's window
section
/-! SUPPORT. The address map area by area (spec/20_memory.md R55, R60, R61): what an access of any width names in each area,
and where the offset of a buffer's element lands. -/

namespace Sys2Proof.Machine

open Sys2Proof.Ref

variable {p : Params} {width : Width} {offset : BitVec 18}

/-- The register area takes aligned 32-bit accesses. -/
theorem resolve_registerArea (hhigh : offset.toNat < 0x30) :
    resolve p width offset =
      if alignedWord width offset.toNat then .loc (registerAt (offset.toNat / 4)) else .unlisted := by
  simp only [resolve, if_pos hhigh]

/-- The `KIN` area takes bytes and aligned words. -/
theorem resolve_kinArea (hlow : 0x40 ≤ offset.toNat) (hhigh : offset.toNat < 0x40 + p.kcap) :
    resolve p width offset =
      if byteOrWord width offset.toNat then .loc (.kin (offset.toNat - 0x40)) else .unlisted := by
  simp only [resolve]
  rw [if_neg (by omega), if_pos ⟨hlow, hhigh⟩]

/-- The `B` area takes bytes and aligned words. -/
theorem resolve_bArea (hp : p.wellFormed = true) (hlow : 0x10000 ≤ offset.toNat)
    (hhigh : offset.toNat < 0x10000 + p.bcap) :
    resolve p width offset =
      if byteOrWord width offset.toNat then .loc (.b (offset.toNat - 0x10000)) else .unlisted := by
  have hbounds := Params.bounds hp
  simp only [resolve]
  rw [if_neg (by omega), if_neg (by omega), if_pos ⟨hlow, hhigh⟩]

/-- The `W` area takes aligned words. -/
theorem resolve_wArea (hp : p.wellFormed = true) (hlow : 0x20000 ≤ offset.toNat)
    (hhigh : offset.toNat < 0x20000 + 4 * p.wcap) :
    resolve p width offset =
      if alignedWord width offset.toNat then .loc (.w ((offset.toNat - 0x20000) / 4)) else .unlisted := by
  have hbounds := Params.bounds hp
  simp only [resolve]
  rw [if_neg (by omega), if_neg (by omega), if_neg (by omega), if_pos ⟨hlow, hhigh⟩]

/-- The gaps behind the registers and behind each buffer are reserved, whatever the width (spec/20_memory.md R61). -/
theorem resolve_reservedArea (hp : p.wellFormed = true)
    (h : (0x30 ≤ offset.toNat ∧ offset.toNat < 0x40) ∨
      (0x40 + p.kcap ≤ offset.toNat ∧ offset.toNat < 0x10000) ∨
      (0x10000 + p.bcap ≤ offset.toNat ∧ offset.toNat < 0x20000) ∨ 0x20000 + 4 * p.wcap ≤ offset.toNat) :
    resolve p width offset = .reserved := by
  have hbounds := Params.bounds hp
  simp only [resolve]
  rw [if_neg (by omega), if_neg (by omega), if_neg (by omega), if_neg (by omega)]

/-- An access of an area at a width or alignment the area does not take is unlisted (spec/20_memory.md R55). -/
theorem resolve_unlistedAccess (hp : p.wellFormed = true)
    (harea : offset.toNat < 0x30 ∨ (0x40 ≤ offset.toNat ∧ offset.toNat < 0x40 + p.kcap) ∨
      (0x10000 ≤ offset.toNat ∧ offset.toNat < 0x10000 + p.bcap) ∨
      (0x20000 ≤ offset.toNat ∧ offset.toNat < 0x20000 + 4 * p.wcap))
    (haccess : width = .half ∨ (width = .word ∧ offset.toNat % 4 ≠ 0) ∨
      (width = .byte ∧ (offset.toNat < 0x30 ∨ 0x20000 ≤ offset.toNat))) :
    resolve p width offset = .unlisted := by
  have hbounds := Params.bounds hp
  have hword : ¬ alignedWord width offset.toNat = true := by
    rw [alignedWord_iff]
    rcases haccess with rfl | ⟨rfl, hodd⟩ | ⟨rfl, -⟩
    · simp
    · exact fun ⟨_, heven⟩ => hodd heven
    · simp
  have hbyte (hmiddle : 0x40 ≤ offset.toNat ∧ offset.toNat < 0x20000) : ¬ byteOrWord width offset.toNat = true := by
    rw [byteOrWord_iff, ← alignedWord_iff]
    refine not_or_intro ?_ hword
    rintro rfl
    rcases haccess with h | ⟨h, -⟩ | ⟨-, h⟩
    · cases h
    · cases h
    · omega
  rcases harea with hhigh | ⟨hlow, hhigh⟩ | ⟨hlow, hhigh⟩ | ⟨hlow, hhigh⟩
  · rw [resolve_registerArea hhigh, if_neg hword]
  · rw [resolve_kinArea hlow hhigh, if_neg (hbyte (by omega))]
  · rw [resolve_bArea hp hlow hhigh, if_neg (hbyte (by omega))]
  · rw [resolve_wArea hp hlow hhigh, if_neg hword]

/-- The accesses the map lists name a place of the window. -/
theorem resolve_of_listed (hp : p.wellFormed = true) (h : Listed p width offset) :
    ∃ l, resolve p width offset = .loc l := by
  rcases h with ⟨hwidth, haligned, hhigh | ⟨hlow, hhigh⟩⟩ | ⟨haccess, ⟨hlow, hhigh⟩ | ⟨hlow, hhigh⟩⟩
  · exact ⟨_, (resolve_registerArea hhigh).trans (if_pos ((alignedWord_iff _ _).mpr ⟨hwidth, haligned⟩))⟩
  · exact ⟨_, (resolve_wArea hp hlow hhigh).trans (if_pos ((alignedWord_iff _ _).mpr ⟨hwidth, haligned⟩))⟩
  · exact ⟨_, (resolve_kinArea hlow hhigh).trans (if_pos ((byteOrWord_iff _ _).mpr haccess))⟩
  · exact ⟨_, (resolve_bArea hp hlow hhigh).trans (if_pos ((byteOrWord_iff _ _).mpr haccess))⟩

/-- Every offset up to the end of `W` fits in the window's 18 bits. -/
theorem toNat_ofNat_offset {n : Nat} (h : n < 0x40000) : (BitVec.ofNat 18 n).toNat = n := by
  rw [BitVec.toNat_ofNat, Nat.mod_eq_of_lt h]

/-- A byte, or an aligned word, of `KIN` by its index. -/
theorem resolve_kin (hp : p.wellFormed = true) {i : Nat} (hi : i < p.kcap)
    (haccess : width = .byte ∨ (width = .word ∧ i % 4 = 0)) :
    resolve p width (BitVec.ofNat 18 (0x40 + i)) = .loc (.kin i) := by
  have hbounds := Params.bounds hp
  have hoffset := toNat_ofNat_offset (n := 0x40 + i) (by omega)
  have hlisted : byteOrWord width (0x40 + i) = true :=
    (byteOrWord_iff _ _).mpr (haccess.imp_right fun ⟨hwidth, haligned⟩ => ⟨hwidth, by omega⟩)
  rw [resolve_kinArea (by omega) (by omega), hoffset, if_pos hlisted, Nat.add_sub_cancel_left]

/-- A byte, or an aligned word, of `B` by its index. -/
theorem resolve_b (hp : p.wellFormed = true) {i : Nat} (hi : i < p.bcap)
    (haccess : width = .byte ∨ (width = .word ∧ i % 4 = 0)) :
    resolve p width (BitVec.ofNat 18 (0x10000 + i)) = .loc (.b i) := by
  have hbounds := Params.bounds hp
  have hoffset := toNat_ofNat_offset (n := 0x10000 + i) (by omega)
  have hlisted : byteOrWord width (0x10000 + i) = true :=
    (byteOrWord_iff _ _).mpr (haccess.imp_right fun ⟨hwidth, haligned⟩ => ⟨hwidth, by omega⟩)
  rw [resolve_bArea hp (by omega) (by omega), hoffset, if_pos hlisted, Nat.add_sub_cancel_left]

/-- A word of `W` by its index: the offset is the one the script notation gives it (spec/30_encoding.md R87). -/
theorem resolve_w (hp : p.wellFormed = true) {j : Nat} (hj : j < p.wcap) :
    resolve p .word (BitVec.ofNat 18 (0x20000 + 4 * j)) = .loc (.w j) := by
  have hbounds := Params.bounds hp
  have hoffset : Script.offsetW j = BitVec.ofNat 18 (0x20000 + 4 * j) := if_pos (by omega)
  rw [← hoffset, resolve_offsetW hp, if_pos hj]

end Sys2Proof.Machine
end

-- Proofs: reads of the window, and accesses that stop
section
/-! SUPPORT. The step at which the host reads a listed place, and the three ways an access stops the machine
(spec/20_memory.md R55, R58, R61, R66). -/

namespace Sys2Proof.Machine

variable {s : State} {width : Width} {offset : BitVec 18} {v : Word} {line : HostLine}

/-- A listed read, when nothing bars it, leaves its value in `readData` and changes nothing else: without a wait, a read
of `STATUS` has none to end. -/
theorem step_of_listed_read {l : Loc} (hbusy : s.busy = false) (hawaiting : s.awaiting = false)
    (hline : fetchLine s = some (.read width offset)) (hl : resolve s.params width offset = .loc l) :
    step s = .next { s with pos := s.pos + 1, readData := readLoc width s l } := by
  have hbarred : s.barred = none := s.barred_eq_none.mpr ⟨hbusy, hawaiting⟩
  simp only [step, hostStep, hline, runLine, hostRead, hl, hbarred]
  by_cases hstatus : l = .status
  · subst hstatus
    have hwait : s.advance.readStatus = { s.advance.readStatus with awaiting := s.awaiting } := by
      simp [State.readStatus, hawaiting]
    rw [if_pos rfl, hwait]
    rfl
  · rw [if_neg hstatus]
    rfl

/-- A 32-bit read of a register offset. -/
theorem step_of_register_read (hbusy : s.busy = false) (hawaiting : s.awaiting = false)
    (hline : fetchLine s = some (.read .word offset)) (hlow : offset.toNat < 0x30) (haligned : offset.toNat % 4 = 0) :
    step s = .next { s with pos := s.pos + 1, readData := readLoc .word s (registerAt (offset.toNat / 4)) } :=
  step_of_listed_read hbusy hawaiting hline (resolve_register s.params hlow haligned)

/-- An access of a reserved offset is a fault. -/
theorem step_of_reserved_access (haccess : line = .read width offset ∨ line = .write width offset v)
    (hline : fetchLine s = some line) (hr : resolve s.params width offset = .reserved) :
    step s = .fault (.reservedOffset offset) := by
  rcases haccess with rfl | rfl
  · simp only [step, hostStep, hline, runLine, hostRead, hr]
  · simp only [step, hostStep, hline, runLine, hostWrite, hr]

/-- An access the map does not list is refused. -/
theorem step_of_unlisted_access (haccess : line = .read width offset ∨ line = .write width offset v)
    (hline : fetchLine s = some line) (hr : resolve s.params width offset = .unlisted) :
    step s = .refused (.unlistedAccess offset) := by
  rcases haccess with rfl | rfl
  · simp only [step, hostStep, hline, runLine, hostRead, hr]
  · simp only [step, hostStep, hline, runLine, hostWrite, hr]

/-- A listed access of a barred host is refused, unless it is the read of `STATUS`. -/
theorem step_of_barred_access {l : Loc} {r : Refusal}
    (haccess : line = .read width offset ∨ line = .write width offset v) (hline : fetchLine s = some line)
    (hl : resolve s.params width offset = .loc l) (hother : line ≠ .read .word 0x04) (hbarred : s.barred = some r) :
    step s = .refused r := by
  rcases haccess with rfl | rfl
  · have hstatus : l ≠ .status := by
      rintro rfl
      obtain ⟨rfl, rfl⟩ := resolve_status hl
      exact hother rfl
    simp only [step, hostStep, hline, runLine, hostRead, hl, if_neg hstatus, hbarred]
  · simp only [step, hostStep, hline, runLine, hostWrite, hl, hbarred]

end Sys2Proof.Machine

open Sys2Proof Sys2Proof.Machine

/-- Settles O46: each offset names the element of its index, whose read gives the stated value. -/
theorem bufferReadsFollowTheMap : Obligations.BufferReadsFollowTheMap := by
  unfold Obligations.BufferReadsFollowTheMap
  intro s i hbusy hawaiting hp
  refine ⟨?byteOfB, ?wordOfB, ?byteOfKin, ?wordOfKin, ?wordOfW⟩
  case byteOfB => exact fun hi hline => step_of_listed_read hbusy hawaiting hline (resolve_b hp hi (.inl rfl))
  case wordOfB =>
    exact fun hi hline => step_of_listed_read hbusy hawaiting hline (resolve_b hp hi (.inr ⟨rfl, by omega⟩))
  case byteOfKin => exact fun hi hline => step_of_listed_read hbusy hawaiting hline (resolve_kin hp hi (.inl rfl))
  case wordOfKin =>
    exact fun hi hline => step_of_listed_read hbusy hawaiting hline (resolve_kin hp hi (.inr ⟨rfl, by omega⟩))
  case wordOfW => exact fun hi hline => step_of_listed_read hbusy hawaiting hline (resolve_w hp hi)

/-- Settles O45: each offset names its register or key word. -/
theorem registerReadsFollowTheMap : Obligations.RegisterReadsFollowTheMap := by
  unfold Obligations.RegisterReadsFollowTheMap
  intro s offset v hbusy hawaiting hline hentry
  simp only [List.mem_cons, Prod.mk.injEq, List.not_mem_nil, or_false] at hentry
  rcases hentry with ⟨rfl, rfl⟩ | ⟨rfl, rfl⟩ | ⟨rfl, rfl⟩ | ⟨rfl, rfl⟩ | ⟨rfl, rfl⟩ | ⟨rfl, rfl⟩ | ⟨rfl, rfl⟩ |
    ⟨rfl, rfl⟩ | ⟨rfl, rfl⟩ | ⟨rfl, rfl⟩ | ⟨rfl, rfl⟩ | ⟨rfl, rfl⟩
  all_goals exact step_of_register_read hbusy hawaiting hline (by decide) (by decide)

/-- Settles O51: a gap of the map is reserved, an area refuses the widths it does not take, and BUSY bars its listed
accesses. -/
theorem accessesOutsideTheInterfaceStop : Obligations.AccessesOutsideTheInterfaceStop := by
  unfold Obligations.AccessesOutsideTheInterfaceStop
  intro s width offset v line hp haccess hline
  refine ⟨?reserved, ?unlisted, ?whileBusy⟩
  case reserved => exact fun hgap => step_of_reserved_access haccess hline (resolve_reservedArea hp hgap)
  case unlisted =>
    exact fun harea hwidth => step_of_unlisted_access haccess hline (resolve_unlistedAccess hp harea hwidth)
  case whileBusy =>
    intro hbusy hother hlisted
    obtain ⟨l, hl⟩ := resolve_of_listed hp hlisted
    exact step_of_barred_access haccess hline hl hother (if_pos hbusy)
end

-- Proofs: writes to the buffers
section
/-! SUPPORT. The step at which the host writes to `B`, `KIN` or `W`: the elements it stores, those it leaves, and that it
changes no other field (spec/20_memory.md R50, R53, R58). -/

namespace Sys2Proof.Machine

/-- An element a byte or word write covers is the byte of the value that stands there (spec/20_memory.md R50). -/
theorem Memory.get?_writtenBytes_inside {width : Width} (hwidth : width = .byte ∨ width = .word) (m : Memory 8) (i : Nat)
    (v : Word) {k : Nat} (hk : k < width.bytes) :
    Memory.get? (Memory.putRange m i (writtenBytes width v)) (i + k) = some (leByte v k) := by
  rw [Memory.get?_putRange, writtenBytes_length hwidth, if_pos (by omega), Nat.add_sub_cancel_left]
  rcases hwidth with rfl | rfl
  · obtain rfl : k = 0 := Nat.lt_one_iff.mp hk
    rfl
  · rw [← leBytes_getD v hk]
    exact (List.getElem?_eq_getElem hk).trans (congrArg some (List.getD_eq_getElem _ _ hk).symm)

/-- An element a byte or word write does not cover stays as it was. -/
theorem Memory.get?_writtenBytes_outside {width : Width} (hwidth : width = .byte ∨ width = .word) (m : Memory 8) (i : Nat)
    (v : Word) {j : Nat} (hj : j < i ∨ i + width.bytes ≤ j) :
    Memory.get? (Memory.putRange m i (writtenBytes width v)) j = Memory.get? m j := by
  rw [Memory.get?_putRange, writtenBytes_length hwidth, if_neg (by omega)]

/-- The low byte of a word is its first byte in storing order (log 10). -/
theorem leByte_zero (v : Word) : leByte v 0 = v.setWidth 8 := by
  apply BitVec.eq_of_toNat_eq
  rw [leByte_toNat, BitVec.toNat_setWidth, Nat.mul_zero, Nat.pow_zero, Nat.div_one]

section
variable {s : State} {width : Width} {i : Nat} {v : Word} (hbusy : s.busy = false) (hawaiting : s.awaiting = false)
  (hp : s.params.wellFormed = true)
include hbusy hawaiting hp

/-- A listed write to `B` stores the value's bytes from its index up, and changes nothing else. -/
theorem step_of_b_write (haccess : width = .byte ∨ (width = .word ∧ i % 4 = 0)) (hi : i < s.params.bcap)
    (hline : fetchLine s = some (.write width (BitVec.ofNat 18 (0x10000 + i)) v)) :
    ∃ t, step s = .next t ∧ (∀ k, k < width.bytes → t.readB (i + k) = leByte v k) ∧
      (∀ j, (j < i ∨ i + width.bytes ≤ j) → t.readB j = s.readB j) ∧ t = { s with pos := s.pos + 1, b := t.b } := by
  have hwidth : width = .byte ∨ width = .word := haccess.imp_right And.left
  refine ⟨_, step_of_listed_write hbusy hawaiting hline (resolve_b hp hi haccess), ?stored, ?others, rfl⟩
  case stored =>
    intro k hk
    exact congrArg (Option.getD · _) (Memory.get?_writtenBytes_inside hwidth s.b i v hk)
  case others =>
    intro j hj
    exact congrArg (Option.getD · _) (Memory.get?_writtenBytes_outside hwidth s.b i v hj)

/-- A listed write to `KIN` stores the value's bytes from its index up, and changes nothing else. -/
theorem step_of_kin_write (haccess : width = .byte ∨ (width = .word ∧ i % 4 = 0)) (hi : i < s.params.kcap)
    (hline : fetchLine s = some (.write width (BitVec.ofNat 18 (0x40 + i)) v)) :
    ∃ t, step s = .next t ∧ (∀ k, k < width.bytes → t.readKin (i + k) = leByte v k) ∧
      (∀ j, (j < i ∨ i + width.bytes ≤ j) → t.readKin j = s.readKin j) ∧
      t = { s with pos := s.pos + 1, kin := t.kin } := by
  have hwidth : width = .byte ∨ width = .word := haccess.imp_right And.left
  refine ⟨_, step_of_listed_write hbusy hawaiting hline (resolve_kin hp hi haccess), ?stored, ?others, rfl⟩
  case stored =>
    intro k hk
    exact congrArg (Option.getD · _) (Memory.get?_writtenBytes_inside hwidth s.kin i v hk)
  case others =>
    intro j hj
    exact congrArg (Option.getD · _) (Memory.get?_writtenBytes_outside hwidth s.kin i v hj)

/-- A write to `W` stores the value at its index, and changes nothing else. -/
theorem step_of_w_write (hi : i < s.params.wcap)
    (hline : fetchLine s = some (.write .word (BitVec.ofNat 18 (0x20000 + 4 * i)) v)) :
    ∃ t, step s = .next t ∧ t.readW i = v ∧ (∀ j, j ≠ i → t.readW j = s.readW j) ∧
      t = { s with pos := s.pos + 1, w := t.w } := by
  have hread (j : Nat) : Memory.get? (Memory.put s.w i v) j = if j = i then some v else Memory.get? s.w j :=
    Memory.get?_put s.w i v j
  refine ⟨_, step_of_listed_write hbusy hawaiting hline (resolve_w hp hi), ?stored, ?others, rfl⟩
  case stored => exact congrArg (Option.getD · _) ((hread i).trans (if_pos rfl))
  case others => exact fun j hj => congrArg (Option.getD · _) ((hread j).trans (if_neg hj))

end

end Sys2Proof.Machine

open Sys2Proof Sys2Proof.Machine

/-- Settles O49: a byte write covers one element, whose byte is the value's first. -/
theorem bufferWritesStore : Obligations.BufferWritesStore := by
  unfold Obligations.BufferWritesStore
  intro s i v hbusy hawaiting hp
  refine ⟨?byteOfB, ?byteOfKin, fun hi hline => step_of_w_write hbusy hawaiting hp hi hline⟩
  case byteOfB =>
    intro hi hline
    obtain ⟨t, hstep, hstored, hothers, hframe⟩ := step_of_b_write hbusy hawaiting hp (.inl rfl) hi hline
    exact ⟨t, hstep, (hstored 0 Nat.one_pos).trans (leByte_zero v),
      fun j hj => hothers j (Nat.lt_or_gt_of_ne hj), hframe⟩
  case byteOfKin =>
    intro hi hline
    obtain ⟨t, hstep, hstored, hothers, hframe⟩ := step_of_kin_write hbusy hawaiting hp (.inl rfl) hi hline
    exact ⟨t, hstep, (hstored 0 Nat.one_pos).trans (leByte_zero v),
      fun j hj => hothers j (Nat.lt_or_gt_of_ne hj), hframe⟩

/-- Settles O50: a word write covers four elements, and byte `k` of a word is its quotient by `2 ^ (8 * k)`. -/
theorem wordWritesToByteBuffersAreLittleEndian : Obligations.WordWritesToByteBuffersAreLittleEndian := by
  unfold Obligations.WordWritesToByteBuffersAreLittleEndian
  intro s j v hbusy hawaiting hp
  have hbyte {b : Byte} {k : Nat} (h : b = leByte v k) : b.toNat = v.toNat / 2 ^ (8 * k) % 256 :=
    (congrArg BitVec.toNat h).trans (leByte_toNat v k)
  refine ⟨?wordOfB, ?wordOfKin⟩
  case wordOfB =>
    intro hi hline
    obtain ⟨t, hstep, hstored, hothers, hframe⟩ :=
      step_of_b_write hbusy hawaiting hp (.inr ⟨rfl, by omega⟩) hi hline
    exact ⟨t, hstep, fun k hk => hbyte (hstored k hk), hothers, hframe⟩
  case wordOfKin =>
    intro hi hline
    obtain ⟨t, hstep, hstored, hothers, hframe⟩ :=
      step_of_kin_write hbusy hawaiting hp (.inr ⟨rfl, by omega⟩) hi hline
    exact ⟨t, hstep, fun k hk => hbyte (hstored k hk), hothers, hframe⟩
end

-- Proofs: the two views of the key
section
/-! SUPPORT. The bytes and the words of the key (spec/10_state.md R24; spec/20_memory.md R52). -/

namespace Sys2Proof.Machine

/-- Below 16 the byte view takes the byte of that index. -/
theorem Key.byte_of_lt (k : Key) {i : Nat} (hi : i < 16) : Key.byte k i = k[i] := by
  simp only [Key.byte, Nat.mod_eq_of_lt hi]

end Sys2Proof.Machine

open Sys2Proof Sys2Proof.Machine

/-- Settles O38: the indices `4 * j + 0` to `4 * j + 3` are below 16, and a little-endian word is the sum of its bytes. -/
theorem keyViewsAgree : Obligations.KeyViewsAgree := by
  unfold Obligations.KeyViewsAgree
  intro s
  refine ⟨fun j => ?wordView, fun i => Key.byte_of_lt s.k i.isLt⟩
  case wordView =>
    have hj : (BitVec.ofNat 2 j.val).toNat = j.val := Nat.mod_eq_of_lt j.isLt
    simp only [State.kw, Key.word, hj]
    rw [leWord_toNat, Key.byte_of_lt, Key.byte_of_lt, Key.byte_of_lt, Key.byte_of_lt]
end

-- Proofs: the command words
section
/-! SUPPORT. The decoder inverts the encoder, and answers the illegal-command error for every word that is no command's
(spec/30_encoding.md R82, R83, R85). -/

namespace Sys2Proof

/-- Every command's word decodes to that command. -/
theorem decode_encode (i : Instr) : decode (encode i) = .ok i := by cases i <;> rfl

/-- The decoder names a command or the word it refuses. -/
theorem decode_cases (w : Word) : (∃ i, decode w = .ok i) ∨ decode w = .error (.illegalCommand w) := by
  unfold decode
  split
  · split
    · exact .inl ⟨_, rfl⟩
    · exact .inr rfl
  · exact .inr rfl

/-- A word that is no command's is illegal. -/
theorem decode_eq_illegalCommand {w : Word} (h : ∀ i, w ≠ encode i) : decode w = .error (.illegalCommand w) := by
  rcases decode_cases w with ⟨i, hi⟩ | hillegal
  · exact absurd (eq_encode_of_decode hi) (h i)
  · exact hillegal

/-- The fields of a command's word, as numbers: none is reserved and no unused combination occurs (R81, R85). -/
theorem encode_fields_used (i : Instr) :
    (encode i).toNat / 2 ^ 8 = 0 ∧ (encode i).toNat / 2 ^ 2 % 4 = 0 ∧
      1 ≤ (encode i).toNat / 2 ^ 4 % 16 ∧ (encode i).toNat / 2 ^ 4 % 16 ≤ 5 ∧
      (2 ≤ (encode i).toNat / 2 ^ 4 % 16 → (encode i).toNat / 2 ^ 4 % 16 ≤ 4 → (encode i).toNat / 2 % 2 = 0) ∧
      ((encode i).toNat / 2 ^ 4 % 16 = 5 → (encode i).toNat % 2 = 0) := by
  cases i <;> decide

end Sys2Proof

open Sys2Proof

/-- Settles O2: a word that decodes is the command's own, the decoder inverts the encoder, and no error but the illegal
command is left. -/
theorem decodeExactlyTheCommandWords : Obligations.DecodeExactlyTheCommandWords := by
  unfold Obligations.DecodeExactlyTheCommandWords
  refine ⟨fun w i => ⟨eq_encode_of_decode, ?_⟩, fun w => decode_eq_illegalCommand⟩
  rintro rfl
  exact decode_encode i

/-- Settles O4: a word with a reserved field or an unused combination is no command's word. -/
theorem reservedEncodingsAreIllegal : Obligations.ReservedEncodingsAreIllegal := by
  unfold Obligations.ReservedEncodingsAreIllegal
  intro w hreserved
  refine decode_eq_illegalCommand fun i hw => ?_
  obtain ⟨hzero, hzero2, hfamLow, hfamHigh, hmod, hdir⟩ := hw ▸ encode_fields_used i
  rcases hreserved with h | h | h | h | ⟨hlow, hhigh, h⟩ | ⟨hfam, h⟩
  · exact h hzero
  · exact h hzero2
  · omega
  · omega
  · exact absurd (hmod hlow hhigh) (by omega)
  · exact absurd (hdir hfam) (by omega)

/-- Settles O1: each of the twelve numbers is the word the encoder writes for that command. -/
theorem opcodeMapWordsDecode : Obligations.OpcodeMapWordsDecode := by
  unfold Obligations.OpcodeMapWordsDecode
  exact ⟨decode_encode .pack, decode_encode .unpack, decode_encode .packL, decode_encode .unpackL,
    decode_encode .xxenc, decode_encode .xxdec, decode_encode .bsenc, decode_encode .bsdec,
    decode_encode .chenc, decode_encode .chdec, decode_encode .keyldPad, decode_encode .keyldRaw⟩
end

-- Proofs: the host's control lines
section
/-! SUPPORT. Where a label stands in the script, and the steps at the host's control lines (spec/30_encoding.md R87). -/

namespace Sys2Proof.Machine

variable {s : State} {name : Nat}

/-- The search for a label is the library's search for the first index, counted from `i`. -/
theorem labelFrom_eq_findIdx? (name i : Nat) (lines : List HostLine) :
    labelFrom name i lines = (lines.findIdx? (· == .label name)).map (i + ·) := by
  induction lines generalizing i with
  | nil => rfl
  | cons line rest ih =>
    rw [labelFrom, List.findIdx?_cons]
    by_cases hline : line = .label name
    · simp [hline]
    · simp [hline, ih, Function.comp_def, Nat.add_assoc, Nat.add_comm 1]

/-- The first line that is the label is the one found (log 12). -/
theorem labelFrom_eq_some {script : List HostLine} {k : Nat} (hk : script[k]? = some (.label name))
    (hfirst : ∀ j, j < k → script[j]? ≠ some (.label name)) : labelFrom name 0 script = some k := by
  obtain ⟨hlt, hget⟩ := List.getElem?_eq_some_iff.mp hk
  have hfound : script.findIdx? (· == .label name) = some k := by
    refine List.findIdx?_eq_some_iff_getElem.mpr ⟨hlt, by simp [hget], fun j hj heq => hfirst j hj ?_⟩
    rw [List.getElem?_eq_getElem (hj.trans hlt), eq_of_beq heq]
  simp [labelFrom_eq_findIdx?, hfound]

/-- A label that stands nowhere is not found (log 12). -/
theorem labelFrom_eq_none {script : List HostLine} (hnowhere : ∀ j : Nat, script[j]? ≠ some (.label name)) :
    labelFrom name 0 script = none := by
  have habsent : script.findIdx? (· == .label name) = none := by
    refine List.findIdx?_eq_none_iff.mpr fun line hmem => beq_eq_false_iff_ne.mpr ?_
    rintro rfl
    obtain ⟨j, hj⟩ := List.mem_iff_getElem?.mp hmem
    exact hnowhere j hj
  simp [labelFrom_eq_findIdx?, habsent]

/-- What a read of `STATUS` leaves: its value, and no wait if DONE is 1 (R240, log 19). -/
theorem readStatus_eq (s : State) :
    s.readStatus = { s with readData := s.status, awaiting := if s.done = true then false else s.awaiting } := by
  unfold State.readStatus
  cases s.done <;> simp

/-- A step performs the host's next line. -/
theorem step_of_fetchLine {line : HostLine} (hline : fetchLine s = some line) : step s = runLine line s := by
  simp only [step, hostStep, hline]

/-- Past the script's end nothing happens (log 13). -/
theorem step_of_no_line (hline : fetchLine s = none) : step s = .next s := by
  simp only [step, hostStep, hline]

/-- Without an error a branch goes on to the next line. -/
theorem hostBranch_not_taken (name : Nat) (herr : s.err = 0) : hostBranch name s = .next s.readStatus.advance :=
  if_pos herr

/-- With an error a branch goes to the label's line. -/
theorem hostBranch_taken {k : Nat} (herr : s.err ≠ 0) (hk : labelFrom name 0 s.script = some k) :
    hostBranch name s = .next { s.readStatus with pos := k } := by
  simp only [hostBranch, if_neg herr, hk]

/-- With an error a branch to a label that stands nowhere is refused (log 12). -/
theorem hostBranch_refused (herr : s.err ≠ 0) (hnone : labelFrom name 0 s.script = none) :
    hostBranch name s = .refused (.undefinedLabel name) := by
  simp only [hostBranch, if_neg herr, hnone]

end Sys2Proof.Machine

open Sys2Proof Sys2Proof.Machine

/-- Settles O54: a BERR line falls through, jumps to the first line that is its label or is refused; the other control
lines touch at most the position. -/
theorem hostControlLinesFollowTheNotation : Obligations.HostControlLinesFollowTheNotation := by
  unfold Obligations.HostControlLinesFollowTheNotation
  refine ⟨fun s name hline => ?berr, fun s name hline => step_of_fetchLine hline, fun s hline => ?stop⟩
  case berr =>
    rw [step_of_fetchLine hline, runLine]
    refine ⟨fun herr => ?notTaken, fun k herr hk hfirst => ?taken, fun herr hnowhere => ?refused⟩
    case notTaken => rw [hostBranch_not_taken name herr, readStatus_eq]; rfl
    case taken => rw [hostBranch_taken herr (labelFrom_eq_some hk hfirst), readStatus_eq]
    case refused => exact hostBranch_refused herr (labelFrom_eq_none hnowhere)
  case stop =>
    rcases hline with hstop | hnone
    · exact step_of_fetchLine hstop
    · exact step_of_no_line hnone
end

-- Proofs: words by their bytes, and the header bound
section
/-! SUPPORT. Packing byte by byte (spec/20_memory.md R50), and when a length word is a good header (spec/40_wordcodec.md
R104, R105). -/

namespace Sys2Proof.Machine

/-! ### Words by their bytes -/

/-- Two words with the same four bytes are the same word. -/
theorem word_eq_of_leByte {v w : Word} (h : ∀ k, k < 4 → leByte v k = leByte w k) : v = w := by
  rw [← leWord_leByte v, ← leWord_leByte w, h 0 (by decide), h 1 (by decide), h 2 (by decide), h 3 (by decide)]

/-- A word is the sum of its bytes, byte `k` weighing `2 ^ (8 * k)` (spec/20_memory.md R50). -/
theorem toNat_eq_sum_leByte (v : Word) :
    v.toNat = ((List.range 4).map fun k => (leByte v k).toNat * 2 ^ (8 * k)).sum := by
  have hsum := leWord_toNat (leByte v 0) (leByte v 1) (leByte v 2) (leByte v 3)
  rw [leWord_leByte] at hsum
  simp only [List.range_succ, List.range_zero, List.nil_append, List.map_append, List.map_cons, List.map_nil,
    List.sum_append, List.sum_cons, List.sum_nil]
  omega

/-- Byte `k` of packed word `j` is byte `4j + k`, 0 past the end (spec/40_wordcodec.md R100). -/
theorem leByte_packWords (bs : List Byte) {j k : Nat} (hj : j < (bs.length + 3) / 4) (hk : k < 4) :
    leByte ((packWords bs).getD j 0) k = bs.getD (4 * j + k) 0 := by
  rw [packWords_getD bs hj]
  match k, hk with
  | 0, _ => exact leByte_leWord_zero ..
  | 1, _ => exact leByte_leWord_one ..
  | 2, _ => exact leByte_leWord_two ..
  | 3, _ => exact leByte_leWord_three ..

/-- The byte operand, continued by zeros. -/
theorem State.bytes_getD_zero (s : State) (i : Nat) :
    s.bytes.getD i 0 = if i < s.blen.toNat then s.readB i else 0 := by
  split
  case isTrue hi => exact s.bytes_getD hi 0
  case isFalse hi => exact List.getD_eq_default _ _ (by rw [State.bytes_length]; exact Nat.not_lt.mp hi)

/-! ### The header bound -/

/-- The bound fails on mathematical integers (spec/40_wordcodec.md R105). -/
theorem headerOk_eq_false_iff (wcnt len : Nat) :
    headerOk wcnt len = false ↔ ¬ (4 * ((wcnt : Int) - 1) - 3 ≤ (len : Int) ∧ (len : Int) ≤ 4 * ((wcnt : Int) - 1)) := by
  simp only [headerOk, ← Bool.not_eq_true, Bool.and_eq_true, decide_eq_true_eq]

/-- The bound in naturals, for a count that is not 0 (spec/40_wordcodec.md R104). -/
theorem headerOk_iff {wcnt len : Nat} (hne : wcnt ≠ 0) :
    headerOk wcnt len = true ↔ 4 * (wcnt - 1) ≤ len + 3 ∧ len ≤ 4 * (wcnt - 1) := by
  simp only [headerOk, Bool.and_eq_true, decide_eq_true_eq]
  omega

/-- The bound fails in naturals when the length is too short or too long. -/
theorem headerOk_eq_false {wcnt len : Nat} (hne : wcnt ≠ 0) (h : len + 3 < 4 * (wcnt - 1) ∨ 4 * (wcnt - 1) < len) :
    headerOk wcnt len = false := by
  rw [← Bool.not_eq_true, headerOk_iff hne]
  omega

end Sys2Proof.Machine
end

-- Proofs: what the word codec writes
section
/-! SUPPORT. What PACK, PACK.L, UNPACK and UNPACK.L answer: the fault of each check, or the words and bytes they write
(spec/40_wordcodec.md R100 to R104). -/

namespace Sys2Proof.Machine

open Sys2Proof.Ref

variable {s t : State} {i : Instr}

/-! ### The faults -/

/-- PACK and PACK.L check the byte length (spec/60_exceptions.md R202). -/
theorem exec_pack_overflow (hi : i = .pack ∨ i = .packL) (h : s.params.bcap < s.blen.toNat) :
    exec i s = raise .allocationFailure s := by
  have hfits : s.blenFits = false := decide_eq_false (Nat.not_le.mpr h)
  rcases hi with rfl | rfl
  · exact if_pos hfits
  · exact if_pos hfits

/-- UNPACK checks the word count, then the byte length it would write (spec/60_exceptions.md R202). -/
theorem exec_unpack_overflow (h : s.params.bcap / 4 + 1 < s.wcnt.toNat ∨ s.params.bcap < 4 * s.wcnt.toNat) :
    exec .unpack s = raise .allocationFailure s := by
  by_cases hfits : s.wcntFits = false
  · exact if_pos hfits
  · have hcount := s.wcntFits_iff.mp (Bool.not_eq_false _ ▸ hfits)
    exact (if_neg hfits).trans (if_pos (h.resolve_left (Nat.not_lt.mpr hcount)))

/-- UNPACK.L checks the word count (spec/60_exceptions.md R202). -/
theorem exec_unpackL_overflow (h : s.params.bcap / 4 + 1 < s.wcnt.toNat) :
    exec .unpackL s = raise .allocationFailure s :=
  if_pos (decide_eq_false (Nat.not_le.mpr h))

/-- UNPACK.L then asks for a length word inside the bound (spec/60_exceptions.md R206). -/
theorem exec_unpackL_badHeader (hcount : s.wcnt.toNat ≤ s.params.bcap / 4 + 1)
    (h : s.wcnt.toNat = 0 ∨ headerOk s.wcnt.toNat (s.readW (s.wcnt.toNat - 1)).toNat = false) :
    exec .unpackL s = raise .corruptLengthHeader s := by
  have hfits := s.wcntFits_iff.mpr hcount
  by_cases hzero : s.wcnt.toNat = 0
  · simp [exec, execUnpackL, hfits, hzero]
  · simp [exec, execUnpackL, hfits, hzero, h.resolve_left hzero]

/-! ### The effects -/

/-- What PACK and PACK.L leave: the bytes of `B` in the first words, then the words of `tail`, and the count of both. -/
structure Packed (s : State) (tail : List Word) (t : State) : Prop where
  err : t.err = 0
  frame : AllButW s t
  count : t.wcnt.toNat = (s.blen.toNat + 3) / 4 + tail.length
  byte : ∀ j k, j < (s.blen.toNat + 3) / 4 → k < 4 → leByte (t.readW j) k = s.bytes.getD (4 * j + k) 0
  tailWord : ∀ j, j < tail.length → t.readW ((s.blen.toNat + 3) / 4 + j) = tail.getD j 0
  beyond : ∀ j, (s.blen.toNat + 3) / 4 + tail.length ≤ j → t.readW j = s.readW j

/-- What UNPACK and UNPACK.L leave: the first `len` bytes of the words, and that length. -/
structure Unpacked (s : State) (len : Nat) (t : State) : Prop where
  err : t.err = 0
  frame : AllButB s t
  length : t.blen.toNat = len
  byte : ∀ i, i < len → t.readB i = leByte (s.readW (i / 4)) (i % 4)
  beyond : ∀ i, len ≤ i → t.readB i = s.readB i

/-- A packed word is the sum of the bytes below BLEN that stand in it (spec/40_wordcodec.md R100). -/
theorem Packed.readW_toNat {tail : List Word} (h : Packed s tail t) {j : Nat} (hj : j < (s.blen.toNat + 3) / 4) :
    (t.readW j).toNat =
      ((List.range 4).map fun k =>
        if 4 * j + k < s.blen.toNat then (s.readB (4 * j + k)).toNat * 2 ^ (8 * k) else 0).sum := by
  rw [toNat_eq_sum_leByte]
  refine congrArg List.sum (List.map_congr_left fun k hk => ?_)
  rw [h.byte j k hj (List.mem_range.mp hk), State.bytes_getD_zero]
  split
  · rfl
  · exact Nat.zero_mul _

/-- The words of `B` and a tail, stored with their count. -/
theorem packed_storeWords {tail : List Word} (hfits : (s.blen.toNat + 3) / 4 + tail.length < 2 ^ 32) :
    Packed s tail ((s.storeWords (packWords s.bytes ++ tail)).spendHidden.complete 0) := by
  have hpacked : (packWords s.bytes).length = (s.blen.toNat + 3) / 4 := by rw [packWords_length, State.bytes_length]
  have hlen : (packWords s.bytes ++ tail).length = (s.blen.toNat + 3) / 4 + tail.length := by
    rw [List.length_append, hpacked]
  have hread (j : Nat) : ((s.storeWords (packWords s.bytes ++ tail)).spendHidden.complete 0).readW j =
      if j < (s.blen.toNat + 3) / 4 + tail.length then (packWords s.bytes ++ tail).getD j 0 else s.readW j :=
    hlen ▸ State.putWords_readW _ s j
  refine ⟨rfl, allButW_putWords s (packWords s.bytes ++ tail), ?count, ?byte, ?tailWord, ?beyond⟩
  case count => exact (Nat.mod_eq_of_lt (hlen ▸ hfits)).trans hlen
  case byte =>
    intro j k hj hk
    rw [hread, if_pos (Nat.lt_add_right _ hj), List.getD_append _ _ _ _ (hpacked ▸ hj)]
    exact leByte_packWords _ (by rwa [State.bytes_length]) hk
  case tailWord =>
    intro j hj
    rw [hread, if_pos (Nat.add_lt_add_left hj _), List.getD_append_right _ _ _ _ (hpacked ▸ Nat.le_add_right _ _),
      hpacked, Nat.add_sub_cancel_left]
  case beyond => exact fun j hj => (hread j).trans (if_neg (Nat.not_lt.mpr hj))

/-- The first bytes of the words, stored with their length. -/
theorem unpacked_storeBytes {len : Nat} (hlen : len ≤ 4 * s.wcnt.toNat) (hfits : len < 2 ^ 32) :
    Unpacked s len ((s.storeBytes ((unpackWords s.words).take len)).spendHidden.complete 0) := by
  have htake : ((unpackWords s.words).take len).length = len := by
    rw [List.length_take, unpackWords_length, State.words_length]
    exact Nat.min_eq_left hlen
  have hread (i : Nat) : ((s.storeBytes ((unpackWords s.words).take len)).spendHidden.complete 0).readB i =
      if i < len then ((unpackWords s.words).take len).getD i 0 else s.readB i :=
    (State.putBytes_readB _ s i).trans (by rw [htake])
  refine ⟨rfl, allButB_putBytes s ((unpackWords s.words).take len), ?length, ?byte, ?beyond⟩
  case length => exact (Nat.mod_eq_of_lt (htake.symm ▸ hfits)).trans htake
  case byte =>
    intro i hi
    have hword : i / 4 < s.wcnt.toNat := by omega
    have hbyte := unpackWords_getD s.words (j := i / 4) (k := i % 4) (by simpa using hword) (Nat.mod_lt i (by decide))
    rw [Nat.div_add_mod, s.words_getD hword] at hbyte
    rw [hread, if_pos hi, ← hbyte]
    simp [List.getD_eq_getElem?_getD, hi]
  case beyond => exact fun i hi => (hread i).trans (if_neg (Nat.not_lt.mpr hi))

/-- PACK on a byte length inside the capacity (spec/40_wordcodec.md R100). -/
theorem exec_pack (h : s.blen.toNat ≤ s.params.bcap) : ∃ t, exec .pack s = .next t ∧ Packed s [] t := by
  have heffect : commandEffect .pack s = s.storeWords (packWords s.bytes ++ []) := by
    rw [List.append_nil]; rfl
  have hexec := exec_of_admitted (i := .pack) (s.blenFits_iff.mpr h)
  rw [heffect] at hexec
  exact ⟨_, hexec, packed_storeWords (by have := s.blen.isLt; simp only [List.length_nil]; omega)⟩

/-- PACK.L on a byte length inside the capacity (spec/40_wordcodec.md R101). -/
theorem exec_packL (h : s.blen.toNat ≤ s.params.bcap) : ∃ t, exec .packL s = .next t ∧ Packed s [s.blen] t :=
  ⟨_, exec_of_admitted (s.blenFits_iff.mpr h),
    packed_storeWords (by have := s.blen.isLt; simp only [List.length_singleton]; omega)⟩

/-- UNPACK on words inside `W` whose bytes fit in `B` (spec/40_wordcodec.md R103). -/
theorem exec_unpack (hp : s.params.wellFormed = true) (hcount : s.wcnt.toNat ≤ s.params.bcap / 4 + 1)
    (hbytes : 4 * s.wcnt.toNat ≤ s.params.bcap) :
    ∃ t, exec .unpack s = .next t ∧ Unpacked s (4 * s.wcnt.toNat) t := by
  have hbounds := Params.bounds hp
  have hexec := exec_of_admitted (i := .unpack) (s := s) (by simp [admitted, hcount, hbytes])
  have hall : commandEffect .unpack s = s.storeBytes ((unpackWords s.words).take (4 * s.wcnt.toNat)) := by
    rw [List.take_of_length_le (by simp)]; rfl
  rw [hall] at hexec
  exact ⟨_, hexec, unpacked_storeBytes le_rfl (by omega)⟩

/-- UNPACK.L on words inside `W` whose last one passes the header bound (spec/40_wordcodec.md R104). -/
theorem exec_unpackL (hcount : s.wcnt.toNat ≤ s.params.bcap / 4 + 1) (hne : s.wcnt.toNat ≠ 0)
    (hheader : headerOk s.wcnt.toNat (s.readW (s.wcnt.toNat - 1)).toNat = true) :
    ∃ t, exec .unpackL s = .next t ∧ Unpacked s (s.readW (s.wcnt.toNat - 1)).toNat t :=
  ⟨_, exec_of_admitted (by simp [admitted, hcount, hne, hheader]),
    unpacked_storeBytes (by have := le_of_headerOk hheader; omega) (BitVec.isLt _)⟩

/-! ### What the commands can answer -/

/-- PACK and PACK.L write words or take a fault. -/
theorem pack_cases (hi : i = .pack ∨ i = .packL) (h : exec i s = .next t) :
    (∃ tail, Packed s tail t) ∨ ∃ f : EngineFault, t = s.complete f.code := by
  rcases Nat.lt_or_ge s.params.bcap s.blen.toNat with hover | hfits
  · exact .inr ⟨_, Host.Outcome.next.inj (h.symm.trans (exec_pack_overflow hi hover))⟩
  · rcases hi with rfl | rfl
    · obtain ⟨t', ht', hpacked⟩ := exec_pack hfits
      cases ht'.symm.trans h
      exact .inl ⟨_, hpacked⟩
    · obtain ⟨t', ht', hpacked⟩ := exec_packL hfits
      cases ht'.symm.trans h
      exact .inl ⟨_, hpacked⟩

/-- UNPACK.L, check by check (spec/60_exceptions.md R208). -/
theorem unpackL_cases (h : exec .unpackL s = .next t) :
    (s.params.bcap / 4 + 1 < s.wcnt.toNat ∧ t = s.complete EngineFault.allocationFailure.code) ∨
    (s.wcnt.toNat ≤ s.params.bcap / 4 + 1 ∧
      (s.wcnt.toNat = 0 ∨ headerOk s.wcnt.toNat (s.readW (s.wcnt.toNat - 1)).toNat = false) ∧
      t = s.complete EngineFault.corruptLengthHeader.code) ∨
    (s.wcnt.toNat ≠ 0 ∧ headerOk s.wcnt.toNat (s.readW (s.wcnt.toNat - 1)).toNat = true ∧
      Unpacked s (s.readW (s.wcnt.toNat - 1)).toNat t) := by
  rcases Nat.lt_or_ge (s.params.bcap / 4 + 1) s.wcnt.toNat with hover | hcount
  · exact .inl ⟨hover, Host.Outcome.next.inj (h.symm.trans (exec_unpackL_overflow hover))⟩
  · by_cases hbad : s.wcnt.toNat = 0 ∨ headerOk s.wcnt.toNat (s.readW (s.wcnt.toNat - 1)).toNat = false
    · exact .inr (.inl ⟨hcount, hbad, Host.Outcome.next.inj (h.symm.trans (exec_unpackL_badHeader hcount hbad))⟩)
    · obtain ⟨hne, hheader⟩ := not_or.mp hbad
      rw [Bool.not_eq_false] at hheader
      obtain ⟨t', ht', hunpacked⟩ := exec_unpackL hcount hne hheader
      cases ht'.symm.trans h
      exact .inr (.inr ⟨hne, hheader, hunpacked⟩)

/-- UNPACK and UNPACK.L write bytes or take a fault. -/
theorem unpack_cases (hi : i = .unpack ∨ i = .unpackL) (hp : s.params.wellFormed = true) (h : exec i s = .next t) :
    (∃ len, Unpacked s len t) ∨ ∃ f : EngineFault, t = s.complete f.code := by
  rcases hi with rfl | rfl
  · by_cases hover : s.params.bcap / 4 + 1 < s.wcnt.toNat ∨ s.params.bcap < 4 * s.wcnt.toNat
    · exact .inr ⟨_, Host.Outcome.next.inj (h.symm.trans (exec_unpack_overflow hover))⟩
    · obtain ⟨hcount, hbytes⟩ := not_or.mp hover
      obtain ⟨t', ht', hunpacked⟩ := exec_unpack hp (Nat.not_lt.mp hcount) (Nat.not_lt.mp hbytes)
      cases ht'.symm.trans h
      exact .inl ⟨_, hunpacked⟩
  · rcases unpackL_cases h with ⟨-, ht⟩ | ⟨-, -, ht⟩ | ⟨-, -, hunpacked⟩
    · exact .inr ⟨_, ht⟩
    · exact .inr ⟨_, ht⟩
    · exact .inl ⟨_, hunpacked⟩

end Sys2Proof.Machine

open Sys2Proof Sys2Proof.Machine

/-- Settles O16: PACK packs the bytes, with no word after them. -/
theorem packWritesLittleEndianWords : Obligations.PackWritesLittleEndianWords := by
  unfold Obligations.PackWritesLittleEndianWords
  intro s
  refine ⟨exec_pack_overflow (.inl rfl), fun hfits => ?_⟩
  obtain ⟨t, ht, hpacked⟩ := exec_pack hfits
  exact ⟨t, ht, hpacked.err, hpacked.frame, hpacked.count, fun j hj => hpacked.readW_toNat hj, hpacked.beyond⟩

/-- Settles O17: PACK.L packs the bytes, with BLEN after them. -/
theorem packLAppendsTheByteLength : Obligations.PackLAppendsTheByteLength := by
  unfold Obligations.PackLAppendsTheByteLength
  intro s
  refine ⟨exec_pack_overflow (.inr rfl), fun hfits => ?_⟩
  obtain ⟨t, ht, hpacked⟩ := exec_packL hfits
  exact ⟨t, ht, hpacked.err, hpacked.frame, hpacked.count, hpacked.tailWord 0 Nat.one_pos,
    fun j hj => hpacked.readW_toNat hj, hpacked.beyond⟩

/-- Settles O18: UNPACK writes all the bytes of the words, byte `4j + k` being byte `k` of word `j`. -/
theorem unpackWritesFourBytesAWord : Obligations.UnpackWritesFourBytesAWord := by
  unfold Obligations.UnpackWritesFourBytesAWord
  intro s hp
  refine ⟨exec_unpack_overflow, fun hcount hbytes => ?_⟩
  obtain ⟨t, ht, hunpacked⟩ := exec_unpack hp hcount hbytes
  refine ⟨t, ht, hunpacked.err, hunpacked.frame, hunpacked.length, fun j k hj hk => ?byte, hunpacked.beyond⟩
  case byte =>
    have hword : (4 * j + k) / 4 = j := by omega
    have hplace : (4 * j + k) % 4 = k := by omega
    rw [hunpacked.byte (4 * j + k) (by omega), hword, hplace, leByte_toNat]

/-- Settles O19: UNPACK.L checks the count, then the length word, and writes as many bytes as that word says. -/
theorem unpackLWritesTheDeclaredBytes : Obligations.UnpackLWritesTheDeclaredBytes := by
  unfold Obligations.UnpackLWritesTheDeclaredBytes
  intro s
  refine ⟨exec_unpackL_overflow, fun hcount hzero => exec_unpackL_badHeader hcount (.inl hzero),
    fun hcount hne hout => exec_unpackL_badHeader hcount (.inr (headerOk_eq_false hne hout)),
    fun hcount hne hlow hhigh => ?success⟩
  case success =>
    obtain ⟨t, ht, hunpacked⟩ := exec_unpackL hcount hne ((headerOk_iff hne).mpr ⟨hlow, hhigh⟩)
    have hblen : t.blen = s.readW (s.wcnt.toNat - 1) := BitVec.eq_of_toNat_eq hunpacked.length
    refine ⟨t, ht, hunpacked.err, hunpacked.frame, hblen, fun i hi => ?_, hblen ▸ hunpacked.beyond⟩
    rw [hunpacked.byte i (hblen ▸ hi), leByte_toNat]

/-- Settles O40: what was packed is framed, and a fault, whose code is not 0, writes nothing. -/
theorem frameOfPack : Obligations.FrameOfPack := by
  unfold Obligations.FrameOfPack
  intro i s t hi h
  rcases pack_cases hi h with ⟨tail, hpacked⟩ | ⟨f, rfl⟩
  · exact ⟨hpacked.frame, hpacked.count ▸ hpacked.beyond, fun herr => absurd hpacked.err herr⟩
  · obtain ⟨hB, hblen, hW, hwcnt, hrest⟩ := sameButStatus_complete s f.code
    exact ⟨⟨hB, hblen, hrest⟩, fun j _ => hW j, fun _ => ⟨hW, hwcnt⟩⟩

/-- Settles O41: what was unpacked is framed, and a fault, whose code is not 0, writes nothing. -/
theorem frameOfUnpack : Obligations.FrameOfUnpack := by
  unfold Obligations.FrameOfUnpack
  intro i s t hi hp h
  rcases unpack_cases hi hp h with ⟨len, hunpacked⟩ | ⟨f, rfl⟩
  · exact ⟨hunpacked.frame, hunpacked.length ▸ hunpacked.beyond, fun herr => absurd hunpacked.err herr⟩
  · obtain ⟨hB, hblen, hW, hwcnt, hrest⟩ := sameButStatus_complete s f.code
    exact ⟨⟨hW, hwcnt, hrest⟩, fun j _ => hB j, fun _ => ⟨hB, hblen⟩⟩
end

-- Proofs: when a length header is corrupt
section
/-! SUPPORT. Only UNPACK.L reports CorruptLengthHeader (spec/60_exceptions.md R206). -/

namespace Sys2Proof.Machine

/-- The outcome is no next state with this code in `STATUS`. -/
def NeverReports (code : BitVec 4) (o : Host.Outcome State Fault Refusal) : Prop := ∀ t, o = .next t → t.err ≠ code

theorem neverReports_succeed {code : BitVec 4} (h : code ≠ 0) (s : State) : NeverReports code (succeed s) := by
  intro t ht
  cases ht
  exact h.symm

theorem neverReports_raise {f g : EngineFault} (h : f ≠ g) (s : State) : NeverReports g.code (raise f s) := by
  intro t ht
  cases ht
  exact fun hcode => h (EngineFault.code_injective hcode)

/-- A test between two outcomes that do not report a code does not report it. -/
theorem neverReports_ite {code : BitVec 4} {c : Prop} [Decidable c] {a b : Host.Outcome State Fault Refusal}
    (ha : NeverReports code a) (hb : NeverReports code b) : NeverReports code (if c then a else b) := by
  split
  · exact ha
  · exact hb

/-- Every command but UNPACK.L takes other faults only. -/
theorem neverReports_corruptLengthHeader {i : Instr} (hi : i ≠ .unpackL) (s : State) :
    NeverReports EngineFault.corruptLengthHeader.code (exec i s) := by
  have halloc := neverReports_raise (f := .allocationFailure) (g := .corruptLengthHeader) (by decide) s
  have hshort := neverReports_raise (f := .keyTooShort) (g := .corruptLengthHeader) (by decide) s
  have hlength := neverReports_raise (f := .invalidKeyLength) (g := .corruptLengthHeader) (by decide) s
  have hok := neverReports_succeed (code := EngineFault.corruptLengthHeader.code) (by decide)
  cases i
  case unpackL => exact absurd rfl hi
  case pack | packL | keyldPad => exact neverReports_ite halloc (hok _)
  case unpack => exact neverReports_ite halloc (neverReports_ite halloc (hok _))
  case keyldRaw => exact neverReports_ite halloc (neverReports_ite hlength (neverReports_ite hshort (hok _)))
  all_goals exact neverReports_ite halloc (neverReports_ite hshort (hok _))

/-- UNPACK.L reports it exactly when the count is in capacity and there is no good length word. -/
theorem unpackL_reports_corruptLengthHeader {s t : State} (h : exec .unpackL s = .next t) :
    t.err = 2 ↔ s.wcnt.toNat ≤ s.params.bcap / 4 + 1 ∧
      (s.wcnt.toNat = 0 ∨ headerOk s.wcnt.toNat (s.readW (s.wcnt.toNat - 1)).toNat = false) := by
  rcases unpackL_cases h with ⟨hover, rfl⟩ | ⟨hcount, hbad, rfl⟩ | ⟨hne, hheader, hunpacked⟩
  · exact iff_of_false (by simp [EngineFault.code]) fun ⟨hcount, _⟩ => Nat.not_lt.mpr hcount hover
  · exact iff_of_true rfl ⟨hcount, hbad⟩
  · exact iff_of_false (by simp [hunpacked.err]) fun ⟨_, hbad⟩ => by simp [hne, hheader] at hbad

end Sys2Proof.Machine

open Sys2Proof Sys2Proof.Machine

/-- Settles O14: no other command reports the code, and UNPACK.L does when the bound fails. -/
theorem corruptLengthHeaderExactly : Obligations.CorruptLengthHeaderExactly := by
  unfold Obligations.CorruptLengthHeaderExactly
  intro i s t h
  by_cases hi : i = .unpackL
  · subst hi
    rw [unpackL_reports_corruptLengthHeader h, headerOk_eq_false_iff]
    exact ⟨fun hbad => ⟨rfl, hbad⟩, And.right⟩
  · exact iff_of_false (neverReports_corruptLengthHeader hi s t h) fun ⟨hunpackL, _⟩ => hi hunpackL
end

-- Proofs: packing and unpacking undo each other
section
/-! SUPPORT. The two orders of packing and unpacking, byte by byte (spec/40_wordcodec.md R106). -/

namespace Sys2Proof.Machine

open Sys2Proof.Ref

variable {s t u : State} {len : Nat} {tail : List Word}

/-- Packing keeps the parameters. -/
theorem Packed.params (h : Packed s tail t) : t.params = s.params := by
  obtain ⟨-, -, -, -, hparams, -⟩ := h.frame
  exact hparams

/-- Unpacking keeps the parameters. -/
theorem Unpacked.params (h : Unpacked s len t) : t.params = s.params := by
  obtain ⟨-, -, -, -, hparams, -⟩ := h.frame
  exact hparams

/-- Bytes unpacked from packed words are the bytes that were packed, then zeros. -/
theorem Unpacked.readB_of_packed (hu : Unpacked t len u) (hp : Packed s tail t)
    (hlen : len ≤ 4 * ((s.blen.toNat + 3) / 4)) {i : Nat} (hi : i < len) :
    u.readB i = if i < s.blen.toNat then s.readB i else 0 := by
  rw [hu.byte i hi, hp.byte (i / 4) (i % 4) (by omega) (Nat.mod_lt i (by decide)), Nat.div_add_mod,
    State.bytes_getD_zero]

/-- Words packed from unpacked bytes have the bytes that were unpacked, then zeros. -/
theorem Packed.leByte_of_unpacked (hp : Packed t tail u) (hu : Unpacked s len t) {j k : Nat}
    (hj : j < (len + 3) / 4) (hk : k < 4) :
    leByte (u.readW j) k = if 4 * j + k < len then leByte (s.readW j) k else 0 := by
  rw [hp.byte j k (by rwa [hu.length]) hk, State.bytes_getD_zero, hu.length]
  have hword : (4 * j + k) / 4 = j := by omega
  have hplace : (4 * j + k) % 4 = k := by omega
  refine ite_congr rfl (fun hlt => ?_) fun _ => rfl
  rw [hu.byte _ hlt, hword, hplace]

end Sys2Proof.Machine

open Sys2Proof Sys2Proof.Machine

/-- Settles O20: the length word PACK.L writes is a good header for the words before it, and the words of PACK fit in
`B`, whose capacity is a multiple of 4. -/
theorem packedBytesComeBack : Obligations.PackedBytesComeBack := by
  unfold Obligations.PackedBytesComeBack
  intro s hparams hblen
  have haligned := Params.bcap_mod_four hparams
  refine ⟨?withLength, ?withoutLength⟩
  case withLength =>
    obtain ⟨t, ht, hpacked⟩ := exec_packL hblen
    have hcount : t.wcnt.toNat = (s.blen.toNat + 3) / 4 + 1 := hpacked.count
    have hlast : t.readW (t.wcnt.toNat - 1) = s.blen := by
      rw [hcount]; exact hpacked.tailWord 0 Nat.one_pos
    obtain ⟨u, hu, hunpacked⟩ := exec_unpackL (s := t) (by rw [hpacked.params]; omega) (by omega)
      ((headerOk_iff (by omega)).mpr (by rw [hlast]; omega))
    rw [hlast] at hunpacked
    refine ⟨t, u, ht, hu, hunpacked.err, BitVec.eq_of_toNat_eq hunpacked.length, fun i hi => ?_⟩
    rw [hunpacked.readB_of_packed hpacked (by omega) hi, if_pos hi]
  case withoutLength =>
    obtain ⟨t, ht, hpacked⟩ := exec_pack hblen
    have hcount : t.wcnt.toNat = (s.blen.toNat + 3) / 4 := hpacked.count
    obtain ⟨u, hu, hunpacked⟩ := exec_unpack (s := t) (hpacked.params ▸ hparams) (by rw [hpacked.params]; omega)
      (by rw [hpacked.params]; omega)
    rw [hcount] at hunpacked
    have hbyte {i : Nat} (hi : i < 4 * ((s.blen.toNat + 3) / 4)) := hunpacked.readB_of_packed hpacked le_rfl hi
    refine ⟨t, u, ht, hu, hunpacked.err, hunpacked.length, fun i hi => ?inside, fun i hi hlt => ?padding⟩
    case inside => rw [hbyte (by omega), if_pos hi]
    case padding => rw [hbyte (hunpacked.length ▸ hlt), if_neg (Nat.not_lt.mpr hi)]

/-- Settles O21: the bytes of the words fit in `B`, and the number of words is found again from the number of bytes. -/
theorem unpackedWordsComeBack : Obligations.UnpackedWordsComeBack := by
  unfold Obligations.UnpackedWordsComeBack
  intro s hparams
  have haligned := Params.bcap_mod_four hparams
  refine ⟨fun hlt => ?withoutLength, fun hfits hne hlow hhigh => ?withLength⟩
  case withoutLength =>
    obtain ⟨t, ht, hunpacked⟩ := exec_unpack hparams (Nat.le_of_lt hlt) (by omega)
    have hlength := hunpacked.length
    obtain ⟨u, hu, hpacked⟩ := exec_pack (s := t) (by rw [hunpacked.params]; omega)
    have hcount : u.wcnt.toNat = (t.blen.toNat + 3) / 4 := hpacked.count
    refine ⟨t, u, ht, hu, hpacked.err, BitVec.eq_of_toNat_eq (by omega), fun j hj => word_eq_of_leByte fun k hk => ?_⟩
    rw [hpacked.leByte_of_unpacked hunpacked (by omega) hk, if_pos (by omega)]
  case withLength =>
    obtain ⟨t, ht, hunpacked⟩ := exec_unpackL hfits hne ((headerOk_iff hne).mpr ⟨hlow, hhigh⟩)
    have hlength := hunpacked.length
    obtain ⟨u, hu, hpacked⟩ := exec_packL (s := t) (by rw [hunpacked.params]; omega)
    have hcount : u.wcnt.toNat = (t.blen.toNat + 3) / 4 + 1 := hpacked.count
    have hdata : (t.blen.toNat + 3) / 4 = s.wcnt.toNat - 1 := by omega
    refine ⟨t, u, ht, hu, hpacked.err, BitVec.eq_of_toNat_eq (by omega), ?lengthWord, fun j k hj hk => ?dataByte⟩
    case lengthWord =>
      rw [← hdata]
      exact (hpacked.tailWord 0 Nat.one_pos).trans (BitVec.eq_of_toNat_eq (hdata ▸ hlength))
    case dataByte =>
      rw [← leByte_toNat, ← leByte_toNat, hpacked.leByte_of_unpacked hunpacked (by omega) hk]
      split
      · rfl
      · rfl
end

-- Proofs: the mixing function as arithmetic
section
/-! SUPPORT. The key index and the selector of MX as numbers (spec/41_xxtea_core.md R120, R124). -/

namespace Sys2Proof.Machine

/-- The key index `(p mod 4) xor e`, computed in two bits (spec/41_xxtea_core.md R120). -/
theorem ofNat_xor_two_bits (p : Nat) (e : BitVec 2) :
    BitVec.ofNat 2 p ^^^ e = BitVec.ofNat 2 ((p % 4) ^^^ e.toNat) := by
  apply BitVec.eq_of_toNat_eq
  rw [BitVec.toNat_xor, BitVec.toNat_ofNat, BitVec.toNat_ofNat]
  exact (Nat.mod_eq_of_lt (Nat.xor_lt_two_pow (Nat.mod_lt p (by decide)) e.isLt)).symm

/-- The selector as a number (spec/41_xxtea_core.md R124). -/
theorem selector_eq_ofNat (sum : Word) : selector sum = BitVec.ofNat 2 (sum.toNat / 4 % 4) := by
  apply BitVec.eq_of_toNat_eq
  simp [selector, BitVec.extractLsb'_toNat, Nat.shiftRight_eq_div_pow]

end Sys2Proof.Machine

open Sys2Proof Sys2Proof.Machine

/-- Settles O22: each word operator is its operator on naturals, and the key index fits in two bits. -/
theorem mxFollowsTheFormula : Obligations.MxFollowsTheFormula := by
  unfold Obligations.MxFollowsTheFormula
  intro kw z y sum p e
  simp only [mx, Ref.mxNat, ofNat_xor_two_bits, BitVec.toNat_xor, BitVec.toNat_add, BitVec.toNat_ushiftRight,
    BitVec.toNat_shiftLeft, Nat.shiftRight_eq_div_pow, Nat.shiftLeft_eq]
end

-- Proofs: the sweeps on lists are the sweeps on functions from indices
section
/-! SUPPORT. The model sweeps a list of words, the reference a function from indices; the relation `Represents` is kept
by every update, sweep and run of sweeps (spec/41_xxtea_core.md R122, R124 to R126). -/

namespace Sys2Proof.Machine

open Sys2Proof.Ref

variable (kw : BitVec 2 → Word) (sum : Word)

/-- The list holds the first `n` words of the block. -/
structure Represents (n : Nat) (ws : List Word) (w : Block) : Prop where
  length : ws.length = n
  word : ∀ j, j < n → ws.getD j 0 = w j

variable {n : Nat} {ws : List Word} {w : Block}

/-- The word operand is the front of `W` (spec/30_encoding.md R84). -/
theorem represents_words (s : State) : Represents s.wcnt.toNat s.words s.readW :=
  ⟨s.words_length, fun _ hj => s.words_getD hj 0⟩

/-! ### One update -/

/-- The circular predecessor (spec/41_xxtea_core.md R122). -/
theorem pred_mod_eq_ite {p : Nat} (hp : p < n) : (p + n - 1) % n = if p = 0 then n - 1 else p - 1 := by
  split
  case isTrue hzero => rw [hzero, Nat.zero_add, Nat.mod_eq_of_lt (by omega)]
  case isFalse hne => rw [Nat.sub_add_comm (by omega), Nat.add_mod_right, Nat.mod_eq_of_lt (by omega)]

/-- The circular successor (spec/41_xxtea_core.md R122). -/
theorem succ_mod_eq_ite {p : Nat} (hp : p < n) : (p + 1) % n = if p = n - 1 then 0 else p + 1 := by
  split
  case isTrue hlast => rw [hlast, Nat.sub_add_cancel (by omega), Nat.mod_self]
  case isFalse hne => exact Nat.mod_eq_of_lt (by omega)

/-- MX at a word of the list is MX at that word of the block. -/
theorem Represents.mxAt (h : Represents n ws w) {p : Nat} (hp : p < n) :
    mxAt kw sum ws p = blockMx kw n sum w p := by
  have hz : ws.getD ((p + n - 1) % n) 0 = if p = 0 then w (n - 1) else w (p - 1) := by
    rw [h.word _ (Nat.mod_lt _ (by omega)), pred_mod_eq_ite hp, apply_ite w]
  have hy : ws.getD ((p + 1) % n) 0 = if p = n - 1 then w 0 else w (p + 1) := by
    rw [h.word _ (Nat.mod_lt _ (by omega)), succ_mod_eq_ite hp, apply_ite w]
  simp only [Machine.mxAt, blockMx, h.length, hz, hy, selector_eq_ofNat]

/-- Setting the same word in both. -/
theorem Represents.set (h : Represents n ws w) (p : Nat) (v : Word) : Represents n (ws.set p v) (w.set p v) := by
  refine ⟨(List.length_set ..).trans h.length, fun j hj => ?_⟩
  have hlen : j < ws.length := h.length.symm ▸ hj
  by_cases hjp : j = p
  · subst hjp
    simp [Block.set, List.getD_eq_getElem?_getD, hlen]
  · rw [List.getD_eq_getElem?_getD, List.getElem?_set_ne (Ne.symm hjp), ← List.getD_eq_getElem?_getD, h.word j hj]
    simp [Block.set, hjp]

/-- One update of encryption (spec/41_xxtea_core.md R124). -/
theorem Represents.encWord (h : Represents n ws w) {p : Nat} (hp : p < n) :
    Represents n (encWord kw sum ws p) (w.set p (w p + blockMx kw n sum w p)) := by
  rw [Machine.encWord, h.word p hp, h.mxAt kw sum hp]
  exact h.set p _

/-- One update of decryption (spec/41_xxtea_core.md R126). -/
theorem Represents.decWord (h : Represents n ws w) {p : Nat} (hp : p < n) :
    Represents n (decWord kw sum ws p) (w.set p (w p - blockMx kw n sum w p)) := by
  rw [Machine.decWord, h.word p hp, h.mxAt kw sum hp]
  exact h.set p _

/-! ### One sweep -/

/-- The first `k` updates of a forward sweep. -/
theorem Represents.foldl_encWord (h : Represents n ws w) {k : Nat} (hk : k ≤ n) :
    Represents n ((List.range k).foldl (Machine.encWord kw sum) ws) (sweepUp kw n sum w k) := by
  induction k with
  | zero => exact h
  | succ k ih =>
    rw [List.range_succ, List.foldl_append]
    exact (ih (Nat.le_of_succ_le hk)).encWord kw sum hk

/-- The last `k` updates of a backward sweep. -/
theorem Represents.foldl_decWord (h : Represents n ws w) {k : Nat} (hk : k ≤ n) :
    Represents n ((List.range k).reverse.foldl (Machine.decWord kw sum) ws) (sweepDown kw n sum w k) := by
  induction k generalizing ws w with
  | zero => exact h
  | succ k ih =>
    rw [List.range_succ, List.reverse_append, List.foldl_append]
    exact ih (h.decWord kw sum hk) (Nat.le_of_succ_le hk)

/-- A forward sweep (spec/41_xxtea_core.md R124). -/
theorem Represents.encSweep (h : Represents n ws w) : Represents n (encSweep kw sum ws) (sweepUp kw n sum w n) := by
  rw [Machine.encSweep, h.length]
  exact h.foldl_encWord kw sum le_rfl

/-- A backward sweep (spec/41_xxtea_core.md R126). -/
theorem Represents.decSweep (h : Represents n ws w) : Represents n (decSweep kw sum ws) (sweepDown kw n sum w n) := by
  rw [Machine.decSweep, h.length]
  exact h.foldl_decWord kw sum le_rfl

/-! ### All sweeps -/

/-- The accumulator of sweep `r` is `r * DELTA` (spec/41_xxtea_core.md R125). -/
theorem ofNat_mul_delta (r : Nat) : BitVec.ofNat 32 r * delta = BitVec.ofNat 32 (r * 0x9E3779B9) :=
  (BitVec.ofNat_mul r 0x9E3779B9).symm

/-- `r` forward sweeps (spec/41_xxtea_core.md R125). -/
theorem Represents.encSweeps (h : Represents n ws w) (r : Nat) :
    Represents n (encSweeps kw r 0 ws) (encRounds kw n w r) := by
  induction r with
  | zero => exact h
  | succ r ih =>
    rw [encSweeps_succ, zero_add, ofNat_mul_delta]
    exact ih.encSweep kw _

/-- `r` backward sweeps (spec/41_xxtea_core.md R125, R126). -/
theorem Represents.decSweeps (h : Represents n ws w) (r : Nat) :
    Represents n (decSweeps kw r (BitVec.ofNat 32 r * delta) ws) (decRounds kw n w r) := by
  induction r generalizing ws w with
  | zero => exact h
  | succ r ih =>
    have hstep : BitVec.ofNat 32 (r + 1) * delta - delta = BitVec.ofNat 32 r * delta := by
      rw [ofNat_succ_mul, BitVec.add_sub_cancel]
    rw [Machine.decSweeps, hstep, ofNat_mul_delta (r + 1)]
    exact ih (h.decSweep kw _)

/-- Encryption of a block (spec/41_xxtea_core.md R121, R124). -/
theorem Represents.encryptWords (h : Represents n ws w) :
    Represents n (encryptWords kw ws) (encRounds kw n w (6 + 52 / n)) := by
  rw [Machine.encryptWords, h.length]
  exact h.encSweeps kw _

/-- Decryption of a block (spec/41_xxtea_core.md R121, R126). -/
theorem Represents.decryptWords (h : Represents n ws w) :
    Represents n (decryptWords kw ws) (decRounds kw n w (6 + 52 / n)) := by
  rw [Machine.decryptWords, h.length]
  exact h.decSweeps kw _

end Sys2Proof.Machine
end

-- Proofs: what the word cipher's commands do
section
/-! SUPPORT. XXENC and XXDEC are one command over two permutations: a no-op on fewer than two words, else the permuted
words at the front of `W` (spec/41_xxtea_core.md R123). -/

namespace Sys2Proof.Machine

open Sys2Proof.Ref

/-- The command admits the word operand and the key, then permutes the operand in place (spec/41_xxtea_core.md R123). -/
structure PermutesWords (i : Instr) (perm : (BitVec 2 → Word) → List Word → List Word) : Prop where
  exec_eq : ∀ s, exec i s = cipherAdmission State.wcntFits (State.permuteWords perm) s
  length : ∀ kw ws, (perm kw ws).length = ws.length

/-- XXENC enciphers the word operand. -/
theorem permutesWords_xxenc : PermutesWords .xxenc encryptWords := ⟨fun _ => rfl, encryptWords_length⟩

/-- XXDEC deciphers the word operand. -/
theorem permutesWords_xxdec : PermutesWords .xxdec decryptWords := ⟨fun _ => rfl, decryptWords_length⟩

/-- The state `t` is `s` after a success that put the words `ws` in the place of the word operand. -/
structure WordsReplaced (s : State) (ws : List Word) (t : State) : Prop where
  err : t.err = 0
  frame : AllButW s t
  count : t.wcnt = s.wcnt
  word : ∀ j, j < s.wcnt.toNat → t.readW j = ws.getD j 0
  beyond : ∀ j, s.wcnt.toNat ≤ j → t.readW j = s.readW j

variable {i i' : Instr} {perm perm' : (BitVec 2 → Word) → List Word → List Word} {s t : State} {ws : List Word}

/-- The operand after a replacement is what replaced it. -/
theorem WordsReplaced.words (h : WordsReplaced s ws t) (hlen : ws.length = s.wcnt.toNat) : t.words = ws := by
  apply List.ext_getElem
  · rw [State.words_length, h.count, hlen]
  · intro j _ hj
    rw [← List.getD_eq_getElem (d := 0), ← List.getD_eq_getElem (d := 0), t.words_getD (h.count ▸ hlen ▸ hj),
      h.word j (hlen ▸ hj)]

/-- A replacement keeps what a word cipher is admitted by and keyed with. -/
theorem WordsReplaced.admission (h : WordsReplaced s ws t) :
    t.params = s.params ∧ t.keyv = s.keyv ∧ t.kw = s.kw := by
  obtain ⟨-, -, -, ⟨hk, hkeyv⟩, hparams, -⟩ := h.frame
  exact ⟨hparams, hkeyv, funext fun j => congrArg (Key.word · j) hk⟩

/-- An admitted command succeeds with its permutation. -/
theorem PermutesWords.exec_of_admitted (h : PermutesWords i perm) (hcount : s.wcnt.toNat ≤ s.params.bcap / 4 + 1)
    (hkey : s.keyv = true) : exec i s = succeed (s.permuteWords perm) :=
  (h.exec_eq s).trans (cipherAdmission_of_admitted (s.wcntFits_iff.mpr hcount) hkey)

/-- On fewer than two words only `STATUS` changes (spec/41_xxtea_core.md R123). -/
theorem PermutesWords.exec_of_lt_two (h : PermutesWords i perm) (hcount : s.wcnt.toNat ≤ s.params.bcap / 4 + 1)
    (hkey : s.keyv = true) (hn : s.wcnt.toNat < 2) : ∃ t, exec i s = .next t ∧ t.err = 0 ∧ SameButStatus s t := by
  rw [h.exec_of_admitted hcount hkey, State.permuteWords_of_lt_two hn]
  exact ⟨_, rfl, rfl, sameButStatus_complete s 0⟩

/-- On two words or more the permuted words replace the operand. -/
theorem PermutesWords.exec_of_two_le (h : PermutesWords i perm) (hcount : s.wcnt.toNat ≤ s.params.bcap / 4 + 1)
    (hkey : s.keyv = true) (hn : 2 ≤ s.wcnt.toNat) :
    ∃ t, exec i s = .next t ∧ WordsReplaced s (perm s.kw s.words) t := by
  have hlen : (perm s.kw s.words).length = s.wcnt.toNat := (h.length _ _).trans s.words_length
  rw [h.exec_of_admitted hcount hkey, State.permuteWords_of_two_le hn]
  refine ⟨_, rfl, rfl, allButW_putWords s (perm s.kw s.words), rfl, fun j hj => ?inside, fun j hj => ?beyond⟩
  case inside => exact (State.putWords_readW _ s j).trans (if_pos (hlen.symm ▸ hj))
  case beyond => exact putWords_readW_of_le s (hlen.trans_le hj)

/-- When one permutation undoes the other, so do their commands (spec/41_xxtea_core.md R127). -/
theorem PermutesWords.exec_undo (h : PermutesWords i perm) (h' : PermutesWords i' perm')
    (hundo : ∀ (kw : BitVec 2 → Word) {ws : List Word}, 2 ≤ ws.length → perm' kw (perm kw ws) = ws)
    (hcount : s.wcnt.toNat ≤ s.params.bcap / 4 + 1) (hkey : s.keyv = true) :
    ∃ t u, exec i s = .next t ∧ exec i' t = .next u ∧ u.err = 0 ∧
      ∀ j, j < s.wcnt.toNat → u.readW j = s.readW j := by
  rcases Nat.lt_or_ge s.wcnt.toNat 2 with hn | hn
  · obtain ⟨t, ht, -, -, -, hW, hwcnt, -, ⟨-, hkeyv⟩, hparams, -⟩ := h.exec_of_lt_two hcount hkey hn
    obtain ⟨u, hu, herr, -, -, hW', -⟩ :=
      h'.exec_of_lt_two (s := t) (by rwa [hwcnt, hparams]) (hkeyv.trans hkey) (hwcnt.symm ▸ hn)
    exact ⟨t, u, ht, hu, herr, fun j _ => (hW' j).trans (hW j)⟩
  · obtain ⟨t, ht, hfirst⟩ := h.exec_of_two_le hcount hkey hn
    obtain ⟨hparams, hkeyv, hkw⟩ := hfirst.admission
    obtain ⟨u, hu, hsecond⟩ := h'.exec_of_two_le (s := t) (by rwa [hfirst.count, hparams]) (hkeyv.trans hkey)
      (hfirst.count.symm ▸ hn)
    have hwords : perm' t.kw t.words = s.words := by
      rw [hkw, hfirst.words ((h.length _ _).trans s.words_length), hundo _ (s.words_length.symm ▸ hn)]
    refine ⟨t, u, ht, hu, hsecond.err, fun j hj => ?_⟩
    rw [hsecond.word j (hfirst.count.symm ▸ hj), hwords, s.words_getD hj]

/-- A command whose permutation has a reference leaves the reference's words (spec/41_xxtea_core.md R124, R126). -/
theorem PermutesWords.exec_represents (h : PermutesWords i perm) {w : Block}
    (href : Represents s.wcnt.toNat (perm s.kw s.words) w) (hcount : s.wcnt.toNat ≤ s.params.bcap / 4 + 1)
    (hkey : s.keyv = true) (hn : 2 ≤ s.wcnt.toNat) :
    ∃ t, exec i s = .next t ∧ t.err = 0 ∧ AllButW s t ∧ t.wcnt = s.wcnt ∧
      (∀ j, j < s.wcnt.toNat → t.readW j = w j) ∧ (∀ j, s.wcnt.toNat ≤ j → t.readW j = s.readW j) := by
  obtain ⟨t, ht, hreplaced⟩ := h.exec_of_two_le hcount hkey hn
  exact ⟨t, ht, hreplaced.err, hreplaced.frame, hreplaced.count,
    fun j hj => (hreplaced.word j hj).trans (href.word j hj), hreplaced.beyond⟩

end Sys2Proof.Machine

open Sys2Proof Sys2Proof.Machine

/-- Settles O23: both commands leave a block of fewer than two words alone. -/
theorem fewerThanTwoWordsIsANoOp : Obligations.FewerThanTwoWordsIsANoOp := by
  unfold Obligations.FewerThanTwoWordsIsANoOp
  rintro i s (rfl | rfl) hcount hkey hn
  · exact permutesWords_xxenc.exec_of_lt_two hcount hkey hn
  · exact permutesWords_xxdec.exec_of_lt_two hcount hkey hn

/-- Settles O24: the enciphered list represents the reference's block. -/
theorem xxencRunsTheForwardSweeps : Obligations.XxencRunsTheForwardSweeps := by
  unfold Obligations.XxencRunsTheForwardSweeps
  intro s
  exact permutesWords_xxenc.exec_represents ((represents_words s).encryptWords s.kw)

/-- Settles O25: the deciphered list represents the reference's block. -/
theorem xxdecRunsTheBackwardSweeps : Obligations.XxdecRunsTheBackwardSweeps := by
  unfold Obligations.XxdecRunsTheBackwardSweeps
  intro s
  exact permutesWords_xxdec.exec_represents ((represents_words s).decryptWords s.kw)

/-- Settles O26: the two permutations undo each other. -/
theorem wordCipherInverts : Obligations.WordCipherInverts := by
  unfold Obligations.WordCipherInverts
  intro s hcount hkey
  exact ⟨permutesWords_xxenc.exec_undo permutesWords_xxdec decryptWords_encryptWords hcount hkey,
    permutesWords_xxdec.exec_undo permutesWords_xxenc encryptWords_decryptWords hcount hkey⟩
end

-- Proofs: the byte cipher position by position
section
/-! SUPPORT. The byte chain of spec/42_bytestream.md R143: position `j` of a span depends on byte `j`, and on the byte
before it in the list of ciphertext bytes with the chain's start put in front. -/

namespace Sys2Proof.Machine

open Sys2Proof.Ref

variable (key : Key) (len : Nat)

/-- Byte `j` of an encryption is chained on its own output (spec/42_bytestream.md R144). -/
theorem encFrom_getD (i : Nat) (prevOut : Byte) {bs : List Byte} {j : Nat} (hj : j < bs.length) :
    (encFrom key len i prevOut bs).getD j 0 =
      encByte key len (i + j) ((prevOut :: encFrom key len i prevOut bs).getD j 0) (bs.getD j 0) := by
  induction bs generalizing i prevOut j with
  | nil => exact absurd hj (Nat.not_lt_zero j)
  | cons b bs ih =>
    cases j with
    | zero => rfl
    | succ j =>
      have hrest := ih (i + 1) (encByte key len i prevOut b) (Nat.lt_of_succ_lt_succ hj)
      rwa [Nat.add_right_comm] at hrest

/-- Byte `j` of a decryption is chained on its input (spec/42_bytestream.md R146). -/
theorem decFrom_getD (i : Nat) (prevOut : Byte) {cs : List Byte} {j : Nat} (hj : j < cs.length) :
    (decFrom key len i prevOut cs).getD j 0 =
      decByte key len (i + j) ((prevOut :: cs).getD j 0) (cs.getD j 0) := by
  induction cs generalizing i prevOut j with
  | nil => exact absurd hj (Nat.not_lt_zero j)
  | cons c cs ih =>
    cases j with
    | zero => rfl
    | succ j =>
      have hrest := ih (i + 1) c (Nat.lt_of_succ_lt_succ hj)
      rwa [Nat.add_right_comm] at hrest

/-- The key byte of a position is that of its residue modulo 16 (spec/42_bytestream.md R140). -/
theorem addKey_eq_mod (i : Nat) : addKey key i = Key.byte key (i % 16) >>> 2 := by
  simp only [addKey, Key.byte, Nat.mod_mod]

/-- One position of encryption is the rule's three steps. -/
theorem encByte_eq_encPosition (i : Nat) (prevOut b : Byte) :
    encByte key len i prevOut b = encPosition key len i prevOut b := by
  rw [encByte, addKey_eq_mod]; rfl

/-- One position of decryption is the rule's three inverse steps. -/
theorem decByte_eq_decPosition (i : Nat) (prevOut c : Byte) :
    decByte key len i prevOut c = decPosition key len i prevOut c := by
  rw [decByte, addKey_eq_mod]; rfl

/-- A byte of an encrypted span, in the rule's steps. -/
theorem encSpan_getD {bs : List Byte} {i : Nat} (hi : i < bs.length) :
    (encSpan key bs).getD i 0 =
      encPosition key bs.length i ((0 :: encSpan key bs).getD i 0) (bs.getD i 0) := by
  have hbyte := encFrom_getD key bs.length 0 0 hi
  rwa [Nat.zero_add, encByte_eq_encPosition] at hbyte

/-- A byte of a decrypted span, in the rule's steps. -/
theorem decSpan_getD {cs : List Byte} {i : Nat} (hi : i < cs.length) :
    (decSpan key cs).getD i 0 = decPosition key cs.length i ((0 :: cs).getD i 0) (cs.getD i 0) := by
  have hbyte := decFrom_getD key cs.length 0 0 hi
  rwa [Nat.zero_add, decByte_eq_decPosition] at hbyte

/-- The byte before position `i` of the byte operand, `prevOut` standing before the first. -/
theorem State.cons_bytes_getD (s : State) (prevOut : Byte) {i : Nat} (hi : i < s.blen.toNat) :
    (prevOut :: s.bytes).getD i 0 = if i = 0 then prevOut else s.readB (i - 1) := by
  cases i with
  | zero => rfl
  | succ i => exact s.bytes_getD (Nat.lt_of_succ_lt hi) 0

end Sys2Proof.Machine
end

-- Proofs: what the byte cipher's commands do
section
/-! SUPPORT. BSENC and BSDEC are one command over two functions of the key and the byte operand, whose result takes the
operand's place (spec/42_bytestream.md R145). -/

namespace Sys2Proof.Machine

open Sys2Proof.Ref

/-- The command admits the byte operand and the key, then rewrites the operand in place (spec/42_bytestream.md R145). -/
structure RewritesBytes (i : Instr) (f : Key → List Byte → List Byte) : Prop where
  exec_eq : ∀ s, exec i s = cipherAdmission State.blenFits (fun t => t.putBytes (f t.k t.bytes)) s
  length : ∀ k bs, (f k bs).length = bs.length

/-- BSENC enciphers the byte operand. -/
theorem rewritesBytes_bsenc : RewritesBytes .bsenc encSpan := ⟨fun _ => rfl, encSpan_length⟩

/-- BSDEC deciphers the byte operand. -/
theorem rewritesBytes_bsdec : RewritesBytes .bsdec decSpan := ⟨fun _ => rfl, decSpan_length⟩

/-- The state `t` is `s` after a success that put the bytes `bs` in the place of the byte operand. -/
structure BytesReplaced (s : State) (bs : List Byte) (t : State) : Prop where
  err : t.err = 0
  frame : AllButB s t
  count : t.blen = s.blen
  bytes : t.bytes = bs
  beyond : ∀ i, s.blen.toNat ≤ i → t.readB i = s.readB i

variable {i i' : Instr} {f f' : Key → List Byte → List Byte} {s t : State} {bs : List Byte}

/-- A byte of the operand after a replacement. -/
theorem BytesReplaced.readB (h : BytesReplaced s bs t) {j : Nat} (hj : j < s.blen.toNat) :
    t.readB j = bs.getD j 0 := by
  rw [← h.bytes, t.bytes_getD (h.count.symm ▸ hj)]

/-- A replacement keeps what a byte cipher is admitted by and keyed with. -/
theorem BytesReplaced.admission (h : BytesReplaced s bs t) :
    t.params = s.params ∧ t.keyv = s.keyv ∧ t.k = s.k := by
  obtain ⟨-, -, -, ⟨hk, hkeyv⟩, hparams, -⟩ := h.frame
  exact ⟨hparams, hkeyv, hk⟩

/-- An admitted command replaces its operand. -/
theorem RewritesBytes.exec_of_admitted (h : RewritesBytes i f) (hfits : s.blen.toNat ≤ s.params.bcap)
    (hkey : s.keyv = true) : ∃ t, exec i s = .next t ∧ BytesReplaced s (f s.k s.bytes) t := by
  have hlen : (f s.k s.bytes).length = s.blen.toNat := (h.length _ _).trans s.bytes_length
  rw [h.exec_eq, cipherAdmission_of_admitted (s.blenFits_iff.mpr hfits) hkey]
  exact ⟨_, rfl, rfl, allButB_putBytes s (f s.k s.bytes), rfl, State.putBytes_bytes hlen,
    fun j hj => putBytes_readB_of_le s (hlen.trans_le hj)⟩

/-- When one function undoes the other, so do their commands (spec/42_bytestream.md R147). -/
theorem RewritesBytes.exec_undo (h : RewritesBytes i f) (h' : RewritesBytes i' f')
    (hundo : ∀ k bs, f' k (f k bs) = bs) (hfits : s.blen.toNat ≤ s.params.bcap) (hkey : s.keyv = true) :
    ∃ t u, exec i s = .next t ∧ exec i' t = .next u ∧ u.err = 0 ∧
      ∀ j, j < s.blen.toNat → u.readB j = s.readB j := by
  obtain ⟨t, ht, hfirst⟩ := h.exec_of_admitted hfits hkey
  obtain ⟨hparams, hkeyv, hk⟩ := hfirst.admission
  obtain ⟨u, hu, hsecond⟩ := h'.exec_of_admitted (s := t) (by rwa [hfirst.count, hparams]) (hkeyv.trans hkey)
  have hbytes : f' t.k t.bytes = s.bytes := by rw [hk, hfirst.bytes, hundo]
  refine ⟨t, u, ht, hu, hsecond.err, fun j hj => ?_⟩
  rw [hsecond.readB (hfirst.count.symm ▸ hj), hbytes, s.bytes_getD hj]

end Sys2Proof.Machine

open Sys2Proof Sys2Proof.Machine

/-- Settles O28: the new bytes are an encrypted span, whose chain runs through those bytes themselves. -/
theorem bsencRunsTheSteps : Obligations.BsencRunsTheSteps := by
  unfold Obligations.BsencRunsTheSteps
  intro s hfits hkey
  obtain ⟨t, ht, hnew⟩ := rewritesBytes_bsenc.exec_of_admitted hfits hkey
  refine ⟨t, ht, hnew.err, hnew.frame, hnew.count, fun i hi => ?_, hnew.beyond⟩
  rw [hnew.readB hi, encSpan_getD s.k (by rwa [s.bytes_length]), ← hnew.bytes,
    t.cons_bytes_getD 0 (hnew.count.symm ▸ hi), s.bytes_length, s.bytes_getD hi]

/-- Settles O29: the new bytes are a decrypted span, whose chain runs through the old bytes. -/
theorem bsdecRunsTheSteps : Obligations.BsdecRunsTheSteps := by
  unfold Obligations.BsdecRunsTheSteps
  intro s hfits hkey
  obtain ⟨t, ht, hnew⟩ := rewritesBytes_bsdec.exec_of_admitted hfits hkey
  refine ⟨t, ht, hnew.err, hnew.frame, hnew.count, fun i hi => ?_, hnew.beyond⟩
  rw [hnew.readB hi, decSpan_getD s.k (by rwa [s.bytes_length]), s.cons_bytes_getD 0 hi, s.bytes_length,
    s.bytes_getD hi]

/-- Settles O30: the two functions of a span undo each other. -/
theorem byteCipherInverts : Obligations.ByteCipherInverts := by
  unfold Obligations.ByteCipherInverts
  intro s hfits hkey
  exact ⟨rewritesBytes_bsenc.exec_undo rewritesBytes_bsdec decSpan_encSpan hfits hkey,
    rewritesBytes_bsdec.exec_undo rewritesBytes_bsenc encSpan_decSpan hfits hkey⟩
end

-- Proofs: the partition of the buffer
section
/-! SUPPORT. The lengths of the three regions (spec/43_chunked_engine.md R160). -/

namespace Sys2Proof.Machine

open Sys2Proof.Ref

variable (len : Nat)

/-- The model's partition holds the rule's quantities. -/
theorem partition_eq : partition len = ⟨len / 64, len % 64, subWords len, subLen len, tailLen len⟩ := rfl

/-- At most 63 bytes follow the windows. -/
theorem subWords_le_fifteen : subWords len ≤ 15 :=
  Nat.div_le_div_right (Nat.le_of_lt_succ (Nat.mod_lt len (by decide)))

/-- A sub-block is part of what follows the windows. -/
theorem subLen_le_mod : subLen len ≤ len % 64 := by
  unfold subLen
  split
  · exact Nat.mul_div_le (len % 64) 4
  · exact Nat.zero_le _

/-- The three regions cover the buffer. -/
theorem regions_add : 64 * (len / 64) + subLen len + tailLen len = len := by
  rw [Nat.add_assoc, tailLen, Nat.add_sub_of_le (subLen_le_mod len), Nat.div_add_mod]

variable {len}

/-- More than one word makes a sub-block. -/
theorem subLen_of_one_lt (h : 1 < subWords len) : subLen len = 4 * subWords len := if_pos h

/-- One word makes none: its bytes fall to the tail. -/
theorem subLen_of_le_one (h : subWords len ≤ 1) : subLen len = 0 := if_neg (Nat.not_lt.mpr h)

/-- Beside a sub-block the tail is less than a word. -/
theorem tailLen_le_three (h : 1 < subWords len) : tailLen len ≤ 3 := by
  rw [tailLen, subLen_of_one_lt h, subWords]
  omega

/-- Without a sub-block the tail is less than two words. -/
theorem tailLen_le_seven (h : subWords len ≤ 1) : tailLen len ≤ 7 := by
  rw [tailLen, subLen_of_le_one h]
  rw [subWords] at h
  omega

end Sys2Proof.Machine

open Sys2Proof Sys2Proof.Machine

/-- Settles O31: the tail is what the words of the sub-block leave of the bytes after the windows. -/
theorem partitionCoversTheBuffer : Obligations.PartitionCoversTheBuffer := by
  unfold Obligations.PartitionCoversTheBuffer
  intro len
  rw [partition_eq]
  exact ⟨rfl, rfl, rfl, rfl, regions_add len,
    fun h => ⟨subLen_of_one_lt h, subWords_le_fifteen len, tailLen_le_three h⟩,
    fun h => ⟨subLen_of_le_one h, tailLen_le_seven h⟩⟩
end

-- Proofs: what the chunked engine's commands do
section
/-! SUPPORT. CHENC and CHDEC rewrite the byte operand like BSENC and BSDEC, with `transform` in the place of one span;
what `transform` does to a region of the operand it does to that region of `B` (spec/43_chunked_engine.md R162 to
R164). -/

namespace Sys2Proof.Machine

open Sys2Proof.Ref

/-! ### The two commands -/

/-- CHENC on the byte operand (spec/43_chunked_engine.md R163). -/
def chunkEncrypt (key : Key) : List Byte → List Byte := transform (encryptWords (Key.word key)) (encSpan key)

/-- CHDEC on the byte operand (spec/43_chunked_engine.md R164). -/
def chunkDecrypt (key : Key) : List Byte → List Byte := transform (decryptWords (Key.word key)) (decSpan key)

/-- CHENC enciphers the byte operand by regions. -/
theorem rewritesBytes_chenc : RewritesBytes .chenc chunkEncrypt :=
  ⟨fun _ => rfl, fun key bs => (transform_spec (lengthKeeping_encrypt (Key.word key) key) bs).1⟩

/-- CHDEC deciphers the byte operand by regions. -/
theorem rewritesBytes_chdec : RewritesBytes .chdec chunkDecrypt :=
  ⟨fun _ => rfl, fun key bs => (transform_spec (lengthKeeping_decrypt (Key.word key) key) bs).1⟩

/-- Decryption by regions undoes encryption by regions (spec/43_chunked_engine.md R169). -/
theorem chunkDecrypt_chunkEncrypt (key : Key) (bs : List Byte) : chunkDecrypt key (chunkEncrypt key bs) = bs :=
  transform_transform (lengthKeeping_encrypt _ key) (lengthKeeping_decrypt _ key)
    (fun _ => decryptWords_encryptWords _) (decSpan_encSpan key) bs

/-- Encryption by regions undoes decryption by regions (spec/43_chunked_engine.md R169). -/
theorem chunkEncrypt_chunkDecrypt (key : Key) (bs : List Byte) : chunkEncrypt key (chunkDecrypt key bs) = bs :=
  transform_transform (lengthKeeping_decrypt _ key) (lengthKeeping_encrypt _ key)
    (fun _ => encryptWords_decryptWords _) (encSpan_decSpan key) bs

/-! ### Regions of `B` -/

variable {s t : State} {off n : Nat}

/-- A region of `B` below BLEN is a slice of the byte operand. -/
theorem bytesAt_eq_slice (h : off + n ≤ s.blen.toNat) : bytesAt s off n = slice off n s.bytes := by
  apply List.ext_getElem
  · rw [slice_length (s.bytes_length.symm ▸ h)]
    simp [bytesAt]
  · intro i _ _
    simp [bytesAt, slice, State.bytes]

/-- Two states have the same region of `B` when they agree on its bytes. -/
theorem bytesAt_eq_bytesAt_iff :
    bytesAt s off n = bytesAt t off n ↔ ∀ i, i < n → s.readB (off + i) = t.readB (off + i) := by
  simp [bytesAt]

/-- The regions of `B` in `t` are those of `s`, the words permuted by `perm` and the tail rewritten by `span`. -/
structure RegionsReplaced (perm : List Word → List Word) (span : List Byte → List Byte) (s t : State) : Prop where
  window : ∀ k, k < s.blen.toNat / 64 →
    bytesAt t (64 * k) 64 = unpackWords (perm (packWords (bytesAt s (64 * k) 64)))
  subBlock : 1 < subWords s.blen.toNat →
    bytesAt t (64 * (s.blen.toNat / 64)) (subLen s.blen.toNat) =
      unpackWords (perm (packWords (bytesAt s (64 * (s.blen.toNat / 64)) (subLen s.blen.toNat))))
  tail : bytesAt t (64 * (s.blen.toNat / 64) + subLen s.blen.toNat) (tailLen s.blen.toNat) =
    span (bytesAt s (64 * (s.blen.toNat / 64) + subLen s.blen.toNat) (tailLen s.blen.toNat))

/-- A transform of the byte operand replaces the regions of `B`. -/
theorem BytesReplaced.regions {perm : List Word → List Word} {span : List Byte → List Byte}
    (h : BytesReplaced s (transform perm span s.bytes) t) (hkeep : LengthKeeping perm span) :
    RegionsReplaced perm span s t := by
  have hcover := regions_add s.blen.toNat
  obtain ⟨-, hwindow, hsub, htail⟩ := transform_spec hkeep s.bytes
  simp only [s.bytes_length, partition_eq] at hwindow hsub htail
  have hold {off n : Nat} (hle : off + n ≤ s.blen.toNat) := bytesAt_eq_slice hle
  have hnew {off n : Nat} (hle : off + n ≤ s.blen.toNat) :
      bytesAt t off n = slice off n (transform perm span s.bytes) := by
    rw [bytesAt_eq_slice (h.count.symm ▸ hle), h.bytes]
  refine ⟨fun k hk => ?window, fun hwords => ?subBlock, ?tail⟩
  case window =>
    have hle : 64 * k + 64 ≤ s.blen.toNat := by omega
    rw [hnew hle, hold hle, hwindow k hk]
  case subBlock =>
    have hle := Nat.le.intro hcover
    rw [hnew hle, hold hle, hsub hwords]
  case tail =>
    rw [hnew hcover.le, hold hcover.le]
    by_cases hne : tailLen s.blen.toNat = 0
    · rw [hne]
      exact (List.length_eq_zero_iff.mp (hkeep.span_length [])).symm
    · exact htail hne

end Sys2Proof.Machine

open Sys2Proof Sys2Proof.Machine

/-- Settles O32: CHENC replaces the operand by its transform, which is read off region by region. -/
theorem chencRunsTheStages : Obligations.ChencRunsTheStages := by
  unfold Obligations.ChencRunsTheStages
  intro s hfits hkey
  obtain ⟨t, ht, hnew⟩ := rewritesBytes_chenc.exec_of_admitted hfits hkey
  have hregions := hnew.regions (lengthKeeping_encrypt s.kw s.k)
  exact ⟨t, ht, hnew.err, hnew.frame, hnew.count, hnew.beyond, hregions.window, hregions.subBlock, hregions.tail⟩

/-- Settles O33: CHDEC replaces the operand by its transform, which is read off region by region. -/
theorem chdecRunsTheStages : Obligations.ChdecRunsTheStages := by
  unfold Obligations.ChdecRunsTheStages
  intro s hfits hkey
  obtain ⟨t, ht, hnew⟩ := rewritesBytes_chdec.exec_of_admitted hfits hkey
  have hregions := hnew.regions (lengthKeeping_decrypt s.kw s.k)
  exact ⟨t, ht, hnew.err, hnew.frame, hnew.count, hnew.beyond, hregions.window, hregions.subBlock, hregions.tail⟩

/-- Settles O34: the two transforms undo each other. -/
theorem chunkedCipherInverts : Obligations.ChunkedCipherInverts := by
  unfold Obligations.ChunkedCipherInverts
  intro s hfits hkey
  exact ⟨rewritesBytes_chenc.exec_undo rewritesBytes_chdec chunkDecrypt_chunkEncrypt hfits hkey,
    rewritesBytes_chdec.exec_undo rewritesBytes_chenc chunkEncrypt_chunkDecrypt hfits hkey⟩

/-- Settles O35: a byte below the cut stands in a window, which is enciphered from its own bytes and the key alone. -/
theorem windowsDoNotDependOnTheRest : Obligations.WindowsDoNotDependOnTheRest := by
  unfold Obligations.WindowsDoNotDependOnTheRest
  intro s s' t t' hfits hfits' hkey hkey' hk hcut hsame ht ht' i hi
  obtain ⟨_, hexec, -, -, -, -, hwindow, -⟩ := chencRunsTheStages s hfits hkey
  obtain ⟨_, hexec', -, -, -, -, hwindow', -⟩ := chencRunsTheStages s' hfits' hkey'
  cases hexec.symm.trans ht
  cases hexec'.symm.trans ht'
  have hkw : s.kw = s'.kw := congrArg Key.word hk
  have hold : Ref.bytesAt s (64 * (i / 64)) 64 = Ref.bytesAt s' (64 * (i / 64)) 64 :=
    bytesAt_eq_bytesAt_iff.mpr fun j hj => hsame _ (by omega)
  have hnew : Ref.bytesAt t (64 * (i / 64)) 64 = Ref.bytesAt t' (64 * (i / 64)) 64 := by
    rw [hwindow (i / 64) (by omega), hwindow' (i / 64) (by omega), hkw, hold]
  have hbyte := bytesAt_eq_bytesAt_iff.mp hnew (i % 64) (Nat.mod_lt i (by decide))
  rwa [Nat.div_add_mod] at hbyte
end

-- Proofs: what the key loads do
section
/-! SUPPORT. The padded key ends at the first zero byte (spec/44_keyload.md R180, R181); a key load takes the first fault
of its checks, or loads its key (R185). -/

namespace Sys2Proof.Machine

open Sys2Proof.Ref

variable {s : State}

/-! ### The end of the padded input -/

/-- The padded input ends at its length, with no zero staged byte before, or at the first zero staged byte. -/
theorem padEnd_cases (s : State) :
    (padEnd s = min s.klen.toNat 16 ∧ ∀ i, i < min s.klen.toNat 16 → s.readKin i ≠ 0) ∨
    (padEnd s < min s.klen.toNat 16 ∧ s.readKin (padEnd s) = 0 ∧ ∀ i, i < padEnd s → s.readKin i ≠ 0) := by
  cases hfind : (List.range (min s.klen.toNat 16)).find? (fun i => s.readKin i == 0) with
  | none =>
    have hend : padEnd s = min s.klen.toNat 16 := by simp only [padEnd, hfind, Option.getD_none]
    refine .inl ⟨hend, fun i hi => ?_⟩
    simpa using List.find?_range_eq_none.mp hfind i hi
  | some n =>
    have hend : padEnd s = n := by simp only [padEnd, hfind, Option.getD_some]
    obtain ⟨hzero, hmem, hbefore⟩ := List.find?_range_eq_some.mp hfind
    rw [hend]
    exact .inr ⟨List.mem_range.mp hmem, by simpa using hzero, fun i hi => by simpa using hbefore i hi⟩

theorem padEnd_le (s : State) : padEnd s ≤ min s.klen.toNat 16 := by
  rcases padEnd_cases s with ⟨hend, -⟩ | ⟨hlt, -⟩
  · exact hend.le
  · exact hlt.le

theorem readKin_ne_zero_of_lt_padEnd {i : Nat} (hi : i < padEnd s) : s.readKin i ≠ 0 := by
  rcases padEnd_cases s with ⟨hend, hne⟩ | ⟨-, -, hne⟩
  · exact hne i (hend ▸ hi)
  · exact hne i hi

theorem readKin_padEnd_of_lt (h : padEnd s < min s.klen.toNat 16) : s.readKin (padEnd s) = 0 := by
  rcases padEnd_cases s with ⟨hend, -⟩ | ⟨-, hzero, -⟩
  · exact absurd hend h.ne
  · exact hzero

theorem padKey_getElem (s : State) (i : Fin 16) :
    (padKey s)[i] = if i.val < padEnd s then s.readKin i.val else 0 := by
  simp [padKey]

theorem rawKey_getElem (s : State) (i : Fin 16) : (rawKey s)[i] = s.readKin i.val := by
  simp [rawKey]

/-! ### What the commands do -/

/-- A staged length beyond the capacity is checked first (spec/60_exceptions.md R202, R208). -/
theorem exec_keyLoad_overflow {i : Instr} (hi : i = .keyldPad ∨ i = .keyldRaw)
    (hover : s.params.kcap < s.klen.toNat) : exec i s = raise .allocationFailure s := by
  have hfits : s.klenFits = false := decide_eq_false (Nat.not_le.mpr hover)
  rcases hi with rfl | rfl
  · exact if_pos hfits
  · exact if_pos hfits

/-- Then the modulus of the length (spec/60_exceptions.md R205). -/
theorem exec_keyldRaw_invalidLength (hfits : s.klen.toNat ≤ s.params.kcap) (hmod : s.klen.toNat % 8 ≠ 0) :
    exec .keyldRaw s = raise .invalidKeyLength s := by
  simp [exec, execKeyldRaw, hfits, hmod]

/-- Then the length (spec/60_exceptions.md R203). -/
theorem exec_keyldRaw_tooShort (hfits : s.klen.toNat ≤ s.params.kcap) (hmod : s.klen.toNat % 8 = 0)
    (hshort : s.klen.toNat < 16) : exec .keyldRaw s = raise .keyTooShort s := by
  simp [exec, execKeyldRaw, hfits, hmod, hshort]

/-- The state `t` is `s` after a load of `key`. -/
structure KeyLoaded (s : State) (key : Key) (t : State) : Prop where
  err : t.err = 0
  frame : AllButKey s t
  valid : t.keyv = true
  key : t.k = key

/-- A load of a key, completed. -/
theorem succeed_loadKey (s : State) (key : Key) : ∃ t, succeed (s.loadKey key) = .next t ∧ KeyLoaded s key t :=
  ⟨_, rfl, rfl, allButKey_loadKey s key, rfl, rfl⟩

theorem exec_keyldPad (hfits : s.klen.toNat ≤ s.params.kcap) :
    ∃ t, exec .keyldPad s = .next t ∧ KeyLoaded s (padKey s) t := by
  rw [exec_of_admitted (i := .keyldPad) (by simp [admitted, hfits])]
  exact succeed_loadKey s (padKey s)

theorem exec_keyldRaw (hfits : s.klen.toNat ≤ s.params.kcap) (hmod : s.klen.toNat % 8 = 0) (hlong : 16 ≤ s.klen.toNat) :
    ∃ t, exec .keyldRaw s = .next t ∧ KeyLoaded s (rawKey s) t := by
  rw [exec_of_admitted (i := .keyldRaw) (by simp [admitted, hfits, hmod, hlong])]
  exact succeed_loadKey s (rawKey s)

end Sys2Proof.Machine

open Sys2Proof Sys2Proof.Machine

/-- Settles O36: KEYLD.PAD loads the padded key, which ends at `padEnd`. -/
theorem keyldPadLoadsThePaddedKey : Obligations.KeyldPadLoadsThePaddedKey := by
  unfold Obligations.KeyldPadLoadsThePaddedKey
  intro s
  refine ⟨exec_keyLoad_overflow (.inl rfl), fun hfits => ?_⟩
  obtain ⟨t, ht, hloaded⟩ := exec_keyldPad hfits
  exact ⟨t, padEnd s, ht, hloaded.err, hloaded.frame, hloaded.valid, padEnd_le s,
    fun _ => readKin_ne_zero_of_lt_padEnd, readKin_padEnd_of_lt, fun i => hloaded.key ▸ padKey_getElem s i⟩

/-- Settles O37: KEYLD.RAW takes its faults in the order of its checks, or loads the staged bytes. -/
theorem keyldRawLoadsSixteenBytes : Obligations.KeyldRawLoadsSixteenBytes := by
  unfold Obligations.KeyldRawLoadsSixteenBytes
  intro s
  refine ⟨exec_keyLoad_overflow (.inr rfl), exec_keyldRaw_invalidLength, exec_keyldRaw_tooShort,
    fun hfits hmod hlong => ?_⟩
  obtain ⟨t, ht, hloaded⟩ := exec_keyldRaw hfits hmod hlong
  exact ⟨t, ht, hloaded.err, hloaded.frame, hloaded.valid, fun i => hloaded.key ▸ rawKey_getElem s i⟩
end

-- Proofs: the first fault a command meets
section
/-! SUPPORT. Which fault a command takes, as a function of the command and the state: the first of its checks that fails
(spec/60_exceptions.md R201 to R208). What a command answers follows from it, and so does the code it reports. -/

namespace Sys2Proof.Machine

variable {i : Instr} {s t : State} {f : EngineFault}

/-! ### A capacity check that fails -/

@[simp] theorem State.blenFits_eq_false_iff (s : State) : s.blenFits = false ↔ s.params.bcap < s.blen.toNat := by
  rw [← Bool.not_eq_true, s.blenFits_iff, Nat.not_le]

@[simp] theorem State.wcntFits_eq_false_iff (s : State) :
    s.wcntFits = false ↔ s.params.bcap / 4 + 1 < s.wcnt.toNat := by
  rw [← Bool.not_eq_true, s.wcntFits_iff, Nat.not_le]

@[simp] theorem State.klenFits_eq_false_iff (s : State) : s.klenFits = false ↔ s.params.kcap < s.klen.toNat := by
  rw [← Bool.not_eq_true, s.klenFits_iff, Nat.not_le]

/-! ### The first fault -/

/-- The fault of a command whose only check is the one of its operand's capacity (spec/60_exceptions.md R202). -/
def capacityFault (fits : Bool) : Option EngineFault := if fits = false then some .allocationFailure else none

/-- The fault of a cipher command, whose key is checked after the capacity (spec/60_exceptions.md R203, R208). -/
def cipherFault (fits keyv : Bool) : Option EngineFault :=
  if fits = false then some .allocationFailure else if keyv = false then some .keyTooShort else none

/-- The fault of UNPACK, which checks its operand's capacity and its result's (spec/60_exceptions.md R202). -/
def unpackFault (s : State) : Option EngineFault :=
  if s.wcntFits = false then some .allocationFailure
  else if s.params.bcap < 4 * s.wcnt.toNat then some .allocationFailure
  else none

/-- The fault of UNPACK.L, which checks the capacity, then the length word (spec/60_exceptions.md R206, R208). -/
def unpackLFault (s : State) : Option EngineFault :=
  if s.wcntFits = false then some .allocationFailure
  else if s.wcnt.toNat = 0 then some .corruptLengthHeader
  else if headerOk s.wcnt.toNat (s.readW (s.wcnt.toNat - 1)).toNat = false then some .corruptLengthHeader
  else none

/-- The fault of KEYLD.RAW, which checks the capacity, the modulus and the length (spec/60_exceptions.md R208). -/
def keyldRawFault (s : State) : Option EngineFault :=
  if s.klenFits = false then some .allocationFailure
  else if s.klen.toNat % 8 ≠ 0 then some .invalidKeyLength
  else if s.klen.toNat < 16 then some .keyTooShort
  else none

/-- The first fault a command meets (spec/60_exceptions.md R208); `none` when it succeeds. -/
def firstFault (s : State) : Instr → Option EngineFault
  | .pack | .packL => capacityFault s.blenFits
  | .keyldPad => capacityFault s.klenFits
  | .bsenc | .bsdec | .chenc | .chdec => cipherFault s.blenFits s.keyv
  | .xxenc | .xxdec => cipherFault s.wcntFits s.keyv
  | .unpack => unpackFault s
  | .unpackL => unpackLFault s
  | .keyldRaw => keyldRawFault s

/-- The outcome of a command from the fault it meets, if any, and its effect. -/
def answer (s u : State) : Option EngineFault → Host.Outcome State Fault Refusal
  | some f => raise f s
  | none => succeed u

/-- A failing check decides the answer; a passed one leaves it to the checks after it. -/
theorem answer_ite (s u : State) (c : Prop) [Decidable c] (f : EngineFault) (o : Option EngineFault) :
    answer s u (if c then some f else o) = if c then raise f s else answer s u o := by
  split
  · rfl
  · rfl

/-- Every command runs its checks in the order of `firstFault`, then its effect. -/
theorem exec_eq_answer (i : Instr) (s : State) : exec i s = answer s (commandEffect i s) (firstFault s i) := by
  cases i <;>
    simp only [firstFault, capacityFault, cipherFault, unpackFault, unpackLFault, keyldRawFault, answer_ite] <;> rfl

/-- A command reports a fault's code exactly when that fault is the first it meets. -/
theorem exec_reports_iff (h : exec i s = .next t) (f : EngineFault) : t.err = f.code ↔ firstFault s i = some f := by
  rw [exec_eq_answer] at h
  cases hfault : firstFault s i with
  | none =>
    rw [hfault] at h
    cases h
    exact iff_of_false f.code_ne_zero.symm (Option.some_ne_none f).symm
  | some g =>
    rw [hfault] at h
    cases h
    exact ⟨fun hcode => congrArg some (EngineFault.code_injective hcode),
      fun hsame => congrArg EngineFault.code (Option.some.inj hsame)⟩

/-! ### Taking a fault -/

/-- Acceptance writes only the fields that a fault writes after it. -/
theorem faulted_accept (code : BitVec 4) (s : State) : Ref.faulted code s.accept = Ref.faulted code s := rfl

/-- The first fault a command meets is the one it takes. -/
theorem exec_of_firstFault (f : EngineFault) (h : firstFault s i = some f) : exec i s = Ref.faulted f.code s := by
  rw [exec_eq_answer, h]
  rfl

/-- A command that reports a code changed nothing but `STATUS` (spec/60_exceptions.md R204). -/
theorem exec_eq_faulted (h : exec i s = .next t) (herr : t.err ≠ 0) : exec i s = Ref.faulted t.err s := by
  rcases exec_next_cases h with rfl | ⟨f, -, rfl⟩
  · exact absurd rfl herr
  · exact h

/-- A word that is no command takes IllegalCommand, whatever the operands are (spec/60_exceptions.md R201). -/
theorem issueCommand_of_illegal {w : Word} (h : ∀ i, w ≠ encode i) (s : State) :
    issueCommand w s = Ref.faulted EngineFault.illegalCommand.code s := by
  simp only [issueCommand, decode_eq_illegalCommand h]
  rfl

/-- ERR stands at bits 11:8 of `STATUS` (spec/10_state.md R28). -/
theorem status_errField (s : State) : s.status.toNat / 2 ^ 8 % 16 = s.err.toNat := by
  have hlayout := statusRegisterLayout s
  have hbusy := s.busy.toNat_le
  have hdone := s.done.toNat_le
  have hkeyv := s.keyv.toNat_le
  have herr := s.err.isLt
  omega

/-! ### The faults of the cipher commands -/

/-- The ciphers of the byte buffer check BLEN, then the key. -/
theorem firstFault_byteCipher (hi : i ∈ [Instr.bsenc, .bsdec, .chenc, .chdec]) :
    firstFault s i = cipherFault s.blenFits s.keyv := by
  simp only [List.mem_cons, List.not_mem_nil, or_false] at hi
  rcases hi with rfl | rfl | rfl | rfl <;> rfl

/-- The ciphers of the word buffer check WCNT, then the key. -/
theorem firstFault_wordCipher (hi : i ∈ [Instr.xxenc, .xxdec]) : firstFault s i = cipherFault s.wcntFits s.keyv := by
  simp only [List.mem_cons, List.not_mem_nil, or_false] at hi
  rcases hi with rfl | rfl <;> rfl

/-! ### When each check decides -/

/-- A check that fails gives its fault; one that is passed leaves the fault to the checks after it. -/
theorem check_eq_some_iff {c : Prop} [Decidable c] {f g : EngineFault} {o : Option EngineFault} :
    (if c then some f else o) = some g ↔ (c ∧ f = g) ∨ (¬ c ∧ o = some g) := by
  rw [ite_eq_iff, Option.some_inj]

@[simp] theorem capacityFault_eq_some_iff {fits : Bool} :
    capacityFault fits = some f ↔ fits = false ∧ .allocationFailure = f := by
  simp [capacityFault]

@[simp] theorem cipherFault_eq_some_iff {fits keyv : Bool} :
    cipherFault fits keyv = some f ↔
      (fits = false ∧ .allocationFailure = f) ∨ (fits = true ∧ keyv = false ∧ .keyTooShort = f) := by
  simp [cipherFault, check_eq_some_iff]

@[simp] theorem unpackFault_eq_some_iff :
    unpackFault s = some f ↔
      (s.params.bcap / 4 + 1 < s.wcnt.toNat ∨ s.params.bcap < 4 * s.wcnt.toNat) ∧ .allocationFailure = f := by
  simp only [unpackFault, check_eq_some_iff, State.wcntFits_eq_false_iff, reduceCtorEq, and_false, or_false]
  tauto

@[simp] theorem unpackLFault_eq_some_iff :
    unpackLFault s = some f ↔
      (s.params.bcap / 4 + 1 < s.wcnt.toNat ∧ .allocationFailure = f) ∨
      (s.wcnt.toNat ≤ s.params.bcap / 4 + 1 ∧
        (s.wcnt.toNat = 0 ∨ headerOk s.wcnt.toNat (s.readW (s.wcnt.toNat - 1)).toNat = false) ∧
        .corruptLengthHeader = f) := by
  simp only [unpackLFault, check_eq_some_iff, State.wcntFits_eq_false_iff, reduceCtorEq, and_false, or_false,
    Nat.not_lt]
  tauto

@[simp] theorem keyldRawFault_eq_some_iff :
    keyldRawFault s = some f ↔
      (s.params.kcap < s.klen.toNat ∧ .allocationFailure = f) ∨
      (s.klen.toNat ≤ s.params.kcap ∧
        ((s.klen.toNat % 8 ≠ 0 ∧ .invalidKeyLength = f) ∨
          (s.klen.toNat % 8 = 0 ∧ s.klen.toNat < 16 ∧ .keyTooShort = f))) := by
  simp only [keyldRawFault, check_eq_some_iff, State.klenFits_eq_false_iff, reduceCtorEq, and_false, or_false,
    Nat.not_lt, ne_eq, not_not]

/-- Past its capacity check a cipher asks for a key only. -/
theorem cipherFault_eq_keyTooShort_iff {fits keyv : Bool} (h : cipherFault fits keyv ≠ some .allocationFailure) :
    cipherFault fits keyv = some .keyTooShort ↔ keyv = false := by
  have hfits : fits = true := by simpa using h
  simp [hfits]

/-- Past its capacity check KEYLD.RAW calls two lengths short: the multiples of 8 below 16. -/
theorem keyldRawFault_eq_keyTooShort_iff (h : keyldRawFault s ≠ some .allocationFailure) :
    keyldRawFault s = some .keyTooShort ↔ s.klen.toNat = 0 ∨ s.klen.toNat = 8 := by
  have hfits : s.klen.toNat ≤ s.params.kcap := by simpa using h
  have hlengths : s.klen.toNat % 8 = 0 ∧ s.klen.toNat < 16 ↔ s.klen.toNat = 0 ∨ s.klen.toNat = 8 := by omega
  simp [hfits, hlengths]

end Sys2Proof.Machine

open Sys2Proof Sys2Proof.Machine

/-- Settles O6: the decoder refuses the word, and the fault's code is 5. -/
theorem illegalWordFaultsAndChangesOnlyStatus : Obligations.IllegalWordFaultsAndChangesOnlyStatus := by
  unfold Obligations.IllegalWordFaultsAndChangesOnlyStatus
  intro s w hillegal
  exact issueCommand_of_illegal hillegal s

/-- Settles O9: a command takes its fault in the state it was issued in, and what acceptance wrote is written over. -/
theorem faultChangesOnlyStatus : Obligations.FaultChangesOnlyStatus := by
  unfold Obligations.FaultChangesOnlyStatus
  refine ⟨fun i s t h herr => exec_eq_faulted h herr, fun w s t h herr => ?_⟩
  rcases issueCommand_cases w s with ⟨i, -, he⟩ | ⟨e, -, he⟩
  · rw [he, exec_eq_faulted (he.symm.trans h) herr, faulted_accept]
  · cases he.symm.trans h
    exact he

/-- Settles O11: the capacity is each command's first check, and UNPACK's second one too. -/
theorem allocationFailureExactly : Obligations.AllocationFailureExactly := by
  unfold Obligations.AllocationFailureExactly
  intro i s t h
  refine (exec_reports_iff h .allocationFailure).trans ?_
  cases i <;> simp [firstFault]

/-- Settles O12: only a cipher and KEYLD.RAW have a check of this fault after that of the capacity. -/
theorem keyTooShortExactly : Obligations.KeyTooShortExactly := by
  unfold Obligations.KeyTooShortExactly
  intro i s t h hne
  have hfits : firstFault s i ≠ some .allocationFailure := fun hfault => hne ((exec_reports_iff h _).mpr hfault)
  refine (exec_reports_iff h .keyTooShort).trans ?_
  cases i
  case xxenc | xxdec | bsenc | bsdec | chenc | chdec => exact cipherFault_eq_keyTooShort_iff hfits
  case keyldRaw => exact keyldRawFault_eq_keyTooShort_iff hfits
  case pack | packL | unpack | unpackL | keyldPad => simp [firstFault]

/-- Settles O13: of all checks only KEYLD.RAW's second one, past the capacity, is of a modulus. -/
theorem invalidKeyLengthExactly : Obligations.InvalidKeyLengthExactly := by
  unfold Obligations.InvalidKeyLengthExactly
  intro i s t h
  refine (exec_reports_iff h .invalidKeyLength).trans ?_
  cases i <;> simp [firstFault]

/-- Settles O15: each clause names the first fault its hypotheses leave, and that fault is taken. -/
theorem faultPriority : Obligations.FaultPriority := by
  unfold Obligations.FaultPriority
  refine ⟨fun s => exec_keyLoad_overflow (.inr rfl), fun s => exec_keyldRaw_invalidLength,
    fun s => exec_keyldRaw_tooShort, fun i s hi hover => ?byteOverflow, fun i s hi hfits hkeyv => ?byteKey,
    fun i s hi hover => ?wordOverflow, fun i s hi hfits hkeyv => ?wordKey, fun s => exec_unpackL_overflow⟩
  case byteOverflow => exact exec_of_firstFault .allocationFailure (by simp [firstFault_byteCipher hi, hover])
  case byteKey => exact exec_of_firstFault .keyTooShort (by simp [firstFault_byteCipher hi, hfits, hkeyv])
  case wordOverflow => exact exec_of_firstFault .allocationFailure (by simp [firstFault_wordCipher hi, hover])
  case wordKey => exact exec_of_firstFault .keyTooShort (by simp [firstFault_wordCipher hi, hfits, hkeyv])

/-- Settles O10: completion puts the code in ERR, which `STATUS` shows at bits 11:8. -/
theorem faultCodesInStatus : Obligations.FaultCodesInStatus := by
  unfold Obligations.FaultCodesInStatus
  intro f s
  refine ⟨s.complete f.code, rfl, ?_⟩
  rw [status_errField]
  cases f <;> rfl
end

-- Proofs: the host's wait for DONE
section
/-! SUPPORT. What a step does to the host's side of the state: what starts the wait of spec/70_reset_and_hazards.md R240,
what ends it, and that the script and the parameters stay. -/

namespace Sys2Proof.Machine

open Sys2Proof.Ref

variable {s t : State}

/-! ### The host's side under a command and under a write -/

/-- A command leaves the host's side alone. -/
theorem exec_sameHost {i : Instr} (h : exec i s = .next t) : SameHost s t := by
  rcases exec_next_cases h with rfl | ⟨f, -, rfl⟩
  · obtain ⟨hparams, -, -, hepoch, hscript, hpos, hread, hawaiting, -⟩ := commandEffect_frame i s
    exact ⟨hparams, hepoch, hscript, hpos, hread, hawaiting⟩
  · exact ⟨rfl, rfl, rfl, rfl, rfl, rfl⟩

/-- The issue of a word leaves the host's side alone and ends with DONE 1 (spec/10_state.md R29). -/
theorem issueCommand_sameHost_done {v : Word} (h : issueCommand v s = .next t) : SameHost s t ∧ t.done = true := by
  rcases issueCommand_cases v s with ⟨i, -, he⟩ | ⟨e, -, he⟩
  · have hexec : exec i s.accept = .next t := he.symm.trans h
    refine ⟨exec_sameHost (s := s.accept) hexec, ?_⟩
    rcases exec_next_cases hexec with rfl | ⟨f, -, rfl⟩
    · rfl
    · rfl
  · cases he.symm.trans h
    exact ⟨⟨rfl, rfl, rfl, rfl, rfl, rfl⟩, rfl⟩

/-- A write leaves the host's side alone, except that a write to `CMD` makes the host wait. -/
theorem writeLoc_sameHost {width : Width} {v : Word} {l : Loc} (h : writeLoc width v s l = .next t) :
    SameHost s t ∨ (l = .cmd ∧ SameHost s.await t) := by
  rcases writeLoc_cases h with ⟨hl, hissue⟩ | rfl | rfl | rfl | rfl | ⟨i, -, rfl⟩ | ⟨i, -, rfl⟩ | ⟨j, -, rfl⟩
  case inl => exact .inr ⟨hl, (issueCommand_sameHost_done hissue).1⟩
  all_goals exact .inl ⟨rfl, rfl, rfl, rfl, rfl, rfl⟩

/-- A write to a place of the window never stops. -/
theorem writeLoc_next (width : Width) (v : Word) (s : State) (l : Loc) : ∃ t, writeLoc width v s l = .next t := by
  cases l
  case cmd => exact issueCommand_next v s.await
  all_goals exact ⟨_, rfl⟩

/-! ### Steps -/

/-- No step changes the parameters or the script. -/
theorem step_params_script (h : step s = .next t) : t.params = s.params ∧ t.script = s.script := by
  rcases step_cases h with ⟨-, rfl⟩ | ⟨name, -, rfl⟩ | ⟨-, rfl⟩ | ⟨name, k, -, rfl⟩ | ⟨width, offset, -, -, rfl⟩ |
    ⟨width, offset, l, -, -, -, rfl⟩ | ⟨width, offset, v, l, -, -, -, hw⟩
  case inr.inr.inr.inr.inr.inr =>
    rcases writeLoc_sameHost hw with ⟨hparams, -, hscript, -⟩ | ⟨-, hparams, -, hscript, -⟩
    · exact ⟨hparams, hscript⟩
    · exact ⟨hparams, hscript⟩
  all_goals exact ⟨rfl, rfl⟩

/-- The read of `STATUS`, at any time. -/
theorem step_of_status_read (hline : fetchLine s = some (.read .word 0x04)) :
    step s = .next s.advance.readStatus :=
  step_of_fetchLine hline

/-- A waiting host finds DONE set (R240, log 19). -/
theorem done_of_awaiting (h : s.StatusLegal) (hawaiting : s.awaiting = true) : s.done = true := by
  obtain ⟨-, -, hdone⟩ := h
  refine Bool.eq_true_of_not_eq_false fun hnot => ?_
  obtain ⟨-, hnowait⟩ := hdone hnot
  exact Bool.false_ne_true (hnowait.symm.trans hawaiting)

/-- With a legal `STATUS` its read leaves no host waiting. -/
theorem readStatus_awaiting_of_statusLegal (h : s.StatusLegal) : s.readStatus.awaiting = false := by
  cases hawaiting : s.awaiting with
  | false => simp [hawaiting]
  | true => simp [done_of_awaiting h hawaiting]

/-- While the host waits on an idle engine, R240 is what bars it. -/
theorem State.barred_of_awaiting (hbusy : s.busy = false) (hawaiting : s.awaiting = true) :
    s.barred = some .accessBeforeDone := by simp [State.barred, hbusy, hawaiting]

/-- The lines that end the host's wait: a read of `STATUS` that shows DONE 1, a BERR line's included, and reset. -/
theorem step_ends_wait (h : step s = .next t) (hbefore : s.awaiting = true) (hafter : t.awaiting = false) :
    (s.done = true ∧ (fetchLine s = some (.read .word 0x04) ∨ ∃ name, fetchLine s = some (.berr name))) ∨
      fetchLine s = some .reset := by
  have hdone (hread : s.readStatus.awaiting = false) : s.done = true := by simpa [hbefore] using hread
  have hbarred : s.barred ≠ none := by simp [hbefore]
  rcases step_cases h with ⟨-, rfl⟩ | ⟨name, -, rfl⟩ | ⟨hline, -⟩ | ⟨name, k, hline, rfl⟩ |
    ⟨width, offset, hline, hl, rfl⟩ | ⟨width, offset, l, -, -, hnone, -⟩ | ⟨width, offset, v, l, -, -, hnone, -⟩
  · cases hbefore.symm.trans hafter
  · cases hbefore.symm.trans hafter
  · exact .inr hline
  · exact .inl ⟨hdone hafter, .inr ⟨name, hline⟩⟩
  · obtain ⟨rfl, rfl⟩ := resolve_status hl
    exact .inl ⟨hdone hafter, .inl hline⟩
  · exact absurd hnone hbarred
  · exact absurd hnone hbarred

/-- What leaves the host waiting: a write to `CMD`, or a wait from before the step, at a label or at a line that does
nothing. -/
theorem step_leaves_waiting (hstatus : s.StatusLegal) (h : step s = .next t)
    (hafter : t.awaiting = true) :
    (∃ v, fetchLine s = some (.write .word 0 v) ∧ t.pos = s.pos + 1) ∨
      (s.awaiting = true ∧ (t = s ∨ ∃ name, fetchLine s = some (.label name) ∧ t = s.advance)) := by
  have hread : ¬ s.readStatus.awaiting = true := Bool.eq_false_iff.mp (readStatus_awaiting_of_statusLegal hstatus)
  have hbarred (hnone : s.barred = none) : ¬ s.awaiting = true := by simp [(s.barred_eq_none.mp hnone).2]
  rcases step_cases h with ⟨-, rfl⟩ | ⟨name, hline, rfl⟩ | ⟨-, rfl⟩ | ⟨name, k, -, rfl⟩ | ⟨width, offset, -, -, rfl⟩ |
    ⟨width, offset, l, -, -, hnone, rfl⟩ | ⟨width, offset, v, l, hline, hl, hnone, hw⟩
  · exact .inr ⟨hafter, .inl rfl⟩
  · exact .inr ⟨hafter, .inr ⟨name, hline, rfl⟩⟩
  · cases hafter
  · exact absurd hafter hread
  · exact absurd hafter hread
  · exact absurd hafter (hbarred hnone)
  · rcases writeLoc_sameHost hw with ⟨-, -, -, -, -, hsame⟩ | ⟨rfl, -, -, -, hpos, -⟩
    · exact absurd (hsame.symm.trans hafter) (hbarred hnone)
    · obtain ⟨rfl, rfl⟩ := resolve_cmd hl
      exact .inl ⟨v, hline, hpos⟩

end Sys2Proof.Machine

open Sys2Proof Sys2Proof.Machine

/-- Settles O59: the wait bars all but the read of `STATUS`, and a step's cases show what ends it. -/
theorem onlyStatusUntilDoneIsRead : Obligations.OnlyStatusUntilDoneIsRead := by
  unfold Obligations.OnlyStatusUntilDoneIsRead
  refine ⟨fun s w hbusy hawaiting hline => ?starts,
    fun s width offset v line hp hbusy hawaiting haccess hline hother hlisted => ?bars, fun s hline => ?reads,
    fun s t => step_ends_wait⟩
  case starts =>
    obtain ⟨t, ht⟩ := issueCommand_next w s.advance.await
    obtain ⟨⟨-, -, -, -, -, hwait⟩, hdone⟩ := issueCommand_sameHost_done ht
    exact ⟨t, (step_of_cmd_write hbusy hawaiting hline).trans ht, hwait, hdone⟩
  case bars =>
    obtain ⟨l, hl⟩ := resolve_of_listed hp hlisted
    exact step_of_barred_access haccess hline hl hother (State.barred_of_awaiting hbusy hawaiting)
  case reads =>
    rw [step_of_status_read hline, readStatus_eq]
    rfl
end

-- Proofs: legal scripts
section
/-! SUPPORT. A host that keeps the duties of spec/70_reset_and_hazards.md R235, R236 and R240: its next line always has a
meaning, and the step leaves it with its duties kept. -/

namespace Sys2Proof.Machine

variable {s t : State} {p : Params} {script : List HostLine} {width : Width} {offset : BitVec 18}

/-! ### What a legal line is -/

/-- A legal write is of a place of the window. -/
theorem lineLegal_write_iff {v : Word} :
    lineLegal p script (.write width offset v) = true ↔ ∃ l, resolve p width offset = .loc l := by
  cases hl : resolve p width offset <;> simp [lineLegal, hl]

/-- A legal read is of a place of the window. -/
theorem lineLegal_read_iff :
    lineLegal p script (.read width offset) = true ↔ ∃ l, resolve p width offset = .loc l := by
  cases hl : resolve p width offset <;> simp [lineLegal, hl]

/-- A legal branch has its label in the script (log 12). -/
theorem lineLegal_berr_iff {name : Nat} :
    lineLegal p script (.berr name) = true ↔ ∃ k, labelFrom name 0 script = some k := by
  simp only [lineLegal, Option.isSome_iff_exists]

/-- The register area takes words only (spec/20_memory.md R55). -/
theorem width_eq_word_of_register {l : Loc} (hhigh : offset.toNat < 0x30) (h : resolve p width offset = .loc l) :
    width = .word := by
  rw [resolve_registerArea hhigh] at h
  split at h
  case isTrue hword => exact ((alignedWord_iff _ _).mp hword).1
  case isFalse => cases h

/-- The line the host performs next is legal, in a legal script. -/
theorem lineLegal_of_fetchLine {line : HostLine} (h : s.ScriptLegal) (hline : fetchLine s = some line) :
    lineLegal s.params s.script line = true := by
  obtain ⟨hlines, -, -⟩ := h
  exact List.all_eq_true.mp hlines line (List.mem_of_getElem? hline)

/-- While the host of a legal script waits, its next line is no access but the read at the offset of `STATUS`. -/
theorem readsStatusNext_of_fetchLine {line : HostLine} (h : s.ScriptLegal) (hline : fetchLine s = some line)
    (hawaiting : s.awaiting = true) : readsStatusNext (line :: s.script.drop (s.pos + 1)) = true := by
  obtain ⟨-, -, hwait⟩ := h
  rw [← drop_of_fetchLine hline]
  exact hwait hawaiting

/-! ### Every next line has a meaning -/

/-- A legal write finds a host that does not wait, and is performed. -/
theorem step_next_of_legal_write {v : Word} (hbusy : s.busy = false) (h : s.ScriptLegal)
    (hline : fetchLine s = some (.write width offset v)) : ∃ t, step s = .next t := by
  obtain ⟨l, hl⟩ := lineLegal_write_iff.mp (lineLegal_of_fetchLine h hline)
  have hawaiting : s.awaiting = false :=
    Bool.eq_false_iff.mpr fun hwait => Bool.false_ne_true (readsStatusNext_of_fetchLine h hline hwait)
  rw [step_of_listed_write hbusy hawaiting hline hl]
  exact writeLoc_next width v s.advance l

/-- A legal read is performed: while the host waits it is the read of `STATUS`. -/
theorem step_next_of_legal_read (hbusy : s.busy = false) (h : s.ScriptLegal)
    (hline : fetchLine s = some (.read width offset)) : ∃ t, step s = .next t := by
  obtain ⟨l, hl⟩ := lineLegal_read_iff.mp (lineLegal_of_fetchLine h hline)
  cases hawaiting : s.awaiting with
  | false => exact ⟨_, step_of_listed_read hbusy hawaiting hline hl⟩
  | true =>
    obtain rfl : offset = 0x04 := eq_of_beq (readsStatusNext_of_fetchLine h hline hawaiting)
    obtain rfl := width_eq_word_of_register (by decide) hl
    exact ⟨_, step_of_status_read hline⟩

/-- A legal branch goes on to the next line or to its label. -/
theorem step_next_of_legal_berr {name : Nat} (h : s.ScriptLegal) (hline : fetchLine s = some (.berr name)) :
    ∃ t, step s = .next t := by
  obtain ⟨k, hk⟩ := lineLegal_berr_iff.mp (lineLegal_of_fetchLine h hline)
  rw [step_of_fetchLine hline, runLine]
  by_cases herr : s.err = 0
  · exact ⟨_, hostBranch_not_taken name herr⟩
  · exact ⟨_, hostBranch_taken herr hk⟩

/-- A legal script never stops an idle engine. -/
theorem step_next_of_scriptLegal (hbusy : s.busy = false) (h : s.ScriptLegal) : ∃ t, step s = .next t := by
  cases hline : fetchLine s with
  | none => exact ⟨s, step_of_no_line hline⟩
  | some line =>
    cases line with
    | write width offset v => exact step_next_of_legal_write hbusy h hline
    | read width offset => exact step_next_of_legal_read hbusy h hline
    | berr name => exact step_next_of_legal_berr h hline
    | reset => exact ⟨_, step_of_fetchLine hline⟩
    | label name => exact ⟨_, step_of_fetchLine hline⟩
    | stop => exact ⟨_, step_of_fetchLine hline⟩

/-! ### The duties are kept -/

/-- After a step the script is still legal: a wait that the step starts is at a line after a write to `CMD`, and one that
it leaves stands where it stood, or past a label. -/
theorem scriptLegal_step (hstatus : s.StatusLegal) (h : s.ScriptLegal) (hstep : step s = .next t) : t.ScriptLegal := by
  have ⟨hlines, hpolls, hwait⟩ := h
  obtain ⟨hparams, hscript⟩ := step_params_script hstep
  refine ⟨by rwa [hparams, hscript], by rwa [hscript], fun hafter => ?_⟩
  rcases step_leaves_waiting hstatus hstep hafter with
    ⟨v, hline, hpos⟩ | ⟨hbefore, rfl | ⟨name, hline, rfl⟩⟩
  · rw [hscript, hpos]
    exact pollsAfterCommands_getElem? hpolls hline rfl
  · exact hwait hbefore
  · exact readsStatusNext_of_fetchLine h hline hbefore

end Sys2Proof.Machine

open Sys2Proof Sys2Proof.Machine

/-- Settles O57: the next line has a meaning, and its step keeps the invariant and the host's duties. -/
theorem legalScriptsNeverStop : Obligations.LegalScriptsNeverStop := by
  unfold Obligations.LegalScriptsNeverStop
  intro s hinv hlegal
  have ⟨hstatus, _⟩ := hinv
  have ⟨hbusy, _⟩ := hstatus
  obtain ⟨t, ht⟩ := step_next_of_scriptLegal hbusy hlegal
  exact ⟨t, ht, inv_step hinv ht, scriptLegal_step hstatus hlegal ht⟩
end

-- Proofs: the host's reset
section
/-! SUPPORT. What reads as what after the host's reset (spec/70_reset_and_hazards.md R230, R231). -/

namespace Sys2Proof.Machine

variable (s : State)

/-- Reset clears `STATUS`. -/
@[simp] theorem State.resetEngine_status : s.resetEngine.status = 0 :=
  (by decide : statusWord false false false 0 = 0)

/-- Reset leaves no element of `B` written (log 3). -/
@[simp] theorem State.resetEngine_readB (i : Nat) : s.resetEngine.readB i = Config.unwrittenB (s.epoch + 1) i := rfl

/-- Reset leaves no element of `W` written (log 3). -/
@[simp] theorem State.resetEngine_readW (j : Nat) : s.resetEngine.readW j = Config.unwrittenW (s.epoch + 1) j := rfl

/-- Reset leaves no element of `KIN` written (log 3). -/
@[simp] theorem State.resetEngine_readKin (i : Nat) :
    s.resetEngine.readKin i = Config.unwrittenKin (s.epoch + 1) i := rfl

/-- Reset clears every byte of the key. -/
theorem State.resetEngine_k_getElem (i : Fin 16) : s.resetEngine.k[i] = 0 := Vector.getElem_replicate i.isLt

end Sys2Proof.Machine

open Sys2Proof Sys2Proof.Machine

/-- Settles O53: the reset line is `State.resetEngine`, whatever the state. -/
theorem resetActionClearsTheRegisters : Obligations.ResetActionClearsTheRegisters := by
  unfold Obligations.ResetActionClearsTheRegisters
  intro s hline
  have hstep : step s = .next s.advance.resetEngine := step_of_fetchLine hline
  exact ⟨_, hstep, State.resetEngine_status _, rfl, rfl, rfl, State.resetEngine_k_getElem _, rfl, rfl, rfl, rfl,
    State.resetEngine_readB _, State.resetEngine_readW _, State.resetEngine_readKin _⟩
end

-- Proofs: the command words as bytes and as rows of the opcode table
section
/-! SUPPORT. Decoding of the four bytes of a word, and of the bits of an opcode-table row, is decoding of the word
(spec/30_encoding.md R80, R82; the byte order is the model's, log 16). -/

namespace Sys2Proof

/-- The bytes of a word decode as the word does, and what follows them is handed back. -/
theorem decodeBytes_leBytes_append (w : Word) (rest : List Byte) :
    decodeBytes (Machine.leBytes w ++ rest) = (decode w).map (·, rest) := by
  simp only [Machine.leBytes, List.cons_append, List.nil_append, decodeBytes, Machine.leWord_leByte]
  cases decode w <;> rfl

/-- A row that gives all 32 bits of a word gives that word. -/
theorem tableWord_toNat (w : Word) : tableWord 32 w.toNat = w := by
  rw [tableWord, Nat.mod_eq_of_lt w.isLt, BitVec.ofNat_toNat, BitVec.setWidth_eq]

/-- The row of a word that decodes names that word's command. -/
theorem decodeTableWord_of_decode {w : Word} {i : Instr} (h : decode w = .ok i) :
    decodeTableWord 32 w.toNat = some i := by
  have hbytes : decodeBytes (Machine.leBytes w) = .ok (i, []) := by
    simpa [h, Except.map] using decodeBytes_leBytes_append w []
  rw [decodeTableWord, tableWord_toNat, hbytes]

end Sys2Proof

open Sys2Proof

/-- Settles O3: the bytes and the table row both give the command's word again, and the decoder inverts the encoder. -/
theorem decodeOfEncodeIsTheCommand : Obligations.DecodeOfEncodeIsTheCommand := by
  unfold Obligations.DecodeOfEncodeIsTheCommand
  intro i rest _
  have hword : decode (encode i) = .ok i := decode_encode i
  have hbytes : decodeBytes (encodeBytes i ++ rest) = .ok (i, rest) := by
    rw [encodeBytes, decodeBytes_leBytes_append, hword, Except.map]
  exact ⟨hword, hbytes, decodeTableWord_of_decode hword⟩
end
